-- ==== Sys2Proof/Word.lean ====
section
/-!
DEFINITION. The word types of the engine: what 00_scope.md rules R5 to R9 call a byte, a word and a 64-bit value.
-/

namespace Sys2Proof

/-- A byte (R9). -/
abbrev Byte := BitVec 8

/-- A 32-bit word (R5, R7): register contents, hash words, command words. -/
abbrev Word := BitVec 32

/-- A 64-bit value: a source-memory address (R6 `SRC_ADDR_BITS`), a length in bytes, a block count. -/
abbrev Addr := BitVec 64

end Sys2Proof
end

