-- ==== Sys2Proof/Syntax.lean ====
section
/-!
DEFINITION. The commands of the engine (30_encoding.md R91): one constructor per row of spec/opcode_table.json.
No command carries an operand in its word (R92), so no constructor has an argument.
-/

namespace Sys2Proof

/-- The four commands a host may write to `CMD` (R91). -/
inductive Instr where
  /-- `NOP`, command word `0x00000000` (R193). -/
  | nop
  /-- `HASH`, command word `0x00000001` (R195). -/
  | hash
  /-- `HMAC`, command word `0x00000002` (R196). -/
  | hmac
  /-- `CLR`, command word `0x00000003` (R194). -/
  | clr
  deriving DecidableEq, Repr

end Sys2Proof
end

