-- ==== Sys2Proof/WellFormed.lean ====
section
/-!
DEFINITION. Which command words are well formed (30_encoding.md R90, R91, R93). A command has no operand, so an
instruction as syntax has nothing to check but its opcode; the checks are about the 32-bit word a host presents.
-/

namespace Sys2Proof

/-- The opcode `OP` of a command (R91). -/
def Instr.opcode : Instr → Byte
  | .nop  => 0x00
  | .hash => 0x01
  | .hmac => 0x02
  | .clr  => 0x03

/-- `OP` selects a command: it is one of `0x00` to `0x03` (R91, R93). -/
def opcodeLegal (op : Byte) : Bool := decide (op.toNat ≤ 3)

/-- `RSVD`, bits 31:8 of a command word, is 0 (R90). -/
def reservedZero (v : Word) : Bool := v.extractLsb' 8 24 == 0

/-- A command word is legal: `RSVD` is 0 and `OP` selects a command (R93). -/
def commandWordLegal (v : Word) : Bool := reservedZero v && opcodeLegal (v.extractLsb' 0 8)

/-- A command as syntax is well formed when its opcode is one of the opcode map (R91). -/
def Instr.wellFormed (i : Instr) : Bool := opcodeLegal i.opcode

end Sys2Proof
end

