-- ==== Sys2Proof/Decode.lean ====
section
/-!
DEFINITION. Decoding a command word (43_commands.md R192, 30_encoding.md R90 to R94), total on every 32-bit word and
rejecting by name, and the encoder of R91.
-/

namespace Sys2Proof

/-- Why a word is no command (R93). -/
inductive DecodeError where
  /-- `RSVD`, bits 31:8, is not 0. -/
  | reservedBits
  /-- `OP`, bits 7:0, is in `0x04 .. 0xFF`. -/
  | illegalOpcode
  deriving DecidableEq, Repr

/-- The opcode map (R91): the command that `OP` selects. -/
def decodeOpcode (op : Byte) : Option Instr :=
  if op = 0x00 then some .nop
  else if op = 0x01 then some .hash
  else if op = 0x02 then some .hmac
  else if op = 0x03 then some .clr
  else none

/-- `Decode(v)` (R192): the command a word written to `CMD` selects, or why it is illegal. -/
def decode (v : Word) : Except DecodeError Instr :=
  if v.extractLsb' 8 24 ≠ 0 then .error .reservedBits
  else
    match decodeOpcode (v.extractLsb' 0 8) with
    | some i => .ok i
    | none => .error .illegalOpcode

/-- The command word of a command (R90, R91): `OP` in bits 7:0, `RSVD` = 0 in bits 31:8. -/
def encode (i : Instr) : Word := (0 : BitVec 24) ++ i.opcode

/-- The instruction the decoder reads from the low `nbits` bits of `w`, bits numbered as spec/opcode_table.json numbers
them (bit 0 least significant); every bit above them is 0. A command is one 32-bit word (R94). -/
def decodeTableWord (nbits w : Nat) : Option Instr :=
  match decode (BitVec.ofNat 32 (w % 2 ^ nbits)) with
  | .ok i => some i
  | .error _ => none

theorem decode_ok_nop : decode 0x00000000#32 = .ok .nop := by decide
theorem decode_ok_hash : decode 0x00000001#32 = .ok .hash := by decide
theorem decode_ok_hmac : decode 0x00000002#32 = .ok .hmac := by decide
theorem decode_ok_clr : decode 0x00000003#32 = .ok .clr := by decide

end Sys2Proof
end

