-- ==== Sys2Proof/Config.lean ====
section
/-!
DEFINITION. What the platform around the engine fixes (92_eei_decisions.md "OPEN parameters") and the free values of
93_implementation_defined.md section 1 and of a host's reads of source memory.
The parameters are plain data that `State` carries, so that a statement about every state is a statement about every
platform; the free values are constants without a body, so that no proof can see what they are.
-/

namespace Sys2Proof

/-- The source addresses `base`, …, `base + size - 1`. -/
structure AddrRange where
  base : Nat
  size : Nat
  deriving DecidableEq, Repr

/-- The parameters the spec leaves OPEN to the platform, fixed for a whole run (D5, D14, U3, U4, U5). -/
structure Platform where
  /-- `ENGINE_BASE`: the base of the 256-byte register window (R22, R78). -/
  engineBase : Addr
  /-- `BusErr`: the source addresses whose byte reads return a bus error, as a list of ranges (R73). -/
  busErr : List AddrRange
  /-- The source addresses that are device registers, as a list of ranges (R77, U5). -/
  devices : List AddrRange
  deriving DecidableEq, Repr

/-- FREE VALUE (U5): what the n-th drawn source read returns when its address is a device, or lies in the engine's
own register window. -/
opaque Config.deviceByte : Nat → Byte

/-- FREE VALUE (U1, R80 case 2): which of the values a byte held the n-th drawn source read returns. -/
opaque Config.raceDraw : Nat → Nat

/-- FREE VALUE (notes/assumptions/18.md): what a host's n-th drawn read of source memory returns when its address is
a device, lies in the engine's own register window, or is one where a source read fails. -/
opaque Config.hostByte : Nat → Byte

/-- FREE VALUE (notes/assumptions/18.md): which of the values a byte holds, a pending store's among them, a host's n-th
drawn read of source memory returns. -/
opaque Config.hostDraw : Nat → Nat

end Sys2Proof
end

