-- ==== Sys2Proof/Machine/State.lean ====
section
/-!
DEFINITION. The state of the engine and of the agents around it (10_state.md), as plain data, and `State.reset` (R55).
-/

namespace Sys2Proof.Machine

/-- `eng.phase`, the sequencer's next micro-step (R50). -/
inductive Phase where
  | idle | keyLoad | passInit | blockLoad | round | update | passEnd
  deriving DecidableEq, Repr

/-- `eng.pass`, the SHA-256 evaluation the engine is doing (R47). -/
inductive Pass where
  | none | hash | keyHash | inner | outer
  deriving DecidableEq, Repr

/-- The error codes of `STATUS.ERR_CODE` (R240). The reserved codes 7 to 15 are never produced and have no constructor
(93_implementation_defined.md U10). -/
inductive ErrCode where
  | none | illegalCmd | inputTooLargeMsg | inputTooLargeKey | rangeMsg | rangeKey | busError
  deriving DecidableEq, Repr

/-- Eight 32-bit words: `HS[0..8)` (R40), the working registers `a`..`h` (R41), `DIGEST0..7` (R32). Word 0 is `a`,
word 7 is `h`. -/
structure Words8 where
  a : Word
  b : Word
  c : Word
  d : Word
  e : Word
  f : Word
  g : Word
  h : Word
  deriving DecidableEq, Repr

/-- The host-visible registers that hold state (R22). `ID` is a constant (R23), `CMD` holds no state (R26), `BUSY` and
`irq` are derived (R51). -/
structure HostRegs where
  /-- `CTRL.IE` (R24). -/
  ie : Bool
  /-- `STATUS.DONE` (R25). -/
  done : Bool
  /-- `STATUS.ERR` (R25). -/
  err : Bool
  /-- `STATUS.OVR` (R25). -/
  ovr : Bool
  /-- `STATUS.ERR_CODE` (R25, R240). -/
  errCode : ErrCode
  /-- `ERR_ADDR` (R31); `ERR_ADDR_LO` and `ERR_ADDR_HI` are its halves. -/
  errAddr : Addr
  /-- `MSG_ADDR_LO` (R27). -/
  msgAddrLo : Word
  /-- `MSG_ADDR_HI` (R27). -/
  msgAddrHi : Word
  /-- `MSG_LEN_LO` (R28). -/
  msgLenLo : Word
  /-- `MSG_LEN_HI` (R28). -/
  msgLenHi : Word
  /-- `KEY_ADDR_LO` (R29). -/
  keyAddrLo : Word
  /-- `KEY_ADDR_HI` (R29). -/
  keyAddrHi : Word
  /-- `KEY_LEN_LO` (R30). -/
  keyLenLo : Word
  /-- `KEY_LEN_HI` (R30). -/
  keyLenHi : Word
  /-- `DIGEST0..7` (R32). -/
  digest : Words8
  deriving DecidableEq, Repr

/-- The internal state of the engine (10_state.md section 4), never readable or writable by a host (R36). -/
structure Engine where
  /-- `HS[0..8)` (R40). -/
  hs : Words8
  /-- The working registers `a`..`h` (R41). -/
  work : Words8
  /-- `W[0..16)`, the circular window of the message schedule (R42). -/
  w : Vector Word 16
  /-- `K0[0..64)` (R43). -/
  k0 : Vector Byte 64
  /-- `IHD[0..32)` (R44). -/
  ihd : Vector Byte 32
  /-- `eng.msg_addr` (R45). -/
  msgAddr : Addr
  /-- `eng.msg_len` (R45). -/
  msgLen : BitVec 64
  /-- `eng.key_addr` (R45). -/
  keyAddr : Addr
  /-- `eng.key_len` (R45). -/
  keyLen : BitVec 64
  /-- `eng.vlen` (R46). -/
  vlen : BitVec 64
  /-- `eng.nblk` (R46). -/
  nblk : BitVec 64
  /-- `eng.blk` (R46). -/
  blk : BitVec 64
  /-- `eng.t` (R46). -/
  t : BitVec 6
  /-- `eng.pass` (R47). -/
  pass : Pass
  /-- `eng.phase` (R50). -/
  phase : Phase
  deriving DecidableEq, Repr

/-- One access of a host to the register port, of any width, alignment and byte lanes (R33). -/
structure Access where
  /-- A write, or a read. -/
  write : Bool
  /-- The offset in the register window (R21: 8 bits). -/
  off : Byte
  /-- The width of the access in bytes. -/
  bytes : Nat
  /-- The enabled byte lanes of the 32-bit data port. -/
  lanes : BitVec 4
  /-- The data written; a read ignores it. -/
  data : Word
  deriving DecidableEq, Repr

/-- A statement of a host program (30_encoding.md R95). A result's name is a number. -/
inductive Stmt where
  /-- `WR reg, data`: an aligned 32-bit write at offset `off`. -/
  | wr (off : Byte) (data : Word)
  /-- `RD reg -> name`: an aligned 32-bit read at offset `off`. -/
  | rd (off : Byte) (name : Nat)
  /-- `POLL reg, mask, value`: read until `(read & mask) == value`. -/
  | poll (off : Byte) (mask value : Word)
  /-- `STORE addr, bytes`: stores to source memory in ascending address order, one byte a turn, and one turn more to end
  (DESIGN CHOICE, notes/assumptions/19.md). -/
  | store (addr : Nat) (bytes : List Byte)
  /-- Any access of R33, whatever its width, alignment and byte lanes; a read's value is named `name`. -/
  | access (a : Access) (name : Nat)
  /-- A host's read of one byte of source memory (R20); the byte, as a word, is named `name`. The spec has no statement of
  this name (DESIGN CHOICE, notes/assumptions/18.md). -/
  | load (a : Addr) (name : Nat)
  deriving DecidableEq, Repr

/-- A host, that is a bus master (R20): the statements it has still to run, in program order, and the values its reads
returned, oldest first, each under its name (R95). -/
structure Master where
  prog : List Stmt
  results : List (Nat × Word)
  deriving DecidableEq, Repr

/-- Whose turn it is: the choice of the interconnect and of time, which the spec leaves open (R76, R283, U6). -/
inductive Turn where
  /-- The engine takes its enabled micro-step, if it has one (R50). -/
  | engine
  /-- Host `k` does its next bus transaction. -/
  | host (k : Nat)
  /-- The platform makes the `k`-th pending host store visible to the source port (R81). -/
  | publish (k : Nat)
  /-- `rst` is driven to this level (R21, R270). -/
  | reset (level : Bool)
  deriving DecidableEq, Repr

/-- Source memory: the bytes that differ from what an unlisted address reads as, by strictly rising address. -/
abbrev Memory := List Host.Cell

/-- The state of the machine: the engine, its register port, source memory, and the hosts around it. -/
structure State where
  /-- The host-visible registers (10_state.md section 2). -/
  reg : HostRegs
  /-- The internal state (10_state.md section 4). -/
  eng : Engine
  /-- The level of the `rst` port (R21). -/
  rst : Bool
  /-- MODEL: the platform's OPEN parameters, fixed for the run. -/
  platform : Platform
  /-- Source memory as the source port sees it (R53, R80). -/
  mem : Memory
  /-- MODEL: host stores not yet visible to the source port, made before the running command's acceptance (R81), oldest
  first. -/
  unseen : List Host.Cell
  /-- MODEL: host stores made since the running command's acceptance (R80 case 2), all later than those of `unseen`,
  oldest first. The two lists are DESIGN CHOICE, notes/assumptions/5.md. -/
  raced : List Host.Cell
  /-- MODEL: how many source reads have taken a free value so far. -/
  draws : Nat
  /-- MODEL: how many host reads of source memory have taken a free value so far. -/
  loads : Nat
  /-- MODEL: the hosts (R20). -/
  masters : List Master
  /-- MODEL: whose turn it is next, as far as it is decided (U6); after the list's end the turn is
  `Sys2Proof.Machine.defaultTurn`. -/
  sched : List Turn
  deriving DecidableEq, Repr

/-- Why the machine stops with a fault. -/
inductive Fault where
  /-- Raised by `BLOCK_LOAD` when R205 gives no virtual-message byte (`eng.pass` = `NONE`, or an `OUTER` byte past 96).
  SAFE: the invariant `State.Inv` rules these states out, so no run from reset reaches it. -/
  | noVirtualByte
  /-- Raised by `PASS_END` when `eng.pass` = `NONE`, for which R216 has no case. SAFE: the invariant `State.Inv` rules
  these states out, so no run from reset reaches it. -/
  | noPass
  /-- Raised by a host's `STORE` to an address of 2^64 or more, which does not exist (R53). SAFE: the machine stops where
  the platform would do something the spec does not describe. -/
  | storeOutsideMemory
  deriving DecidableEq, Repr

/-- Why an instruction is refused. -/
inductive Refusal where
  /-- The instruction has no meaning in `exec` yet. No arm of `exec` answers with it. SAFE. -/
  | notModelled (mnemonic : String)
  deriving DecidableEq, Repr

/-- Eight zero words. -/
def Words8.zero : Words8 := ⟨0, 0, 0, 0, 0, 0, 0, 0⟩

/-- The host-visible registers after reset (R22, R55). -/
def HostRegs.reset : HostRegs where
  ie := false
  done := false
  err := false
  ovr := false
  errCode := .none
  errAddr := 0
  msgAddrLo := 0
  msgAddrHi := 0
  msgLenLo := 0
  msgLenHi := 0
  keyAddrLo := 0
  keyAddrHi := 0
  keyLenLo := 0
  keyLenHi := 0
  digest := Words8.zero

/-- The internal state when the engine is idle and after reset: all zero, `eng.pass` = `NONE`, `eng.phase` = `IDLE`
(R49, R55). -/
def Engine.idle : Engine where
  hs := Words8.zero
  work := Words8.zero
  w := Vector.replicate 16 0
  k0 := Vector.replicate 64 0
  ihd := Vector.replicate 32 0
  msgAddr := 0
  msgLen := 0
  keyAddr := 0
  keyLen := 0
  vlen := 0
  nblk := 0
  blk := 0
  t := 0
  pass := .none
  phase := .idle

/-- The machine right after reset on the platform `p` (R55, R270): `rst` is released, source memory lists nothing, and
no host has a statement to run. -/
def State.resetOn (p : Platform) : State where
  reg := HostRegs.reset
  eng := Engine.idle
  rst := false
  platform := p
  mem := []
  unseen := []
  raced := []
  draws := 0
  loads := 0
  masters := []
  sched := []

/-- The machine right after reset (R55) on the platform with `ENGINE_BASE` = 0, no failing address and no device. -/
def State.reset : State := State.resetOn ⟨0, [], []⟩

end Sys2Proof.Machine
end

