-- ==== Sys2Proof/Machine/Bits.lean ====
section
/-!
DEFINITION. Bit fields, rotation, shift and byte order (00_scope.md R7 to R9, 20_memory.md R70).
-/

namespace Sys2Proof.Machine

/-- `rotr(x, n)`, the circular right rotation of a word (R8). -/
def rotr (x : Word) (n : Nat) : Word := x.rotateRight n

/-- `x >> n`, the logical right shift of a word (R8). -/
def shr (x : Word) (n : Nat) : Word := x >>> n

/-- `be32(b0, b1, b2, b3)`: four bytes as a word, the first most significant (R9). -/
def be32 (b0 b1 b2 b3 : Byte) : Word := b0 ++ b1 ++ b2 ++ b3

/-- `bytes_be32(w)`: the bytes of a word, the most significant first (R9). -/
def bytesBe32 (w : Word) : List Byte :=
  [w.extractLsb' 24 8, w.extractLsb' 16 8, w.extractLsb' 8 8, w.extractLsb' 0 8]

/-- `be64(v)`: the bytes of a 64-bit value, the most significant first (R9). -/
def be64 (v : BitVec 64) : List Byte :=
  bytesBe32 (v.extractLsb' 32 32) ++ bytesBe32 (v.extractLsb' 0 32)

/-- The 64-bit value `HI || LO` of a register pair (R92). -/
def concatPair (hi lo : Word) : BitVec 64 := hi ++ lo

/-- Bits 31:0 of a 64-bit value. -/
def loHalf (v : BitVec 64) : Word := v.extractLsb' 0 32

/-- Bits 63:32 of a 64-bit value. -/
def hiHalf (v : BitVec 64) : Word := v.extractLsb' 32 32

/-- A flag as one bit. -/
def flagBit (b : Bool) : BitVec 1 := BitVec.ofBool b

/-- The eight words in order, word 0 first. -/
def Words8.toList (x : Words8) : List Word := [x.a, x.b, x.c, x.d, x.e, x.f, x.g, x.h]

/-- Word `i` (`HS[i]`, `DIGESTi`), for `i` in `0..8`. -/
def Words8.word (x : Words8) (i : Nat) : Word := x.toList.getD i 0

/-- Word-wise addition modulo 2^32 (R143). -/
def Words8.add (x y : Words8) : Words8 :=
  ⟨x.a + y.a, x.b + y.b, x.c + y.c, x.d + y.d, x.e + y.e, x.f + y.f, x.g + y.g, x.h + y.h⟩

/-- The 32 bytes of eight words, each word's most significant byte first (R70, R145). -/
def Words8.bytes (x : Words8) : List Byte := x.toList.flatMap bytesBe32

/-- A fixed number of bytes from a list; an index past the list's end gives `0x00`. -/
def bytesOfList (n : Nat) (bs : List Byte) : Vector Byte n := Vector.ofFn fun i => bs.getD i 0

end Sys2Proof.Machine
end

