-- ==== Sys2Proof/Machine/Sha256.lean ====
section
/-!
DEFINITION. The SHA-256 datapath (41_compression.md R130 to R145): the constants, the six logic functions, the message
schedule in its two forms, one round and the compression of one block.
-/

namespace Sys2Proof.Machine

/-- The initial hash value `IV[0..8)` (R131). -/
def iv : Words8 :=
  ⟨0x6a09e667, 0xbb67ae85, 0x3c6ef372, 0xa54ff53a, 0x510e527f, 0x9b05688c, 0x1f83d9ab, 0x5be0cd19⟩

/-- The round constants `K[0..64)` (R132), eight to a row as R132's table has them. -/
def roundConstants : List Word :=
  [0x428a2f98, 0x71374491, 0xb5c0fbcf, 0xe9b5dba5, 0x3956c25b, 0x59f111f1, 0x923f82a4, 0xab1c5ed5] ++
  [0xd807aa98, 0x12835b01, 0x243185be, 0x550c7dc3, 0x72be5d74, 0x80deb1fe, 0x9bdc06a7, 0xc19bf174] ++
  [0xe49b69c1, 0xefbe4786, 0x0fc19dc6, 0x240ca1cc, 0x2de92c6f, 0x4a7484aa, 0x5cb0a9dc, 0x76f988da] ++
  [0x983e5152, 0xa831c66d, 0xb00327c8, 0xbf597fc7, 0xc6e00bf3, 0xd5a79147, 0x06ca6351, 0x14292967] ++
  [0x27b70a85, 0x2e1b2138, 0x4d2c6dfc, 0x53380d13, 0x650a7354, 0x766a0abb, 0x81c2c92e, 0x92722c85] ++
  [0xa2bfe8a1, 0xa81a664b, 0xc24b8b70, 0xc76c51a3, 0xd192e819, 0xd6990624, 0xf40e3585, 0x106aa070] ++
  [0x19a4c116, 0x1e376c08, 0x2748774c, 0x34b0bcb5, 0x391c0cb3, 0x4ed8aa4a, 0x5b9cca4f, 0x682e6ff3] ++
  [0x748f82ee, 0x78a5636f, 0x84c87814, 0x8cc70208, 0x90befffa, 0xa4506ceb, 0xbef9a3f7, 0xc67178f2]

/-- `K[t]` (R132), for `t` in `0..64`. -/
def roundConstant (t : Nat) : Word := roundConstants.getD t 0

/-- `Ch(x, y, z)` (R133). -/
def ch (x y z : Word) : Word := (x &&& y) ^^^ (~~~x &&& z)

/-- `Maj(x, y, z)` (R134). -/
def maj (x y z : Word) : Word := (x &&& y) ^^^ (x &&& z) ^^^ (y &&& z)

/-- `BSIG0(x)` (R135). -/
def bsig0 (x : Word) : Word := rotr x 2 ^^^ rotr x 13 ^^^ rotr x 22

/-- `BSIG1(x)` (R136). -/
def bsig1 (x : Word) : Word := rotr x 6 ^^^ rotr x 11 ^^^ rotr x 25

/-- `SSIG0(x)` (R137); the third term is a shift. -/
def ssig0 (x : Word) : Word := rotr x 7 ^^^ rotr x 18 ^^^ shr x 3

/-- `SSIG1(x)` (R138); the third term is a shift. -/
def ssig1 (x : Word) : Word := rotr x 17 ^^^ rotr x 19 ^^^ shr x 10

/-- The schedule word made of `W_{t-2}`, `W_{t-7}`, `W_{t-15}` and `W_{t-16}` (R139). -/
def scheduleWord (w2 w7 w15 w16 : Word) : Word := ssig1 w2 + w7 + ssig0 w15 + w16

/-- The message words `w` extended by the `n` schedule words after them (R139), the array the source names: word `t` of
the result is `W_t`. -/
def extendSchedule (w : List Word) : Nat → List Word
  | 0 => w
  | n + 1 =>
    let p := extendSchedule w n
    let t := p.length
    p ++ [scheduleWord (p.getD (t - 2) 0) (p.getD (t - 7) 0) (p.getD (t - 15) 0) (p.getD (t - 16) 0)]

/-- The 64 schedule words of a block of 16 message words (R139). -/
def schedule (w : List Word) : List Word := extendSchedule w 48

/-- Entry `n mod 16` of the schedule window (R42). -/
def windowAt (w : Vector Word 16) (n : Nat) : Word := w[n % 16]'(Nat.mod_lt n (by decide))

/-- Round `t`'s update of the schedule window before it uses `W_t` (R139, R213): nothing for `t < 16`; otherwise entry
`t mod 16`, which holds `W_{t-16}`, becomes `W_t`. -/
def windowUpdate (w : Vector Word 16) (t : Nat) : Vector Word 16 :=
  if 16 ≤ t then
    w.set (t % 16)
      (scheduleWord (windowAt w (t - 2)) (windowAt w (t - 7)) (windowAt w (t - 15)) (windowAt w t))
      (Nat.mod_lt t (by decide))
  else w

/-- `T1` of a round (R141). -/
def roundT1 (k wt : Word) (v : Words8) : Word := v.h + bsig1 v.e + ch v.e v.f v.g + k + wt

/-- `T2` of a round (R141). -/
def roundT2 (v : Words8) : Word := bsig0 v.a + maj v.a v.b v.c

/-- `Round(t)` on the working registers, with `k` = `K[t]` and `wt` = `W_t` (R141): all right-hand sides are read before
any register is written. -/
def roundWith (k wt : Word) (v : Words8) : Words8 where
  a := roundT1 k wt v + roundT2 v
  b := v.a
  c := v.b
  d := v.c
  e := v.d + roundT1 k wt v
  f := v.e
  g := v.f
  h := v.g

/-- The first `n` rounds of a block on the schedule `ws` (R141, R144). -/
def rounds (ws : List Word) (n : Nat) (v : Words8) : Words8 :=
  (List.range n).foldl (fun v t => roundWith (roundConstant t) (ws.getD t 0) v) v

/-- `Compress(HS, blk)` on a block's 16 message words (R144). -/
def compress (hs : Words8) (w : List Word) : Words8 := hs.add (rounds (schedule w) 64 hs)

end Sys2Proof.Machine
end

