-- ==== Sys2Proof/Machine/Padding.lean ====
section
/-!
DEFINITION. The padding stage and block assembly (40_padding.md R110 to R117) and the whole hash (41_compression.md
R146), as functions on byte sequences. The engine evaluates them one block at a time (Machine/Sequencer.lean); these are
what its results are stated against.
-/

namespace Sys2Proof.Machine

/-- `nblk(n)`: the number of 64-byte blocks of a padded message of `n` bytes (R112). -/
def nblkOf (n : Nat) : Nat := (n + 8) / 64 + 1

/-- `z = (55 - n) mod 64`: the number of zero bytes of the padding (R111). -/
def zeroCount (n : Nat) : Nat := (119 - n % 64) % 64

/-- `Pad(M)` (R111). -/
def pad (m : List Byte) : List Byte :=
  m ++ [0x80] ++ List.replicate (zeroCount m.length) 0 ++ be64 (BitVec.ofNat 64 (8 * m.length))

/-- `P_M(i)`: the padded byte at index `i`, pointwise (R114). -/
def padByte (m : List Byte) (i : Nat) : Byte :=
  if i < m.length then m.getD i 0
  else if i = m.length then 0x80
  else if i < 64 * nblkOf m.length - 8 then 0x00
  else (be64 (BitVec.ofNat 64 (8 * m.length))).getD (i - (64 * nblkOf m.length - 8)) 0

/-- The 16 message words of the 64 bytes `byte 0`, …, `byte 63` (R117). -/
def packWords (byte : Nat → Byte) : List Word :=
  (List.range 16).map fun k => be32 (byte (4 * k)) (byte (4 * k + 1)) (byte (4 * k + 2)) (byte (4 * k + 3))

/-- The 16 message words of block `j` of `M` (R117). -/
def blockWords (m : List Byte) (j : Nat) : List Word := packWords fun i => padByte m (64 * j + i)

/-- The hash state after the first `n` blocks of `M` (R146). -/
def hashBlocks (m : List Byte) (n : Nat) : Words8 :=
  (List.range n).foldl (fun hs j => compress hs (blockWords m j)) iv

/-- `SHA256(M)` as the eight words of the final hash state (R146). -/
def sha256Words (m : List Byte) : Words8 := hashBlocks m (nblkOf m.length)

/-- `SHA256(M)`, 32 bytes (R145, R146). -/
def sha256 (m : List Byte) : List Byte := (sha256Words m).bytes

end Sys2Proof.Machine
end

