-- ==== Sys2Proof/Machine/Hmac.lean ====
section
/-!
DEFINITION. HMAC-SHA256 as a function on byte sequences (42_hmac.md R170 to R178).
-/

namespace Sys2Proof.Machine

/-- The inner padding byte `0x36` (R5, R173). -/
def ipadByte : Byte := 0x36

/-- The outer padding byte `0x5c` (R5, R173). -/
def opadByte : Byte := 0x5c

/-- `K0(k)`, the key normalised to 64 bytes (R171). -/
def normKey (k : List Byte) : List Byte :=
  if k.length = 64 then k
  else if 64 < k.length then sha256 k ++ List.replicate (64 - 32) 0
  else k ++ List.replicate (64 - k.length) 0

/-- A byte sequence XORed with one byte repeated (R9, R173). -/
def xorByte (b : Byte) (s : List Byte) : List Byte := s.map (· ^^^ b)

/-- `inner = SHA256((K0 XOR IPAD) || m)` (R174). -/
def hmacInner (k m : List Byte) : List Byte := sha256 (xorByte ipadByte (normKey k) ++ m)

/-- `HMAC(k, m)` as the eight words of the outer hash (R175, R176). -/
def hmacWords (k m : List Byte) : Words8 :=
  sha256Words (xorByte opadByte (normKey k) ++ hmacInner k m)

/-- `HMAC(k, m)`, 32 bytes (R176). -/
def hmac (k m : List Byte) : List Byte := (hmacWords k m).bytes

end Sys2Proof.Machine
end

