-- ==== Sys2Proof/Machine/Flags.lean ====
section
/-!
DEFINITION. The flags of `STATUS` and the interrupt line (10_state.md R25, R38, R51, 60_exceptions.md R240, R250). No
datapath operation sets a flag (R38).
-/

namespace Sys2Proof.Machine

/-- `BUSY` (R51): a command is running. -/
def busy (s : State) : Bool := decide (s.eng.phase ≠ .idle)

/-- `irq` (R51, R250). -/
def irq (s : State) : Bool := s.reg.ie && (s.reg.done || s.reg.err)

/-- An error code as the 4 bits of `ERR_CODE` (R240). -/
def ErrCode.bits : ErrCode → BitVec 4
  | .none => 0
  | .illegalCmd => 1
  | .inputTooLargeMsg => 2
  | .inputTooLargeKey => 3
  | .rangeMsg => 4
  | .rangeKey => 5
  | .busError => 6

/-- The value of `STATUS` (R25): reserved bits read 0. -/
def statusWord (s : State) : Word :=
  (0 : BitVec 20) ++ s.reg.errCode.bits ++ (0 : BitVec 4) ++ flagBit s.reg.ovr ++ flagBit s.reg.err ++
    flagBit s.reg.done ++ flagBit (busy s)

/-- The value of `CTRL` (R24): reserved bits read 0. -/
def ctrlWord (s : State) : Word := (0 : BitVec 31) ++ flagBit s.reg.ie

/-- The host-visible registers after a write of `v` to `CTRL` (R24): bit 0 is kept. -/
def writeCtrl (v : Word) (r : HostRegs) : HostRegs := { r with ie := v.getLsbD 0 }

/-- Clears the error report: `ERR`, `ERR_CODE` and `ERR_ADDR` (R25, R190, R247). -/
def clearReport (r : HostRegs) : HostRegs := { r with err := false, errCode := .none, errAddr := 0 }

/-- The host-visible registers after a write of `v` to `STATUS` (R25): a 1 clears `DONE` (bit 1), `ERR` with its code
and address (bit 2), `OVR` (bit 3); every other bit of `v` is ignored. -/
def writeStatus (v : Word) (r : HostRegs) : HostRegs :=
  let r := if v.getLsbD 1 then { r with done := false } else r
  let r := if v.getLsbD 2 then clearReport r else r
  if v.getLsbD 3 then { r with ovr := false } else r

end Sys2Proof.Machine
end

