-- ==== Sys2Proof/Machine/Memory.lean ====
section
/-!
DEFINITION. Source memory (20_memory.md): one byte read and one byte written, on the canonical list of cells.
-/

namespace Sys2Proof.Machine

/-- What an address that memory does not list reads as (DESIGN CHOICE, notes/assumptions/3.md). -/
def unlistedByte : Byte := 0x00

/-- The number of source-memory addresses (R6 `SRC_ADDR_BITS`, R53). -/
def memorySize : Nat := 2 ^ 64

/-- The byte at address `a`. -/
def Memory.read : Memory → Nat → Byte
  | [], _ => unlistedByte
  | (k, b) :: r, a => if k = a then b else Memory.read r a

/-- Memory with the byte `v` at address `a`; writing what an unlisted address reads as removes the entry. -/
def Memory.write : Memory → Nat → Byte → Memory
  | [], a, v => if v = unlistedByte then [] else [(a, v)]
  | (k, b) :: r, a, v =>
    if a < k then (if v = unlistedByte then (k, b) :: r else (a, v) :: (k, b) :: r)
    else if a = k then (if v = unlistedByte then r else (a, v) :: r)
    else (k, b) :: Memory.write r a v

/-- Every address listed is at least `lo`, the addresses rise strictly and exist, and no entry is what an unlisted
address reads as. -/
def Memory.wfFrom : Nat → Memory → Bool
  | _, [] => true
  | lo, (k, b) :: r =>
    decide (lo ≤ k) && decide (k < memorySize) && decide (b ≠ unlistedByte) && Memory.wfFrom (k + 1) r

/-- Memory is in its canonical form. -/
def Memory.wf (m : Memory) : Bool := Memory.wfFrom 0 m

end Sys2Proof.Machine
end

