-- ==== Sys2Proof/Machine/Ops.lean ====
section
/-!
DEFINITION. The shared operations: how a command starts and ends, error entry (60_exceptions.md R244), a source read
(20_memory.md R73, R80), and the host stores that precede one (R81).
-/

namespace Sys2Proof.Machine

/-- `Zeroize()` (R222). -/
def zeroize (s : State) : State := { s with eng := Engine.idle }

/-- `Complete()` (R198). -/
def complete (s : State) : State := zeroize { s with reg := { s.reg with done := true } }

/-- `raise Error(code, addr)` (R244), the only way a command ends in error; the engine's one exception entry. There is
no return from it (R247): a host clears the report by `clearReport`, through `STATUS` or the next acceptance. -/
def raiseError (code : ErrCode) (addr : Addr) (s : State) : State :=
  zeroize { s with reg := { s.reg with err := true, errCode := code, errAddr := addr } }

/-- The first line of `Accept(v)` (R190): `DONE`, `ERR`, `ERR_CODE` and `ERR_ADDR` are cleared. Stores made since the
last acceptance are from now on stores made before one (R80). -/
def acceptClear (s : State) : State :=
  { s with
    reg := { clearReport s.reg with done := false }
    unseen := s.unseen ++ s.raced
    raced := [] }

/-- `DIGEST0..7 <- v`. -/
def setDigest (v : Words8) (s : State) : State := { s with reg := { s.reg with digest := v } }

/-- `a` is one of the addresses of the range. -/
def inRange (a : Nat) (r : AddrRange) : Bool := decide (r.base ≤ a) && decide (a < r.base + r.size)

/-- `BusErr(a)` (R73). -/
def busErr (p : Platform) (a : Addr) : Bool := p.busErr.any (inRange a.toNat)

/-- The address of the register window's byte at an offset (R22). -/
def windowAddr (p : Platform) (off : Byte) : Nat := p.engineBase.toNat + off.toNat

/-- `a` lies in a device, or in the engine's own register window (R77, R78, U5): what a read of it returns is open. -/
def openByte (p : Platform) (a : Addr) : Bool :=
  p.devices.any (inRange a.toNat) || inRange a.toNat ⟨p.engineBase.toNat, 256⟩

/-- Host stores not yet part of `mem`, oldest first. -/
def pendingStores (s : State) : List Host.Cell := s.unseen ++ s.raced

/-- Some host wrote the byte at `a` since the running command's acceptance (R80 case 2). -/
def isRaced (s : State) (a : Nat) : Bool := s.raced.any fun c => decide (c.1 = a)

/-- The values the byte at `a` may have held from acceptance on (R80 case 2): the value visible at acceptance, and
every value stored since and before it that was not visible then. -/
def heldValues (s : State) (a : Nat) : List Byte :=
  s.mem.read a :: ((pendingStores s).filter fun c => decide (c.1 = a)).map Prod.snd

/-- What a source read answers (R73): a byte, with the count of free values taken, or a bus error. -/
inductive ReadResult where
  | byte (b : Byte) (draws : Nat)
  | busError
  deriving DecidableEq, Repr

/-- `MemRead(a, 1)` (R73, R80), after `d` free values have been taken. A byte of a device or of the register window, and
a byte that raced, is a free value. -/
def sourceRead (s : State) (d : Nat) (a : Addr) : ReadResult :=
  if busErr s.platform a then .busError
  else if openByte s.platform a then .byte (Config.deviceByte d) (d + 1)
  else if isRaced s a.toNat then
    .byte ((heldValues s a.toNat).getD (Config.raceDraw d % (heldValues s a.toNat).length) 0) (d + 1)
  else .byte (s.mem.read a.toNat) d

/-- Where one byte that a micro-step loads comes from. -/
inductive ByteSource where
  /-- The engine forms it itself. -/
  | const (b : Byte)
  /-- A source read at this address. -/
  | source (a : Addr)
  /-- R205 gives no such byte. -/
  | absent
  deriving DecidableEq, Repr

/-- What loading a sequence of bytes comes to. -/
inductive Fetched where
  /-- The bytes, and the count of free values taken. -/
  | bytes (bs : List Byte) (draws : Nat)
  /-- The first read that failed, and the count of free values taken before it (R243). -/
  | busError (a : Addr) (draws : Nat)
  /-- A byte R205 does not give. -/
  | absent
  deriving DecidableEq, Repr

/-- The outcome with one more byte in front. -/
def consByte (b : Byte) : Fetched → Fetched
  | .bytes bs d => .bytes (b :: bs) d
  | .busError a d => .busError a d
  | .absent => .absent

/-- Loads bytes in order, each read once, stopping at the first that fails (R74, R243). -/
def fetchBytes (s : State) : List ByteSource → Nat → Fetched
  | [], d => .bytes [] d
  | .const b :: r, d => consByte b (fetchBytes s r d)
  | .absent :: _, _ => .absent
  | .source a :: r, d =>
    match sourceRead s d a with
    | .byte b d' => consByte b (fetchBytes s r d')
    | .busError => .busError a d

/-- `MemWrite(a, 1, b)` by a host (R71, R81): the store is pending until the platform makes it visible, as the newest of
the pending stores. With the engine idle no command's acceptance divides them, so they are one list again, in the order
in which they were made. That stores are pending, and in that order, is DESIGN CHOICE, notes/assumptions/5.md. -/
def storeByte (a : Nat) (b : Byte) (s : State) : State :=
  if busy s then { s with raced := s.raced ++ [(a, b)] }
  else { s with unseen := pendingStores s ++ [(a, b)], raced := [] }

/-- What a host's own read of the byte at `a` returns is open (DESIGN CHOICE, notes/assumptions/18.md): its address is a
device, lies in the register window or is one where a source read fails, or a store to it is still pending. -/
def hostReadOpen (s : State) (a : Addr) : Bool :=
  busErr s.platform a || openByte s.platform a || (pendingStores s).any fun c => decide (c.1 = a.toNat)

/-- The byte at `a` that a host's own read of source memory returns (R20): what memory holds there, or a free value where
`hostReadOpen` holds; among the values held if only a pending store makes it open (notes/assumptions/18.md). -/
def hostRead (s : State) (a : Addr) : Byte :=
  if busErr s.platform a || openByte s.platform a then Config.hostByte s.loads
  else if hostReadOpen s a then
    (heldValues s a.toNat).getD (Config.hostDraw s.loads % (heldValues s a.toNat).length) 0
  else s.mem.read a.toNat

/-- The state after a host's own read of source memory: one more free value has been taken, if one was. -/
def noteHostRead (a : Addr) (s : State) : State :=
  { s with loads := if hostReadOpen s a then s.loads + 1 else s.loads }

/-- The platform makes the `k`-th pending store visible to the source port (R81), never before an older store to the
same byte (DESIGN CHOICE, notes/assumptions/5.md), so that the last value written to a byte is the last to
arrive. While a command runs its reads see the values visible at its acceptance (R80 case 1), so nothing changes. -/
def publishStore (k : Nat) (s : State) : State :=
  if busy s then s
  else
    match (pendingStores s)[k]? with
    | none => s
    | some (a, b) =>
      if ((pendingStores s).take k).any fun c => decide (c.1 = a) then s
      else { s with mem := s.mem.write a b, unseen := (pendingStores s).eraseIdx k, raced := [] }

/-- `rst` is driven to a level (R270, R271): while it is asserted, and at its release, the engine's state is that of
R55; a low `rst` driven low again does nothing (R21: active high). Source memory, pending stores and the hosts are
outside the engine and stay (DESIGN CHOICE, notes/assumptions/12.md). -/
def driveReset (level : Bool) (s : State) : State :=
  if level || s.rst then { s with reg := HostRegs.reset, eng := Engine.idle, rst := level } else s

end Sys2Proof.Machine
end

