-- ==== Sys2Proof/Machine/Operands.lean ====
section
/-!
DEFINITION. The operands of the commands (30_encoding.md R92, 10_state.md R45), the checks on them at acceptance
(60_exceptions.md R241, R242, R245), and the bytes the micro-steps load (43_commands.md R205, R210, R212).
-/

namespace Sys2Proof.Machine

/-- `MSG_ADDR` (R27, R92). -/
def msgAddrOf (r : HostRegs) : Addr := concatPair r.msgAddrHi r.msgAddrLo

/-- `MSG_LEN` (R28, R92). -/
def msgLenOf (r : HostRegs) : BitVec 64 := concatPair r.msgLenHi r.msgLenLo

/-- `KEY_ADDR` (R29, R92). -/
def keyAddrOf (r : HostRegs) : Addr := concatPair r.keyAddrHi r.keyAddrLo

/-- `KEY_LEN` (R30, R92). -/
def keyLenOf (r : HostRegs) : BitVec 64 := concatPair r.keyLenHi r.keyLenLo

/-- The engine with the message operands latched (R45, R195). -/
def latchMessage (s : State) : State :=
  { s with eng := { s.eng with msgAddr := msgAddrOf s.reg, msgLen := msgLenOf s.reg } }

/-- The engine with the key operands latched (R45, R196). -/
def latchKey (s : State) : State :=
  { s with eng := { s.eng with keyAddr := keyAddrOf s.reg, keyLen := keyLenOf s.reg } }

/-- `AcceptChecks(HASH)` (R245): the error raised, if any. -/
def checkHash (e : Engine) : Option ErrCode :=
  if 2 ^ 61 ≤ e.msgLen.toNat then some .inputTooLargeMsg
  else if 2 ^ 64 < e.msgAddr.toNat + e.msgLen.toNat then some .rangeMsg
  else none

/-- `AcceptChecks(HMAC)` (R245): the error raised, if any. -/
def checkHmac (e : Engine) : Option ErrCode :=
  if 2 ^ 61 ≤ e.keyLen.toNat then some .inputTooLargeKey
  else if 2 ^ 61 - 64 ≤ e.msgLen.toNat then some .inputTooLargeMsg
  else if 2 ^ 64 < e.keyAddr.toNat + e.keyLen.toNat then some .rangeKey
  else if 2 ^ 64 < e.msgAddr.toNat + e.msgLen.toNat then some .rangeMsg
  else none

/-- Message byte `i` is read at `eng.msg_addr + i` (R72). -/
def msgByte (e : Engine) (i : Nat) : ByteSource := .source (e.msgAddr + BitVec.ofNat 64 i)

/-- Key byte `i` is read at `eng.key_addr + i` (R72). -/
def keyByte (e : Engine) (i : Nat) : ByteSource := .source (e.keyAddr + BitVec.ofNat 64 i)

/-- Byte `V(i)` of the virtual message of the current pass (R205). -/
def virtualByte (e : Engine) (i : Nat) : ByteSource :=
  match e.pass with
  | .none => .absent
  | .hash => msgByte e i
  | .keyHash => keyByte e i
  | .inner => if h : i < 64 then .const (e.k0[i] ^^^ ipadByte) else msgByte e (i - 64)
  | .outer =>
    if h : i < 64 then .const (e.k0[i] ^^^ opadByte)
    else if h' : i - 64 < 32 then .const e.ihd[i - 64]
    else .absent

/-- Byte `p` of the padded stream of the current pass (R114, R212). -/
def paddedByte (e : Engine) (p : Nat) : ByteSource :=
  if p < e.vlen.toNat then virtualByte e p
  else if p = e.vlen.toNat then .const 0x80
  else if p < 64 * e.nblk.toNat - 8 then .const 0x00
  else
    match (be64 (8 * e.vlen))[p - (64 * e.nblk.toNat - 8)]? with
    | some b => .const b
    | none => .absent

/-- The 64 bytes `BLOCK_LOAD` loads (R212). -/
def blockSources (e : Engine) : List ByteSource :=
  (List.range 64).map fun i => paddedByte e (64 * e.blk.toNat + i)

/-- The 64 bytes `KEYLOAD` loads (R210): the key, right-padded with zero bytes. -/
def keySources (e : Engine) : List ByteSource :=
  (List.range 64).map fun i => if i < e.keyLen.toNat then keyByte e i else .const 0x00

end Sys2Proof.Machine
end

