-- ==== Sys2Proof/Machine/Commands.lean ====
section
/-!
DEFINITION. The meanings of the four commands at acceptance (43_commands.md R193 to R196), on the state that the first
line of `Accept` has left (R190).
-/

namespace Sys2Proof.Machine

/-- `NOP` (R193). -/
def execNop (s : State) : Host.Outcome State Fault Refusal := .next (complete s)

/-- `CLR` (R194). -/
def execClr (s : State) : Host.Outcome State Fault Refusal :=
  let s := setDigest Words8.zero s
  .next (complete { s with reg := { s.reg with ovr := false } })

/-- The engine set to start the pass `p` over `n` bytes (R195, R196). -/
def startPass (p : Pass) (n : BitVec 64) (s : State) : State :=
  { s with eng := { s.eng with pass := p, vlen := n, phase := .passInit } }

/-- `HASH` (R195), the part done at acceptance; the engine's micro-steps do the rest. -/
def execHash (s : State) : Host.Outcome State Fault Refusal :=
  let s := latchMessage (setDigest Words8.zero s)
  match checkHash s.eng with
  | some c => .next (raiseError c 0 s)
  | none => .next (startPass .hash s.eng.msgLen s)

/-- `HMAC` (R196), the part done at acceptance; the engine's micro-steps do the rest. A key of more than 64 bytes is
hashed first (R171). -/
def execHmac (s : State) : Host.Outcome State Fault Refusal :=
  let s := latchMessage (latchKey (setDigest Words8.zero s))
  match checkHmac s.eng with
  | some c => .next (raiseError c 0 s)
  | none =>
    if 64 < s.eng.keyLen.toNat then .next (startPass .keyHash s.eng.keyLen s)
    else .next { s with eng := { s.eng with phase := .keyLoad } }

end Sys2Proof.Machine
end

