-- ==== Sys2Proof/Machine/Port.lean ====
section
/-!
DEFINITION. The register port (10_state.md R22 to R35): which register an offset names, what a host's read returns and
what a host's write does, a write to `CMD` among them (43_commands.md R190 to R192, R197).
-/

namespace Sys2Proof.Machine

/-- A register of the window (R22). -/
inductive Reg where
  | id | ctrl | status | cmd
  | msgAddrLo | msgAddrHi | msgLenLo | msgLenHi
  | keyAddrLo | keyAddrHi | keyLenLo | keyLenHi
  | errAddrLo | errAddrHi
  | digest (i : Fin 8)
  deriving DecidableEq, Repr

/-- The register at an offset (R22); `none` for a reserved or unaligned offset. -/
def regAt (off : Byte) : Option Reg :=
  if off.toNat % 4 ≠ 0 then none
  else
    match off.toNat / 4 with
    | 0 => some .id
    | 1 => some .ctrl
    | 2 => some .status
    | 3 => some .cmd
    | 4 => some .msgAddrLo
    | 5 => some .msgAddrHi
    | 6 => some .msgLenLo
    | 7 => some .msgLenHi
    | 8 => some .keyAddrLo
    | 9 => some .keyAddrHi
    | 10 => some .keyLenLo
    | 11 => some .keyLenHi
    | 12 => some .errAddrLo
    | 13 => some .errAddrHi
    | 16 => some (.digest 0)
    | 17 => some (.digest 1)
    | 18 => some (.digest 2)
    | 19 => some (.digest 3)
    | 20 => some (.digest 4)
    | 21 => some (.digest 5)
    | 22 => some (.digest 6)
    | 23 => some (.digest 7)
    | _ => none

/-- The offset of a register (R22). -/
def offsetOf : Reg → Byte
  | .id => 0x00
  | .ctrl => 0x04
  | .status => 0x08
  | .cmd => 0x0C
  | .msgAddrLo => 0x10
  | .msgAddrHi => 0x14
  | .msgLenLo => 0x18
  | .msgLenHi => 0x1C
  | .keyAddrLo => 0x20
  | .keyAddrHi => 0x24
  | .keyLenLo => 0x28
  | .keyLenHi => 0x2C
  | .errAddrLo => 0x30
  | .errAddrHi => 0x34
  | .digest i => BitVec.ofNat 8 (0x40 + 4 * i.val)

/-- The value of `ID` (R23). -/
def idValue : Word := 0x53323536

/-- The value a host reads from a register (R23 to R32). -/
def readReg (s : State) : Reg → Word
  | .id => idValue
  | .ctrl => ctrlWord s
  | .status => statusWord s
  | .cmd => 0
  | .msgAddrLo => s.reg.msgAddrLo
  | .msgAddrHi => s.reg.msgAddrHi
  | .msgLenLo => s.reg.msgLenLo
  | .msgLenHi => s.reg.msgLenHi
  | .keyAddrLo => s.reg.keyAddrLo
  | .keyAddrHi => s.reg.keyAddrHi
  | .keyLenLo => s.reg.keyLenLo
  | .keyLenHi => s.reg.keyLenHi
  | .errAddrLo => loHalf s.reg.errAddr
  | .errAddrHi => hiHalf s.reg.errAddr
  | .digest i => s.reg.digest.word i.val

/-- A word written to `CMD` while the engine is idle: `Accept(v)` (R190), an illegal word raising `ILLEGAL_CMD` (R197). -/
def acceptCommand (v : Word) (s : State) : Host.Outcome State Fault Refusal :=
  match decode v with
  | .ok i => exec i (acceptClear s)
  | .error _ => .next (raiseError .illegalCmd 0 (acceptClear s))

/-- A word written to `CMD` (R190, R191): dropped, with `OVR` set and nothing decoded, while a command runs. -/
def writeCmd (v : Word) (s : State) : Host.Outcome State Fault Refusal :=
  if busy s then .next { s with reg := { s.reg with ovr := true } } else acceptCommand v s

/-- The host-visible registers after a write to a register other than `CMD` (R23 to R32). -/
def writeHostReg (r : Reg) (v : Word) (h : HostRegs) : HostRegs :=
  match r with
  | .id => h
  | .ctrl => writeCtrl v h
  | .status => writeStatus v h
  | .cmd => h
  | .msgAddrLo => { h with msgAddrLo := v }
  | .msgAddrHi => { h with msgAddrHi := v }
  | .msgLenLo => { h with msgLenLo := v }
  | .msgLenHi => { h with msgLenHi := v }
  | .keyAddrLo => { h with keyAddrLo := v }
  | .keyAddrHi => { h with keyAddrHi := v }
  | .keyLenLo => { h with keyLenLo := v }
  | .keyLenHi => { h with keyLenHi := v }
  | .errAddrLo => h
  | .errAddrHi => h
  | .digest _ => h

/-- A host's aligned 32-bit write at an offset (R33, R94). While `rst` is asserted it is ignored (R270). -/
def writePort (off : Byte) (v : Word) (s : State) : Host.Outcome State Fault Refusal :=
  if s.rst then .next s
  else
    match regAt off with
    | none => .next s
    | some .cmd => writeCmd v s
    | some r => .next { s with reg := writeHostReg r v s.reg }

/-- What a host's aligned 32-bit read at an offset returns (R33, R34): 0 at a reserved offset, and 0 while `rst` is
asserted (R270). -/
def readPort (off : Byte) (s : State) : Word :=
  if s.rst then 0
  else
    match regAt off with
    | none => 0
    | some r => readReg s r

/-- The access is of one aligned 32-bit word with every byte lane enabled (R33). -/
def isWordAccess (a : Access) : Bool :=
  decide (a.bytes = 4) && decide (a.lanes = 0b1111) && decide (a.off.toNat % 4 = 0)

/-- What any write access does (R33): nothing, unless it is of one aligned 32-bit word. -/
def writeAccess (a : Access) (s : State) : Host.Outcome State Fault Refusal :=
  if isWordAccess a then writePort a.off a.data s else .next s

/-- What any read access returns (R33): 0, unless it is of one aligned 32-bit word. -/
def readAccess (a : Access) (s : State) : Word :=
  if isWordAccess a then readPort a.off s else 0

end Sys2Proof.Machine
end

