-- ==== Sys2Proof/Machine/HostPrograms.lean ====
section
/-!
DEFINITION. Host programs (30_encoding.md R95 to R97): what one bus transaction of a host does, and the host assembly's
pseudo-instructions.
-/

namespace Sys2Proof.Machine

/-- The host `k` replaced. -/
def setMaster (k : Nat) (m : Master) (s : State) : State := { s with masters := s.masters.set k m }

/-- Host `k` with the statements `p` left to run. -/
def setProg (k : Nat) (m : Master) (p : List Stmt) (s : State) : State := setMaster k { m with prog := p } s

/-- Host `k` with the statements `p` left to run and one more result. -/
def addResult (k : Nat) (m : Master) (p : List Stmt) (name : Nat) (v : Word) (s : State) : State :=
  setMaster k { prog := p, results := m.results ++ [(name, v)] } s

/-- The next bus transaction of host `k`, whose record is `m`: the statement `st` is the first of its program and `p` the
rest (R95, R97). A `STORE` with no byte left, after its last byte or from the start, takes one turn more that is no bus
transaction and only removes the statement (DESIGN CHOICE, notes/assumptions/19.md). -/
def runStmt (k : Nat) (m : Master) (st : Stmt) (p : List Stmt) (s : State) : Host.Outcome State Fault Refusal :=
  match st with
  | .wr off v => writePort off v (setProg k m p s)
  | .rd off name => .next (addResult k m p name (readPort off s) s)
  | .poll off mask value =>
    if readPort off s &&& mask = value then .next (setProg k m p s) else .next s
  | .store _ [] => .next (setProg k m p s)
  | .store a (b :: bs) =>
    if a < memorySize then .next (storeByte a b (setProg k m (.store (a + 1) bs :: p) s))
    else .fault .storeOutsideMemory
  | .access a name =>
    if a.write then writeAccess a (setProg k m p s)
    else .next (addResult k m p name (readAccess a s) s)
  | .load a name => .next (addResult k m p name ((hostRead s a).setWidth 32) (noteHostRead a s))

/-- Host `k`'s turn: its next bus transaction, or nothing when there is no such host or its program has ended. -/
def hostTurn (k : Nat) (s : State) : Host.Outcome State Fault Refusal :=
  match s.masters[k]? with
  | none => .next s
  | some m =>
    match m.prog with
    | [] => .next s
    | st :: p => runStmt k m st p s

/-- `WR reg, imm32` (R95). -/
def wrReg (r : Reg) (v : Word) : Stmt := .wr (offsetOf r) v

/-- `RD reg -> name` (R95). -/
def rdReg (r : Reg) (name : Nat) : Stmt := .rd (offsetOf r) name

/-- `CMD mnemonic` (R95): a write of its command word to `CMD`. -/
def cmdStmt (i : Instr) : Stmt := wrReg .cmd (encode i)

/-- `SETMSG addr64, len64` (R96). -/
def setMsg (addr len : BitVec 64) : List Stmt :=
  [wrReg .msgAddrLo (loHalf addr), wrReg .msgAddrHi (hiHalf addr), wrReg .msgLenLo (loHalf len),
    wrReg .msgLenHi (hiHalf len)]

/-- `SETKEY addr64, len64` (R96). -/
def setKey (addr len : BitVec 64) : List Stmt :=
  [wrReg .keyAddrLo (loHalf addr), wrReg .keyAddrHi (hiHalf addr), wrReg .keyLenLo (loHalf len),
    wrReg .keyLenHi (hiHalf len)]

/-- `WAIT` (R96): poll until `BUSY` = 0. -/
def waitIdle : List Stmt := [.poll (offsetOf .status) 0x00000001 0x00000000]

/-- `ACK` (R96): clear `DONE`, `ERR` and `OVR`. -/
def ackStatus : List Stmt := [wrReg .status 0x0000000E]

/-- `GETDIGEST -> d` (R96): the eight words under the names `d`, …, `d + 7`. -/
def getDigest (d : Nat) : List Stmt :=
  [rdReg (.digest 0) d, rdReg (.digest 1) (d + 1), rdReg (.digest 2) (d + 2), rdReg (.digest 3) (d + 3),
    rdReg (.digest 4) (d + 4), rdReg (.digest 5) (d + 5), rdReg (.digest 6) (d + 6), rdReg (.digest 7) (d + 7)]

end Sys2Proof.Machine
end

