-- ==== Sys2Proof/Machine/Sequencer.lean ====
section
/-!
DEFINITION. The micro-steps of the engine (43_commands.md R210 to R216): one enabled step in every phase but `IDLE`
(R50).
-/

namespace Sys2Proof.Machine

/-- The pass `INNER` set up over `64 + eng.msg_len` bytes (R210, R216), with `K0` = `k0`. -/
def startInner (k0 : Vector Byte 64) (e : Engine) : Engine :=
  { e with k0 := k0, pass := .inner, vlen := 64 + e.msgLen, phase := .passInit }

/-- `KEYLOAD` (R210). -/
def stepKeyLoad (s : State) : Host.Outcome State Fault Refusal :=
  match fetchBytes s (keySources s.eng) s.draws with
  | .bytes bs d => .next { s with draws := d, eng := startInner (bytesOfList 64 bs) s.eng }
  | .busError a d => .next (raiseError .busError a { s with draws := d })
  | .absent => .fault .noVirtualByte

/-- `PASS_INIT` (R211). -/
def stepPassInit (s : State) : State :=
  { s with
    eng := { s.eng with hs := iv, nblk := (s.eng.vlen + 8) / 64 + 1, blk := 0, phase := .blockLoad } }

/-- The schedule window holding the 16 words of 64 bytes (R117, R212). -/
def loadWindow (bs : List Byte) : Vector Word 16 :=
  Vector.ofFn fun k => (packWords fun i => bs.getD i 0).getD k 0

/-- `BLOCK_LOAD` (R212). -/
def stepBlockLoad (s : State) : Host.Outcome State Fault Refusal :=
  match fetchBytes s (blockSources s.eng) s.draws with
  | .bytes bs d =>
    .next
      { s with
        draws := d
        eng := { s.eng with w := loadWindow bs, work := s.eng.hs, t := 0, phase := .round } }
  | .busError a d => .next (raiseError .busError a { s with draws := d })
  | .absent => .fault .noVirtualByte

/-- The datapath of one `ROUND` (R213). -/
def roundDatapath (e : Engine) : Engine :=
  let w := windowUpdate e.w e.t.toNat
  { e with w := w, work := roundWith (roundConstant e.t.toNat) (windowAt w e.t.toNat) e.work }

/-- The sequencing of one `ROUND` (R214). -/
def roundSequence (e : Engine) : Engine :=
  if e.t.toNat < 63 then { e with t := e.t + 1, phase := .round } else { e with t := 0, phase := .update }

/-- `ROUND` (R213, R214). -/
def stepRound (s : State) : State := { s with eng := roundSequence (roundDatapath s.eng) }

/-- `UPDATE` (R215). -/
def stepUpdate (s : State) : State :=
  let e := { s.eng with hs := s.eng.hs.add s.eng.work }
  { s with
    eng :=
      if e.blk.toNat + 1 < e.nblk.toNat then { e with blk := e.blk + 1, phase := .blockLoad }
      else { e with phase := .passEnd } }

/-- `PASS_END` (R216). -/
def stepPassEnd (s : State) : Host.Outcome State Fault Refusal :=
  match s.eng.pass with
  | .hash => .next (complete (setDigest s.eng.hs s))
  | .keyHash => .next { s with eng := startInner (bytesOfList 64 s.eng.hs.bytes) s.eng }
  | .inner =>
    .next
      { s with
        eng := { s.eng with ihd := bytesOfList 32 s.eng.hs.bytes, pass := .outer, vlen := 96, phase := .passInit } }
  | .outer => .next (complete (setDigest s.eng.hs s))
  | .none => .fault .noPass

/-- The engine's turn (R50): its one enabled micro-step, or nothing when it is idle. -/
def microStep (s : State) : Host.Outcome State Fault Refusal :=
  match s.eng.phase with
  | .idle => .next s
  | .keyLoad => stepKeyLoad s
  | .passInit => .next (stepPassInit s)
  | .blockLoad => stepBlockLoad s
  | .round => .next (stepRound s)
  | .update => .next (stepUpdate s)
  | .passEnd => stepPassEnd s

end Sys2Proof.Machine
end

