-- ==== Sys2Proof/Machine/Turns.lean ====
section
/-!
DEFINITION. The agents' turns (10_state.md R20, R35, 70_reset_and_hazards.md R283): whose turn it is, what a turn does, and
how a command word is placed where the next step takes it.
-/

namespace Sys2Proof.Machine

/-- The first host from `k` on that has a statement to run, if any. -/
def firstReady : Nat → List Master → Option Nat
  | _, [] => none
  | k, m :: r => if m.prog.isEmpty then firstReady (k + 1) r else some k

/-- Whose turn it is when nothing more is decided (DESIGN CHOICE, notes/assumptions/6.md): a running engine goes on, then
pending stores become visible, oldest first, then the first host with a statement runs it. -/
def defaultTurn (s : State) : Turn :=
  if busy s then .engine
  else if (pendingStores s).isEmpty then
    match firstReady 0 s.masters with
    | some k => .host k
    | none => .engine
  else .publish 0

/-- Whose turn it is. -/
def nextTurn (s : State) : Turn :=
  match s.sched with
  | t :: _ => t
  | [] => defaultTurn s

/-- The state with the turn about to be taken used up. -/
def popTurn (s : State) : State := { s with sched := s.sched.tail }

/-- The engine's turn: its enabled micro-step (R50); nothing while `rst` is asserted (R270). -/
def engineTurn (s : State) : Host.Outcome State Fault Refusal := if s.rst then .next s else microStep s

/-- One turn of one agent (R20, R35). -/
def takeTurn (t : Turn) (s : State) : Host.Outcome State Fault Refusal :=
  match t with
  | .engine => engineTurn s
  | .host k => hostTurn k s
  | .publish k => .next (publishStore k s)
  | .reset level => .next (driveReset level s)

/-- The hosts with one statement put before the first host's program; a first host is made if there is none. -/
def placeStmt (st : Stmt) : List Master → List Master
  | [] => [⟨[st], []⟩]
  | m :: r => { m with prog := st :: m.prog } :: r

/-- The state in which the first host's next bus transaction is the write of `v` to `CMD`, and is the next turn. -/
def placeCommand (v : Word) (s : State) : State :=
  { s with masters := placeStmt (wrReg .cmd v) s.masters, sched := .host 0 :: s.sched }

end Sys2Proof.Machine
end

