-- ==== Sys2Proof/Machine/Step.lean ====
section
/-!
DEFINITION. One step of the machine: one turn of one agent.
-/

namespace Sys2Proof.Machine

/-- One step: the agent whose turn it is takes it. -/
def step (s : State) : Host.Outcome State Fault Refusal :=
  Sys2Proof.Machine.takeTurn (Sys2Proof.Machine.nextTurn s) (Sys2Proof.Machine.popTurn s)

/-- `s` with the low `nbits` bits of `w` as the next command word that reaches the engine: the first host's next bus
transaction, taken in the next step. The engine fetches nothing (R37); a command comes from a host's `CMD` write. -/
def State.withFetchWord (s : State) (nbits w : Nat) : State :=
  Sys2Proof.Machine.placeCommand (BitVec.ofNat 32 (w % 2 ^ nbits)) s

end Sys2Proof.Machine
end

