-- ==== Sys2Proof/Safety.lean ====
section
/-!
DEFINITION. What the statements about the machine are made of: the invariant of every reachable state (10_state.md R54
and what the sequencer's rules add to it), what a step leaves unchanged, and the byte sequences in source memory that the
results are stated against.
-/

namespace Sys2Proof.Machine

/-- R54.1: while a command runs, nothing is reported and no result is visible. -/
def runningReportsNothing (s : State) : Prop :=
  busy s = true →
    s.reg.done = false ∧ s.reg.err = false ∧ s.reg.errCode = .none ∧ s.reg.errAddr = 0 ∧ s.reg.digest = Words8.zero

/-- R54.2: `ERR` = 0 if and only if `ERR_CODE` = 0. -/
def errHasCode (s : State) : Prop := s.reg.err = false ↔ s.reg.errCode = .none

/-- R54.3: `DONE` = 1 and `ERR` = 1 never hold together. -/
def oneOutcome (s : State) : Prop := ¬(s.reg.done = true ∧ s.reg.err = true)

/-- R54.4: `ERR_ADDR` ≠ 0 implies `ERR_CODE` = `BUS_ERROR`. -/
def errAddrIsBusError (s : State) : Prop := s.reg.errAddr ≠ 0 → s.reg.errCode = .busError

/-- R54.5, R49: an idle engine holds no internal state. -/
def idleIsZero (s : State) : Prop := s.eng.phase = .idle → s.eng = Engine.idle

/-- The phases between `PASS_INIT` and `PASS_END`. -/
def inBlock (p : Phase) : Prop := p = .blockLoad ∨ p = .round ∨ p = .update

/-- R54.6, R46: a block is processed only inside a pass, and is one of the pass's blocks. -/
def blockOfPass (s : State) : Prop := inBlock s.eng.phase → s.eng.blk.toNat < s.eng.nblk.toNat ∧ s.eng.pass ≠ .none

/-- The six invariants of R54. -/
def SpecInv (s : State) : Prop :=
  runningReportsNothing s ∧ errHasCode s ∧ oneOutcome s ∧ errAddrIsBusError s ∧ idleIsZero s ∧ blockOfPass s

/-- R47: `eng.pass` is `NONE` exactly in `IDLE` and `KEYLOAD`. -/
def passNamed (e : Engine) : Prop := e.pass = .none ↔ e.phase = .idle ∨ e.phase = .keyLoad

/-- The byte length of the virtual message of the current pass (R205). -/
def virtualLength (e : Engine) : Nat :=
  match e.pass with
  | .none => 0
  | .hash => e.msgLen.toNat
  | .keyHash => e.keyLen.toNat
  | .inner => 64 + e.msgLen.toNat
  | .outer => 96

/-- What the acceptance checks have established of the latched operands (R241, R242). -/
def operandsChecked (e : Engine) : Prop :=
  e.msgLen.toNat < 2 ^ 61 ∧ e.keyLen.toNat < 2 ^ 61 ∧ (e.pass ≠ .hash → e.msgLen.toNat < 2 ^ 61 - 64) ∧
    e.msgAddr.toNat + e.msgLen.toNat ≤ 2 ^ 64 ∧ e.keyAddr.toNat + e.keyLen.toNat ≤ 2 ^ 64 ∧
    (e.phase = .keyLoad → e.keyLen.toNat ≤ 64)

/-- The pass registers stand as R46, R112, R205 and R214 say. -/
def passRegisters (e : Engine) : Prop :=
  e.vlen.toNat = virtualLength e ∧
    (inBlock e.phase ∨ e.phase = .passEnd → e.nblk.toNat = nblkOf e.vlen.toNat) ∧
    (e.phase = .passEnd → e.blk.toNat + 1 = e.nblk.toNat) ∧ (e.phase ≠ .round → e.t = 0)

/-- Source memory is canonical, and every pending store is to an address that exists (R53). -/
def memorySound (s : State) : Prop := s.mem.wf = true ∧ ∀ c ∈ pendingStores s, c.1 < memorySize

/-- While `rst` is asserted the engine's state is that of reset (R270). -/
def resetHeld (s : State) : Prop := s.rst = true → s.reg = HostRegs.reset ∧ s.eng = Engine.idle

/-- The invariant of the machine: R54, R47, R46, R241, R242, R270 and the canonical form of memory. -/
def State.Inv (s : State) : Prop :=
  SpecInv s ∧ passNamed s.eng ∧ operandsChecked s.eng ∧ passRegisters s.eng ∧ memorySound s ∧ resetHeld s

/-- Every byte of source memory reads as before. -/
def MemoryKept (s t : State) : Prop := ∀ a, t.mem.read a = s.mem.read a

/-- Nothing outside the engine has changed: source memory and the stores on their way to it, `rst`, the platform, the
hosts, and the turns to come; no free value was taken, by the engine or by a host. -/
def AroundKept (s t : State) : Prop :=
  MemoryKept s t ∧ t.unseen = s.unseen ∧ t.raced = s.raced ∧ t.rst = s.rst ∧ t.platform = s.platform ∧
    t.draws = s.draws ∧ t.loads = s.loads ∧ t.masters = s.masters ∧ t.sched = s.sched

/-- A source read of the byte at `a` returns the byte memory holds there (R73, R80 case 1): its address does not fail,
is no device and not in the register window, and no host has written it since acceptance. -/
def QuietByte (s : State) (a : Addr) : Prop :=
  busErr s.platform a = false ∧ openByte s.platform a = false ∧ isRaced s a.toNat = false

/-- Every one of the `n` bytes from address `a` on is quiet. -/
def QuietRange (s : State) (a n : BitVec 64) : Prop :=
  ∀ i, i < n.toNat → QuietByte s (a + BitVec.ofNat 64 i)

/-- The bytes `mem[a .. a + n)` (R28, R72). -/
def memBytes (m : Memory) (a n : Nat) : List Byte := (List.range n).map fun i => m.read (a + i)

/-- The message of the latched operands (R72). -/
def messageBytes (s : State) : List Byte := memBytes s.mem s.eng.msgAddr.toNat s.eng.msgLen.toNat

/-- The key of the latched operands (R72). -/
def keyBytes (s : State) : List Byte := memBytes s.mem s.eng.keyAddr.toNat s.eng.keyLen.toNat

/-- The virtual message of the current pass (R205), when every source read is quiet. -/
def virtualMessage (s : State) : List Byte :=
  match s.eng.pass with
  | .none => []
  | .hash => messageBytes s
  | .keyHash => keyBytes s
  | .inner => xorByte ipadByte s.eng.k0.toList ++ messageBytes s
  | .outer => xorByte opadByte s.eng.k0.toList ++ s.eng.ihd.toList

/-- The next turn is host `k`'s, whose record is `m`, and its next bus transaction is `st`; `p` is the rest of its
program. -/
def StmtNext (s : State) (k : Nat) (m : Master) (st : Stmt) (p : List Stmt) : Prop :=
  nextTurn s = .host k ∧ s.masters[k]? = some m ∧ m.prog = st :: p

/-- The next turn is host `k`'s, and its next bus transaction is the write of `v` to `CMD` (R95). -/
def CommandNext (s : State) (k : Nat) (m : Master) (v : Word) (p : List Stmt) : Prop :=
  StmtNext s k m (wrReg .cmd v) p

/-- After host `k`'s transaction: the turn is used up, the host goes on with `p` and has the results `rs`, every other
host is as before, and source memory, the stores on their way to it, `rst`, the platform and the free values taken are
as before. -/
def HostMoved (s t : State) (k : Nat) (p : List Stmt) (rs : List (Nat × Word)) : Prop :=
  t.masters = s.masters.set k ⟨p, rs⟩ ∧ t.sched = s.sched.tail ∧ MemoryKept s t ∧
    pendingStores t = pendingStores s ∧ t.rst = s.rst ∧ t.platform = s.platform ∧ t.draws = s.draws ∧
    t.loads = s.loads

/-- The last value written to the byte at `a` (R80), whether or not the platform has made it visible yet: the newest
pending store's, or what memory holds when none is pending. -/
def lastWritten (s : State) (a : Nat) : Byte :=
  (((pendingStores s).filter fun c => decide (c.1 = a)).map Prod.snd).getLastD (s.mem.read a)

/-- The engine's most micro-steps for a command (R217), from the operands a host has written. -/
def commandSteps (i : Instr) (r : HostRegs) : Nat :=
  match i with
  | .nop => 0
  | .clr => 0
  | .hash => 2 + 66 * nblkOf (msgLenOf r).toNat
  | .hmac =>
    if (keyLenOf r).toNat ≤ 64 then 137 + 66 * nblkOf (64 + (msgLenOf r).toNat)
    else 138 + 66 * nblkOf (keyLenOf r).toNat + 66 * nblkOf (64 + (msgLenOf r).toNat)

/-- `n` steps of the machine, stopping at the first that is no next state. -/
def runSteps : Nat → State → Host.Outcome State Fault Refusal
  | 0, s => .next s
  | n + 1, s =>
    match step s with
    | .next t => runSteps n t
    | .fault f => .fault f
    | .refused r => .refused r

/-- The schedule window just before round `n` updates it, from the 16 message words (R139, R140). -/
def windowBefore (w : Vector Word 16) (n : Nat) : Vector Word 16 := (List.range n).foldl windowUpdate w

/-- The source addresses read in loading these bytes, in order. -/
def readAddrs (l : List ByteSource) : List Addr :=
  l.filterMap fun x =>
    match x with
    | .source a => some a
    | .const _ => none
    | .absent => none

/-- The source addresses read by the `BLOCK_LOAD`s of a pass, in order, when none of them fails (R74). -/
def passReads (e : Engine) : List Addr :=
  (List.range e.nblk.toNat).flatMap fun j => readAddrs (blockSources { e with blk := BitVec.ofNat 64 j })

/-- The addresses `a`, `a + 1`, …, `a + n - 1`. -/
def addrsFrom (a n : BitVec 64) : List Addr := (List.range n.toNat).map fun i => a + BitVec.ofNat 64 i

/-- What decides the next phase (R218): the sequencer's registers, the latched operands and the platform. -/
def SameControl (s t : State) : Prop :=
  s.platform = t.platform ∧ s.rst = t.rst ∧ s.eng.phase = t.eng.phase ∧ s.eng.pass = t.eng.pass ∧
    s.eng.t = t.eng.t ∧ s.eng.blk = t.eng.blk ∧ s.eng.nblk = t.eng.nblk ∧ s.eng.vlen = t.eng.vlen ∧
    s.eng.msgAddr = t.eng.msgAddr ∧ s.eng.msgLen = t.eng.msgLen ∧ s.eng.keyAddr = t.eng.keyAddr ∧
    s.eng.keyLen = t.eng.keyLen

end Sys2Proof.Machine
end

