-- ==== Sys2Proof/Certificates/Slice0/Obligations.lean ====
section
/-!
DEFINITION. The statements about the engine. Each docstring names the rules of spec/ it formalises; OBLIGATIONS.json lists
them.
-/

open Sys2Proof Sys2Proof.Machine

/-- R55: after reset, on every platform, every piece of the engine's state has the value in R55's table. -/
def Obligations.ResetLeavesTheTabledValues : Prop :=
  ∀ p : Platform,
    let s := State.resetOn p
    (readPort 0x00 s = 0x53323536 ∧ readPort 0x04 s = 0 ∧ readPort 0x08 s = 0) ∧
    (s.reg.ie = false ∧ busy s = false ∧ s.reg.done = false ∧ s.reg.err = false ∧ s.reg.ovr = false ∧
      s.reg.errCode = .none) ∧
    (msgAddrOf s.reg = 0 ∧ msgLenOf s.reg = 0 ∧ keyAddrOf s.reg = 0 ∧ keyLenOf s.reg = 0 ∧ s.reg.errAddr = 0) ∧
    (∀ i, i < 8 → s.reg.digest.word i = 0 ∧ s.eng.hs.word i = 0 ∧ s.eng.work.word i = 0) ∧
    (∀ i (h : i < 16), s.eng.w[i] = 0) ∧ (∀ i (h : i < 64), s.eng.k0[i] = 0) ∧ (∀ i (h : i < 32), s.eng.ihd[i] = 0) ∧
    (s.eng.msgAddr = 0 ∧ s.eng.msgLen = 0 ∧ s.eng.keyAddr = 0 ∧ s.eng.keyLen = 0) ∧
    (s.eng.vlen = 0 ∧ s.eng.nblk = 0 ∧ s.eng.blk = 0 ∧ s.eng.t = 0) ∧
    s.eng.pass = .none ∧ s.eng.phase = .idle ∧ irq s = false

/-- R270, R271, R21: asserting `rst` at any moment, a running command's among them, and releasing it give the engine the
reset state; while it is asserted reads return 0, writes are ignored and the engine does nothing. The model's choice
(DESIGN CHOICE, notes/assumptions/12.md, unsafe): memory, pending stores, hosts, free values and the turns to come stay over
a reset, and a low `rst` driven low again changes no register and no internal state. -/
def Obligations.AssertedResetWinsAtAnyMoment : Prop :=
  ∀ (s : State) (level : Bool), nextTurn s = .reset level →
    ∃ t, step s = .next t ∧ t.rst = level ∧
      (level = true ∨ s.rst = true →
        t.reg = (State.resetOn s.platform).reg ∧ t.eng = (State.resetOn s.platform).eng) ∧
      (level = false → s.rst = false → t.reg = s.reg ∧ t.eng = s.eng) ∧
      MemoryKept s t ∧ pendingStores t = pendingStores s ∧ t.platform = s.platform ∧ t.draws = s.draws ∧
      t.loads = s.loads ∧ t.masters = s.masters ∧ t.sched = s.sched.tail ∧
      (level = true →
        (∀ off, readPort off t = 0) ∧ (∀ off v, writePort off v t = .next t) ∧ engineTurn t = .next t)

/-- The reset state meets the invariant, on every platform (R54, R55). -/
def Obligations.ResetMeetsTheInvariant : Prop := ∀ p : Platform, (State.resetOn p).Inv

/-- Every step keeps the invariant: the six invariants of R54, the pass names of R47, the bounds of R46, R241 and R242,
and the canonical form of memory, whatever the agents do. -/
def Obligations.EveryStepKeepsTheInvariant : Prop :=
  ∀ s t : State, s.Inv → step s = .next t → t.Inv

/-- From a state that meets the invariant the machine always goes on, but for a host's `STORE` to an address that does
not exist: no engine micro-step faults, and nothing is refused. -/
def Obligations.OnlyStoresOutsideMemoryStop : Prop :=
  ∀ s : State, s.Inv →
    (∃ t, step s = .next t) ∨
      (step s = .fault .storeOutsideMemory ∧
        ∃ k m a b bs p, StmtNext s k m (.store a (b :: bs)) p ∧ memorySize ≤ a)

/-- R91, R93 on a few words: the four command words, and an illegal word for each way of being illegal. -/
def Obligations.CommandWordsDecodeAsTabled : Prop :=
  decode 0x00000000 = .ok .nop ∧ decode 0x00000001 = .ok .hash ∧ decode 0x00000002 = .ok .hmac ∧
    decode 0x00000003 = .ok .clr ∧ decode 0x00000004 = .error .illegalOpcode ∧
    decode 0x000000FF = .error .illegalOpcode ∧ decode 0x00000100 = .error .reservedBits ∧
    decode 0x80000001 = .error .reservedBits

/-- R192, R91, R93: over all 32-bit words, decoding accepts exactly the four encodings, inverts the encoder, and rejects
every word with `RSVD` ≠ 0 or `OP` in `0x04 .. 0xFF`. -/
def Obligations.DecodingAcceptsExactlyTheFourWords : Prop :=
  (∀ (v : Word) (i : Instr), decode v = .ok i ↔ v = encode i) ∧
    (encode .nop = 0x00000000 ∧ encode .hash = 0x00000001 ∧ encode .hmac = 0x00000002 ∧ encode .clr = 0x00000003) ∧
    (∀ v : Word, (∃ e, decode v = .error e) ↔ v.extractLsb' 8 24 ≠ 0 ∨ 4 ≤ (v.extractLsb' 0 8).toNat)

/-- R190, R95, R33: when a host's next transaction writes a word to `CMD` of an idle engine and the word decodes to a
well-formed command, the step clears `DONE`, `ERR`, `ERR_CODE` and `ERR_ADDR` and is that command's meaning; and when it is
a `WR` at any offset, the step is the register port's write there, in the state in which the host has gone on. -/
def Obligations.StepRunsTheDecodedCommand : Prop :=
  (∀ (s : State) (k : Nat) (m : Master) (p : List Stmt) (v : Word) (i : Instr),
    CommandNext s k m v p → s.rst = false → busy s = false → decode v = .ok i → i.wellFormed = true →
      ∃ t, step s = exec i t ∧
        t.reg = { s.reg with done := false, err := false, errCode := .none, errAddr := 0 } ∧ t.eng = s.eng ∧
        HostMoved s t k p m.results ∧ t.raced = []) ∧
    ∀ (s : State) (k : Nat) (m : Master) (p : List Stmt) (off : Byte) (v : Word),
      StmtNext s k m (.wr off v) p →
        step s = writePort off v { s with masters := s.masters.set k ⟨p, m.results⟩, sched := s.sched.tail }

/-- R197, R93, R190: an illegal word written to `CMD` of an idle engine ends at once with `ERR` = 1 and
`ERR_CODE` = `ILLEGAL_CMD`; `DIGEST0..7` and the other registers are unchanged. -/
def Obligations.IllegalWordRaisesIllegalCmd : Prop :=
  ∀ (s : State) (k : Nat) (m : Master) (p : List Stmt) (v : Word),
    CommandNext s k m v p → s.rst = false → busy s = false →
    v.extractLsb' 8 24 ≠ 0 ∨ 4 ≤ (v.extractLsb' 0 8).toNat →
      ∃ t, step s = .next t ∧
        t.reg = { s.reg with done := false, err := true, errCode := .illegalCmd, errAddr := 0 } ∧
        t.eng = Engine.idle ∧ HostMoved s t k p m.results ∧
        statusWord t = if s.reg.ovr then 0x0000010C else 0x00000104

/-- R191: any word written to `CMD` while a command runs is dropped; the only effect is `OVR` = 1. -/
def Obligations.CommandWriteWhileBusyIsDropped : Prop :=
  ∀ (s : State) (k : Nat) (m : Master) (p : List Stmt) (v : Word),
    CommandNext s k m v p → s.rst = false → busy s = true →
      ∃ t, step s = .next t ∧ t.reg = { s.reg with ovr := true } ∧ t.eng = s.eng ∧
        t.raced = s.raced ∧ t.unseen = s.unseen ∧ HostMoved s t k p m.results

/-- R193, R198, R222: `NOP` sets `DONE` and leaves the engine idle with no internal state; `DIGEST0..7`, `OVR`, `CTRL` and
the operand registers are unchanged, and nothing outside the engine changes. -/
def Obligations.NopSetsDoneOnly : Prop :=
  ∀ s : State, ∃ t, exec .nop s = .next t ∧ t.reg = { s.reg with done := true } ∧ t.eng = Engine.idle ∧
    AroundKept s t ∧
    (s.reg.err = false → s.reg.errCode = .none →
      statusWord t = if s.reg.ovr then 0x0000000A else 0x00000002)

/-- R194, R198, R222: `CLR` clears `DIGEST0..7` and `OVR`, sets `DONE` and leaves the engine idle with no internal state;
`CTRL` and the operand registers are unchanged, and nothing outside the engine changes. -/
def Obligations.ClrClearsResultAndOverrun : Prop :=
  ∀ s : State, ∃ t, exec .clr s = .next t ∧
    t.reg = { s.reg with done := true, ovr := false, digest := Words8.zero } ∧ t.eng = Engine.idle ∧
    AroundKept s t ∧ (s.reg.err = false → s.reg.errCode = .none → statusWord t = 0x00000002)

/-- R195, R92: `HASH` with operands that pass its checks latches them, clears `DIGEST0..7` and starts the pass `HASH` over
`MSG_LEN` bytes; nothing else changes, in the engine or outside it. -/
def Obligations.HashStartsItsPass : Prop :=
  ∀ s : State, (msgLenOf s.reg).toNat < 2 ^ 61 → (msgAddrOf s.reg).toNat + (msgLenOf s.reg).toNat ≤ 2 ^ 64 →
    ∃ t, exec .hash s = .next t ∧ t.reg = { s.reg with digest := Words8.zero } ∧
      t.eng =
        { s.eng with
          msgAddr := msgAddrOf s.reg, msgLen := msgLenOf s.reg
          pass := .hash, vlen := msgLenOf s.reg, phase := .passInit } ∧
      AroundKept s t

/-- R196, R92, R171: `HMAC` with operands that pass its checks latches them, clears `DIGEST0..7` and goes on with `KEYLOAD`
for a key of 64 bytes or fewer, with the pass `KEYHASH` for a longer one; nothing else changes. -/
def Obligations.HmacStartsWithItsKey : Prop :=
  ∀ s : State, (keyLenOf s.reg).toNat < 2 ^ 61 → (msgLenOf s.reg).toNat < 2 ^ 61 - 64 →
    (keyAddrOf s.reg).toNat + (keyLenOf s.reg).toNat ≤ 2 ^ 64 →
    (msgAddrOf s.reg).toNat + (msgLenOf s.reg).toNat ≤ 2 ^ 64 →
    ∃ t, exec .hmac s = .next t ∧ t.reg = { s.reg with digest := Words8.zero } ∧ AroundKept s t ∧
      t.eng =
        if (keyLenOf s.reg).toNat ≤ 64 then
          { s.eng with
            msgAddr := msgAddrOf s.reg, msgLen := msgLenOf s.reg
            keyAddr := keyAddrOf s.reg, keyLen := keyLenOf s.reg, phase := .keyLoad }
        else
          { s.eng with
            msgAddr := msgAddrOf s.reg, msgLen := msgLenOf s.reg
            keyAddr := keyAddrOf s.reg, keyLen := keyLenOf s.reg
            pass := .keyHash, vlen := keyLenOf s.reg, phase := .passInit }

/-- R241, R242, R244, R245: when a check fails, `HASH` and `HMAC` end at once with the first condition that holds in R245's
order as `ERR_CODE`, `ERR_ADDR` = 0, `DIGEST0..7` = 0, no internal state, and nothing else changed; when none fails, no
error is raised, the command runs, and no address of its ranges wraps. -/
def Obligations.FailedChecksRaiseTheFirstError : Prop :=
  ∀ s : State,
    let ml := (msgLenOf s.reg).toNat
    let kl := (keyLenOf s.reg).toNat
    let msgOut := 2 ^ 64 < (msgAddrOf s.reg).toNat + ml
    let keyOut := 2 ^ 64 < (keyAddrOf s.reg).toNat + kl
    (2 ^ 61 ≤ ml ∨ msgOut →
      ∃ t, exec .hash s = .next t ∧ t.eng = Engine.idle ∧ AroundKept s t ∧
        t.reg =
          { s.reg with
            digest := Words8.zero, err := true, errAddr := 0
            errCode := if 2 ^ 61 ≤ ml then .inputTooLargeMsg else .rangeMsg }) ∧
    (2 ^ 61 ≤ kl ∨ 2 ^ 61 - 64 ≤ ml ∨ keyOut ∨ msgOut →
      ∃ t, exec .hmac s = .next t ∧ t.eng = Engine.idle ∧ AroundKept s t ∧
        t.reg =
          { s.reg with
            digest := Words8.zero, err := true, errAddr := 0
            errCode :=
              if 2 ^ 61 ≤ kl then .inputTooLargeKey
              else if 2 ^ 61 - 64 ≤ ml then .inputTooLargeMsg
              else if keyOut then .rangeKey
              else .rangeMsg }) ∧
    (ml < 2 ^ 61 → ¬msgOut →
      (∃ t, exec .hash s = .next t ∧ busy t = true ∧ t.reg.err = s.reg.err ∧ t.reg.errCode = s.reg.errCode) ∧
        ∀ i, i < ml → (msgAddrOf s.reg + BitVec.ofNat 64 i).toNat = (msgAddrOf s.reg).toNat + i) ∧
    (kl < 2 ^ 61 → ml < 2 ^ 61 - 64 → ¬keyOut → ¬msgOut →
      (∃ t, exec .hmac s = .next t ∧ busy t = true ∧ t.reg.err = s.reg.err ∧ t.reg.errCode = s.reg.errCode) ∧
        (∀ i, i < kl → (keyAddrOf s.reg + BitVec.ofNat 64 i).toNat = (keyAddrOf s.reg).toNat + i) ∧
        ∀ i, i < ml → (msgAddrOf s.reg + BitVec.ofNat 64 i).toNat = (msgAddrOf s.reg).toNat + i)

/-- R23: `ID` reads `0x53323536` in every state (while `rst` is not asserted), also after any write to it, which changes
nothing. -/
def Obligations.IdIsConstant : Prop :=
  ∀ (s : State) (v : Word), s.rst = false →
    readPort 0x00 s = 0x53323536 ∧ ∃ t, writePort 0x00 v s = .next t ∧ t = s ∧ readPort 0x00 t = 0x53323536

/-- R24: `CTRL` is 0 after reset; a write to it keeps bit 0 as `IE`, bits 31:1 read 0, and it takes effect at once, also
while the engine is busy: `irq` follows `DONE` and `ERR` or is 0; nothing else changes. -/
def Obligations.CtrlKeepsInterruptEnableOnly : Prop :=
  ∀ (s : State) (v : Word), s.rst = false →
    readPort 0x04 (State.resetOn s.platform) = 0x00000000 ∧
      ∃ t, writePort 0x04 v s = .next t ∧ readPort 0x04 t = v &&& 0x00000001 ∧
        (irq t = true ↔ v.getLsbD 0 = true ∧ (s.reg.done = true ∨ s.reg.err = true)) ∧
        t.reg = { s.reg with ie := v.getLsbD 0 } ∧ t.eng = s.eng ∧ AroundKept s t

/-- R25, R240: what a read of `STATUS` returns, bit by bit, with each error code's number. -/
def Obligations.StatusReadsItsFields : Prop :=
  ∀ s : State, s.rst = false →
    let v := readPort 0x08 s
    (v.getLsbD 0 = true ↔ s.eng.phase ≠ .idle) ∧ v.getLsbD 1 = s.reg.done ∧ v.getLsbD 2 = s.reg.err ∧
      v.getLsbD 3 = s.reg.ovr ∧ v.extractLsb' 4 4 = 0 ∧ v.extractLsb' 12 20 = 0 ∧
      (v.extractLsb' 8 4).toNat =
        match s.reg.errCode with
        | .none => 0
        | .illegalCmd => 1
        | .inputTooLargeMsg => 2
        | .inputTooLargeKey => 3
        | .rangeMsg => 4
        | .rangeKey => 5
        | .busError => 6

/-- R25, R247: what a write of `v` to `STATUS` does, all at once: bit 1 clears `DONE`, bit 2 clears `ERR`, `ERR_CODE` and
`ERR_ADDR`, bit 3 clears `OVR`; a 0 leaves the bit unchanged, and nothing else changes. -/
def Obligations.StatusWriteClearsWhatItNames : Prop :=
  ∀ (s : State) (v : Word), s.rst = false →
    ∃ t, writePort 0x08 v s = .next t ∧ t.eng = s.eng ∧ AroundKept s t ∧
      t.reg =
        { s.reg with
          done := s.reg.done && !v.getLsbD 1
          err := s.reg.err && !v.getLsbD 2
          errCode := if v.getLsbD 2 then .none else s.reg.errCode
          errAddr := if v.getLsbD 2 then 0 else s.reg.errAddr
          ovr := s.reg.ovr && !v.getLsbD 3 }

/-- R22, R27 to R30, R92: each of the eight operand registers, at its offset of R22, reads back the last value written, at
any time, also while a command runs, whose latched copies do not change; every other offset reads as before; and each of
the four 64-bit operands that a command takes at acceptance is `HI || LO` of what its two registers read. -/
def Obligations.OperandRegistersHoldTheLastWrite : Prop :=
  (∀ (s : State) (off : Byte) (v : Word), s.rst = false →
    off ∈ ([0x10, 0x14, 0x18, 0x1C, 0x20, 0x24, 0x28, 0x2C] : List Byte) →
    ∃ t, writePort off v s = .next t ∧ readPort off t = v ∧
      (∀ off', off' ≠ off → readPort off' t = readPort off' s) ∧ t.eng = s.eng ∧ AroundKept s t) ∧
    (∀ s : State, s.rst = false →
      (msgAddrOf s.reg).toNat = (readPort 0x14 s).toNat * 2 ^ 32 + (readPort 0x10 s).toNat ∧
        (msgLenOf s.reg).toNat = (readPort 0x1C s).toNat * 2 ^ 32 + (readPort 0x18 s).toNat ∧
        (keyAddrOf s.reg).toNat = (readPort 0x24 s).toNat * 2 ^ 32 + (readPort 0x20 s).toNat ∧
        (keyLenOf s.reg).toNat = (readPort 0x2C s).toNat * 2 ^ 32 + (readPort 0x28 s).toNat) ∧
    ([Reg.msgAddrLo, .msgAddrHi, .msgLenLo, .msgLenHi, .keyAddrLo, .keyAddrHi, .keyLenLo, .keyLenHi].map offsetOf =
      [0x10, 0x14, 0x18, 0x1C, 0x20, 0x24, 0x28, 0x2C])

/-- R26, R31, R32, R33: writes to `ERR_ADDR` and `DIGEST0..7` and to the reserved offsets change nothing; `ERR_ADDR_LO` and
`ERR_ADDR_HI` read the halves of `ERR_ADDR`, `DIGESTi` at `0x40 + 4i` reads word `i` of the result, and `CMD` and the
reserved offsets read 0. -/
def Obligations.ReadOnlyAndReservedIgnoreWrites : Prop :=
  ∀ (s : State) (off : Byte) (v : Word),
    (0x30 ≤ off.toNat → off.toNat < 0x100 → writePort off v s = .next s) ∧
      ((0x38 ≤ off.toNat ∧ off.toNat < 0x40 ∨ 0x60 ≤ off.toNat) → readPort off s = 0) ∧
      (s.rst = false →
        readPort 0x0C s = 0 ∧ readPort 0x30 s = s.reg.errAddr.extractLsb' 0 32 ∧
          readPort 0x34 s = s.reg.errAddr.extractLsb' 32 32 ∧
          ∀ i, i < 8 → readPort (BitVec.ofNat 8 (0x40 + 4 * i)) s = s.reg.digest.word i)

/-- R33, R75: any access that is not of one aligned 32-bit word with every byte lane enabled has no effect, and a read of
that kind returns 0; an access of one aligned 32-bit word does exactly what `WR` or `RD` at its offset does; no host access
signals an error. That such accesses are a statement of their own is the model's choice (notes/assumptions/17.md). -/
def Obligations.OddAccessesHaveNoEffect : Prop :=
  ∀ (s : State) (k : Nat) (m : Master) (p : List Stmt) (a : Access) (name : Nat),
    StmtNext s k m (.access a name) p →
      (a.bytes ≠ 4 ∨ a.lanes ≠ 0b1111 ∨ a.off.toNat % 4 ≠ 0 →
        ∃ t, step s = .next t ∧ t.reg = s.reg ∧ t.eng = s.eng ∧ t.raced = s.raced ∧
          HostMoved s t k p (if a.write then m.results else m.results ++ [(name, 0)])) ∧
      (a.bytes = 4 → a.lanes = 0b1111 → a.off.toNat % 4 = 0 →
        step s =
          step
            { s with
              masters := s.masters.set k { m with prog := (if a.write then .wr a.off a.data else .rd a.off name) :: p } })

/-- R34: a host's read of any register changes no state but the host's own record of what it read. -/
def Obligations.HostReadsChangeNothing : Prop :=
  ∀ (s : State) (k : Nat) (m : Master) (p : List Stmt) (off : Byte) (name : Nat),
    StmtNext s k m (.rd off name) p →
      ∃ t, step s = .next t ∧ t.reg = s.reg ∧ t.eng = s.eng ∧ t.raced = s.raced ∧
        HostMoved s t k p (m.results ++ [(name, readPort off s)])

/-- R95, R96: a `POLL` reads once a turn and changes nothing in the engine; it ends exactly when the value read meets the
condition, and otherwise stays the host's next statement. -/
def Obligations.PollRepeatsUntilItsCondition : Prop :=
  ∀ (s : State) (k : Nat) (m : Master) (p : List Stmt) (off : Byte) (mask value : Word),
    StmtNext s k m (.poll off mask value) p →
      ∃ t, step s = .next t ∧ t.reg = s.reg ∧ t.eng = s.eng ∧ t.raced = s.raced ∧
        HostMoved s t k (if readPort off s &&& mask = value then p else m.prog) m.results

/-- R51, R250: `BUSY` reads 1 exactly when the engine is not idle, and `irq` is 1 exactly when the registers a host reads
show `IE` = 1 and `DONE` or `ERR` = 1; `OVR` has no part in it. -/
def Obligations.IrqFollowsTheRegisters : Prop :=
  ∀ s : State, s.rst = false →
    (readPort 0x08 s &&& 0x00000001 = 0x00000001 ↔ s.eng.phase ≠ .idle) ∧
      (irq s = true ↔
        readPort 0x04 s &&& 0x00000001 = 0x00000001 ∧ readPort 0x08 s &&& 0x00000006 ≠ 0x00000000)

/-- R35, R45, R221, R284: whatever transaction a host does while a command runs, the internal state, the latched operands
among it, `DIGEST0..7` and the visible source memory stay as they are, and the command goes on; every byte the command may
read stays as it was (R80 case 1) but the byte of a `STORE`, whose value joins the values the byte has held and which
counts from then on as written since acceptance (R80 case 2, R280). That the visible memory itself stays, the store's
value being pending, is the model's choice (DESIGN CHOICE, notes/assumptions/5.md). -/
def Obligations.HostsCannotDisturbARunningCommand : Prop :=
  ∀ (s t : State) (k : Nat), nextTurn s = .host k → busy s = true → step s = .next t →
    t.eng = s.eng ∧ busy t = true ∧ t.reg.digest = s.reg.digest ∧
      MemoryKept s t ∧ t.unseen = s.unseen ∧ t.platform = s.platform ∧ t.rst = s.rst ∧ t.draws = s.draws ∧
      (∀ m a b bs p, StmtNext s k m (.store a (b :: bs)) p →
        pendingStores t = pendingStores s ++ [(a, b)] ∧ ∀ x, isRaced t x = true ↔ isRaced s x = true ∨ x = a) ∧
      ((∀ m a b bs p, ¬StmtNext s k m (.store a (b :: bs)) p) → t.raced = s.raced)

/-- R81: a host's store to source memory made while the engine is idle, with no older store to its byte pending, is read
from its address once the platform has made it visible, and every other byte reads as before; before that, nothing is
visible. That stores are pending until a turn of the platform's is the model's choice (notes/assumptions/5.md). -/
def Obligations.PublishedStoreIsRead : Prop :=
  ∀ (s : State) (k : Nat) (m : Master) (p : List Stmt) (a : Nat) (b : Byte) (bs : List Byte),
    StmtNext s k m (.store a (b :: bs)) p → busy s = false → (∀ c ∈ pendingStores s, c.1 ≠ a) → s.mem.wf = true →
    a < memorySize →
      ∃ t, step s = .next t ∧ t.reg = s.reg ∧ t.eng = s.eng ∧ MemoryKept s t ∧
        t.masters = s.masters.set k ⟨.store (a + 1) bs :: p, m.results⟩ ∧
        pendingStores t = pendingStores s ++ [(a, b)] ∧
        ∀ ts, t.sched = .publish (pendingStores s).length :: ts →
          ∃ u, step t = .next u ∧ u.reg = s.reg ∧ u.eng = s.eng ∧ u.masters = t.masters ∧
            pendingStores u = pendingStores s ∧ u.mem.read a = b ∧ ∀ c, c ≠ a → u.mem.read c = s.mem.read c

/-- R73, R80: every source read answers, with a bus error exactly when `BusErr` holds, and otherwise with a byte; a byte
that is no device's and that no host has written since acceptance reads as source memory had it, and one that a host has
written reads as one of the values it has held (a host's store that is still pending among them: the model's choice,
notes/assumptions/2.md). -/
def Obligations.SourceReadReturnsAHeldValue : Prop :=
  ∀ (s : State) (d : Nat) (a : Addr),
    (sourceRead s d a = .busError ↔ busErr s.platform a = true) ∧
      (busErr s.platform a = false → ∃ b n, sourceRead s d a = .byte b n ∧ n ≤ d + 1) ∧
      (QuietByte s a → sourceRead s d a = .byte (s.mem.read a.toNat) d) ∧
      (busErr s.platform a = false → openByte s.platform a = false → isRaced s a.toNat = true →
        ∃ b, sourceRead s d a = .byte b (d + 1) ∧
          (b = s.mem.read a.toNat ∨ ∃ c ∈ pendingStores s, c.1 = a.toNat ∧ c.2 = b))

/-- R74: `KEYLOAD` reads each key byte once, in ascending order, and nothing else; the `BLOCK_LOAD`s of a pass read each
message byte (in a `KEYHASH` pass each key byte, in an `OUTER` pass nothing) once, in ascending order, and nothing else. -/
def Obligations.EachByteIsReadOnceInOrder : Prop :=
  ∀ e : Engine,
    (e.keyLen.toNat ≤ 64 → readAddrs (keySources e) = addrsFrom e.keyAddr e.keyLen) ∧
      (e.vlen.toNat = virtualLength e → e.vlen.toNat < 2 ^ 61 → e.nblk.toNat = nblkOf e.vlen.toNat →
        passReads e =
          match e.pass with
          | .none => []
          | .hash => addrsFrom e.msgAddr e.msgLen
          | .keyHash => addrsFrom e.keyAddr e.keyLen
          | .inner => addrsFrom e.msgAddr e.msgLen
          | .outer => [])

/-- R210, R171: `KEYLOAD` with quiet key bytes makes `K0` the key right-padded with zero bytes and sets up the pass `INNER`
over `64 + MSG_LEN` bytes; nothing else changes. What it loads otherwise: `LoadsTakeOneAnswerPerByteRead`. -/
def Obligations.KeyLoadPadsTheKey : Prop :=
  ∀ s : State, nextTurn s = .engine → s.rst = false → s.eng.phase = .keyLoad → s.eng.keyLen.toNat ≤ 64 →
    s.eng.keyAddr.toNat + s.eng.keyLen.toNat ≤ 2 ^ 64 → QuietRange s s.eng.keyAddr s.eng.keyLen →
      ∃ t, step s = .next t ∧ t.eng.k0.toList = normKey (keyBytes s) ∧ t.reg = s.reg ∧
        t.eng = { s.eng with k0 := t.eng.k0, pass := .inner, vlen := 64 + s.eng.msgLen, phase := .passInit } ∧
        AroundKept (popTurn s) t

/-- R211, R112: `PASS_INIT` loads the initial hash value, computes the number of padded blocks and starts at block 0;
nothing else changes. -/
def Obligations.PassInitCountsTheBlocks : Prop :=
  ∀ s : State, nextTurn s = .engine → s.rst = false → s.eng.phase = .passInit → s.eng.vlen.toNat < 2 ^ 61 →
    ∃ t, step s = .next t ∧ t.reg = s.reg ∧ t.eng.nblk.toNat = (s.eng.vlen.toNat + 8) / 64 + 1 ∧
      t.eng =
        { s.eng with
          hs := ⟨0x6a09e667, 0xbb67ae85, 0x3c6ef372, 0xa54ff53a, 0x510e527f, 0x9b05688c, 0x1f83d9ab, 0x5be0cd19⟩
          nblk := t.eng.nblk, blk := 0, phase := .blockLoad } ∧
      AroundKept (popTurn s) t

/-- R212, R205, R114, R117, R142: `BLOCK_LOAD`, when the source bytes that it reads itself are quiet, fills the schedule
window with the 16 words of the current block of the padded virtual message and starts the working registers from the hash
state. What it loads otherwise: `LoadsTakeOneAnswerPerByteRead`. -/
def Obligations.BlockLoadTakesTheCurrentBlock : Prop :=
  ∀ s : State, s.Inv → nextTurn s = .engine → s.rst = false → s.eng.phase = .blockLoad →
    (∀ a ∈ readAddrs (blockSources s.eng), QuietByte s a) →
      ∃ t, step s = .next t ∧ t.eng.w.toList = blockWords (virtualMessage s) s.eng.blk.toNat ∧ t.reg = s.reg ∧
        t.eng = { s.eng with w := t.eng.w, work := s.eng.hs, t := 0, phase := .round } ∧ AroundKept (popTurn s) t

/-- R213, R214, R139, R141: one `ROUND`: the schedule window, the working registers, all read before any is written, the
round index and the next phase; nothing else changes. -/
def Obligations.RoundUpdatesWindowAndRegisters : Prop :=
  ∀ s : State, nextTurn s = .engine → s.rst = false → s.eng.phase = .round →
    ∃ t, step s = .next t ∧ t.reg = s.reg ∧ AroundKept (popTurn s) t ∧
      (∀ j (h : j < 16),
        t.eng.w[j] =
          if 16 ≤ s.eng.t.toNat ∧ j = s.eng.t.toNat % 16 then
            ssig1 (windowAt s.eng.w (s.eng.t.toNat - 2)) + windowAt s.eng.w (s.eng.t.toNat - 7) +
              ssig0 (windowAt s.eng.w (s.eng.t.toNat - 15)) + s.eng.w[j]
          else s.eng.w[j]) ∧
      (let v := s.eng.work
       let t1 :=
        v.h + bsig1 v.e + ch v.e v.f v.g + roundConstant s.eng.t.toNat + windowAt t.eng.w s.eng.t.toNat
       t.eng.work = ⟨t1 + (bsig0 v.a + maj v.a v.b v.c), v.a, v.b, v.c, v.d + t1, v.e, v.f, v.g⟩) ∧
      t.eng =
        { s.eng with
          w := t.eng.w, work := t.eng.work
          t := if s.eng.t.toNat < 63 then s.eng.t + 1 else 0
          phase := if s.eng.t.toNat < 63 then .round else .update }

/-- R215, R143: `UPDATE` adds each working register to the hash-state word of the same position and goes on with the next
block or with `PASS_END`; nothing else changes. -/
def Obligations.UpdateAddsTheWorkingRegisters : Prop :=
  ∀ s : State, nextTurn s = .engine → s.rst = false → s.eng.phase = .update →
    ∃ t, step s = .next t ∧ t.reg = s.reg ∧ AroundKept (popTurn s) t ∧
      (∀ i, i < 8 → t.eng.hs.word i = s.eng.hs.word i + s.eng.work.word i) ∧
      t.eng =
        { s.eng with
          hs := t.eng.hs
          blk := if s.eng.blk.toNat + 1 < s.eng.nblk.toNat then s.eng.blk + 1 else s.eng.blk
          phase := if s.eng.blk.toNat + 1 < s.eng.nblk.toNat then .blockLoad else .passEnd }

/-- R216, R198, R222, R145, R70: `PASS_END` for each pass: the result to `DIGEST0..7` with `DONE` and no internal state, or
the hashed key to `K0`, or the inner digest to `IHD`, each word's most significant byte first, and the next pass; nothing
else changes. -/
def Obligations.PassEndPassesTheHashOn : Prop :=
  ∀ s : State, nextTurn s = .engine → s.rst = false → s.eng.phase = .passEnd → s.eng.pass ≠ .none →
    ∃ t, step s = .next t ∧ AroundKept (popTurn s) t ∧
      (∀ i j, i < 8 → j < 4 →
        s.eng.hs.bytes[4 * i + j]? = some ((s.eng.hs.word i).extractLsb' (24 - 8 * j) 8)) ∧
      (s.eng.pass = .hash ∨ s.eng.pass = .outer →
        t.reg = { s.reg with digest := s.eng.hs, done := true } ∧ t.eng = Engine.idle) ∧
      (s.eng.pass = .keyHash →
        t.reg = s.reg ∧ t.eng.k0.toList = s.eng.hs.bytes ++ List.replicate 32 0 ∧
          t.eng = { s.eng with k0 := t.eng.k0, pass := .inner, vlen := 64 + s.eng.msgLen, phase := .passInit }) ∧
      (s.eng.pass = .inner →
        t.reg = s.reg ∧ t.eng.ihd.toList = s.eng.hs.bytes ∧
          t.eng = { s.eng with ihd := t.eng.ihd, pass := .outer, vlen := 96, phase := .passInit })

/-- R243, R244: when a read that `KEYLOAD` or `BLOCK_LOAD` makes fails, the command ends with `BUS_ERROR` and the address of
the first failing read; `DIGEST0..7` and the other registers stay, no internal state survives, memory is untouched; no
free value is taken but by the reads before the failing one, one each at most. -/
def Obligations.FirstFailingReadEndsTheCommand : Prop :=
  ∀ (s : State) (srcs : List ByteSource) (i : Nat) (a : Addr),
    nextTurn s = .engine → s.rst = false →
    (s.eng.phase = .keyLoad ∧ srcs = keySources s.eng ∨ s.eng.phase = .blockLoad ∧ srcs = blockSources s.eng) →
    srcs[i]? = some (.source a) → busErr s.platform a = true →
    (∀ j, j < i → srcs[j]? ≠ some .absent ∧ ∀ b, srcs[j]? = some (.source b) → busErr s.platform b = false) →
      ∃ t, step s = .next t ∧
        t.reg = { s.reg with err := true, errCode := .busError, errAddr := a } ∧ t.eng = Engine.idle ∧
        MemoryKept s t ∧ pendingStores t = pendingStores s ∧ t.masters = s.masters ∧ t.rst = s.rst ∧
        t.platform = s.platform ∧ t.sched = s.sched.tail ∧ t.loads = s.loads ∧ t.draws ≤ s.draws + i

/-- R71: whatever the engine's turn does, it writes no source memory and no register a host writes: only `DIGEST0..7` and
the `STATUS` and `ERR_ADDR` fields can change. -/
def Obligations.EngineNeverWritesMemory : Prop :=
  ∀ s t : State, nextTurn s = .engine → step s = .next t →
    MemoryKept s t ∧ t.unseen = s.unseen ∧ t.raced = s.raced ∧ t.masters = s.masters ∧ t.platform = s.platform ∧
      t.rst = s.rst ∧ t.sched = s.sched.tail ∧ t.loads = s.loads ∧
      t.reg =
        { s.reg with
          digest := t.reg.digest, done := t.reg.done, err := t.reg.err, errCode := t.reg.errCode
          errAddr := t.reg.errAddr }

/-- R246, R251, R32, R82: when the engine's turn ends a command, exactly one of `DONE` and `ERR` is set; an error is a bus
error with `DIGEST0..7` = 0, and the engine then does nothing more. -/
def Obligations.CommandEndsWithOneOutcome : Prop :=
  ∀ s t : State, s.Inv → nextTurn s = .engine → busy s = true → step s = .next t → busy t = false →
    t.eng = Engine.idle ∧ engineTurn t = .next t ∧
      (t.reg.done = true ∧ t.reg.err = false ∧ t.reg.errCode = .none ∨
        t.reg.done = false ∧ t.reg.err = true ∧ t.reg.errCode = .busError ∧ t.reg.digest = Words8.zero)

/-- R221, R191, R271: a running command stops running only when `rst` is asserted, or in the engine's own turn, by
completing or by a bus error. The premise is the invariant's clause that a command runs only with `rst` not asserted
(R270; `EveryStepKeepsTheInvariant`). -/
def Obligations.OnlyItsOwnEndOrResetStopsACommand : Prop :=
  ∀ s t : State, resetHeld s → step s = .next t → busy s = true → busy t = false →
    nextTurn s = .reset true ∨
      nextTurn s = .engine ∧ (t.reg.done = true ∨ t.reg.err = true ∧ t.reg.errCode = .busError)

/-- R32, R36, R48: whatever any agent does, a step changes `DIGEST0..7` only to zero, or, in the `PASS_END` that completes a
`HASH` or `HMAC`, to the final hash state; a step of a host or of the platform that does not assert `rst` never changes
the internal state of a running command (with `rst` not asserted: R270, the invariant). -/
def Obligations.OnlyTheResultReachesTheDigest : Prop :=
  ∀ s t : State, step s = .next t →
    (t.reg.digest = s.reg.digest ∨ t.reg.digest = Words8.zero ∨
        nextTurn s = .engine ∧ s.eng.phase = .passEnd ∧ (s.eng.pass = .hash ∨ s.eng.pass = .outer) ∧
          t.reg.digest = s.eng.hs ∧ t.reg.done = true ∧ t.eng = Engine.idle) ∧
      (resetHeld s → busy s = true → nextTurn s ≠ .reset true → nextTurn s ≠ .engine → t.eng = s.eng)

/-- R133, R134: each result bit of `Ch` is `y`'s bit where `x`'s is 1 and `z`'s where it is 0; each result bit of `Maj` is
the majority of the three operand bits. -/
def Obligations.ChoiceAndMajorityBitByBit : Prop :=
  ∀ (x y z : Word) (i : Nat), i < 32 →
    (ch x y z).getLsbD i = (if x.getLsbD i then y.getLsbD i else z.getLsbD i) ∧
      ((maj x y z).getLsbD i = true ↔
        2 ≤ (x.getLsbD i).toNat + (y.getLsbD i).toNat + (z.getLsbD i).toNat)

/-- R135 to R138, R8: the four Σ and σ functions bit by bit: rotations wrap, the last term of `SSIG0` and `SSIG1` is a shift
with zero fill. -/
def Obligations.SigmaFunctionsBitByBit : Prop :=
  ∀ (x : Word) (i : Nat), i < 32 →
    let r := fun n => x.getLsbD ((i + n) % 32)
    (bsig0 x).getLsbD i = ((r 2 ^^ r 13) ^^ r 22) ∧ (bsig1 x).getLsbD i = ((r 6 ^^ r 11) ^^ r 25) ∧
      (ssig0 x).getLsbD i = ((r 7 ^^ r 18) ^^ (decide (i + 3 < 32) && x.getLsbD (i + 3))) ∧
      (ssig1 x).getLsbD i = ((r 17 ^^ r 19) ^^ (decide (i + 10 < 32) && x.getLsbD (i + 10)))

/-- R141: a round is a bijection of the working registers for fixed `K[t]` and `W_t`. -/
def Obligations.RoundIsABijection : Prop := ∀ k wt : Word, Function.Bijective (roundWith k wt)

/-- R140, R139: just before round `t` updates the window, its entry `(t - k) mod 16` holds `W_{t-k}`, so the 16-word window
computes exactly the 64-word schedule. -/
def Obligations.WindowHoldsTheSchedule : Prop :=
  ∀ (w : Vector Word 16) (t k : Nat), t ≤ 64 → 1 ≤ k → k ≤ 16 → k ≤ t →
    windowAt (windowBefore w t) (t - k) = (schedule w.toList).getD (t - k) 0

/-- R112, R113, R114: the padded message is `nblk(n)` blocks long, ends in the big-endian bit length, and the pointwise form
the hardware evaluates equals it at every index. -/
def Obligations.PointwisePaddingIsPad : Prop :=
  ∀ m : List Byte,
    (pad m).length = 64 * nblkOf m.length ∧ (∀ i, i < 64 * nblkOf m.length → padByte m i = (pad m).getD i 0) ∧
      (pad m).drop (64 * nblkOf m.length - 8) = be64 (BitVec.ofNat 64 (8 * m.length))

/-- R172: a key and the same key with trailing zero bytes, of 64 bytes or fewer together, have the same `K0` and give the
same MAC. -/
def Obligations.TrailingZeroKeyBytesDoNotMatter : Prop :=
  ∀ (k m : List Byte) (j : Nat), k.length + j ≤ 64 →
    normKey (k ++ List.replicate j 0) = normKey k ∧ hmac (k ++ List.replicate j 0) m = hmac k m

/-- R178: a key of more than 64 bytes gives the MAC of its hash as the key, with or without the zero bytes after it. -/
def Obligations.LongKeyIsItsHash : Prop :=
  ∀ k m : List Byte, 64 < k.length →
    hmac k m = hmac (sha256 k ++ List.replicate 32 0) m ∧ hmac k m = hmac (sha256 k) m

/-- R219 for `HASH`, with R195 and R217: from every state with an idle engine and no turn decided (`sched` empty, so that by
the model's default turn, DESIGN CHOICE, notes/assumptions/6.md, the engine alone goes on), with every source read
answering (R73, U8; notes/assumptions/13.md), `HASH` with operands that pass its checks and quiet message bytes runs to its
end in `2 + 66 * nblk(MSG_LEN)` engine micro-steps, and then `DIGEST0..7` is `SHA256` of the message bytes, `DONE` = 1, no
internal state survives, and nothing else has changed. -/
def Obligations.HashComputesSha256 : Prop :=
  ∀ s : State, s.eng = Engine.idle → s.rst = false → s.sched = [] → (msgLenOf s.reg).toNat < 2 ^ 61 →
    (msgAddrOf s.reg).toNat + (msgLenOf s.reg).toNat ≤ 2 ^ 64 → QuietRange s (msgAddrOf s.reg) (msgLenOf s.reg) →
    let message := memBytes s.mem (msgAddrOf s.reg).toNat (msgLenOf s.reg).toNat
    ∃ t u, exec .hash s = .next t ∧ runSteps (2 + 66 * nblkOf message.length) t = .next u ∧
      u.reg = { s.reg with done := true, digest := sha256Words message } ∧ u.reg.digest.bytes = sha256 message ∧
      u.eng = Engine.idle ∧ AroundKept s u

/-- R219 for `HMAC`, with R196 and R217: from every state with an idle engine and no turn decided (`sched` empty, so that by
the model's default turn, DESIGN CHOICE, notes/assumptions/6.md, the engine alone goes on), with every source read
answering (R73, U8; notes/assumptions/13.md), `HMAC` with operands that pass its checks and quiet key and message bytes runs
to its end in R217's count of engine micro-steps, and then `DIGEST0..7` is `HMAC` of the key and message bytes, `DONE` = 1,
no internal state survives, and nothing else has changed. -/
def Obligations.HmacComputesHmac : Prop :=
  ∀ s : State, s.eng = Engine.idle → s.rst = false → s.sched = [] →
    (keyLenOf s.reg).toNat < 2 ^ 61 → (msgLenOf s.reg).toNat < 2 ^ 61 - 64 →
    (keyAddrOf s.reg).toNat + (keyLenOf s.reg).toNat ≤ 2 ^ 64 →
    (msgAddrOf s.reg).toNat + (msgLenOf s.reg).toNat ≤ 2 ^ 64 →
    QuietRange s (keyAddrOf s.reg) (keyLenOf s.reg) → QuietRange s (msgAddrOf s.reg) (msgLenOf s.reg) →
    let key := memBytes s.mem (keyAddrOf s.reg).toNat (keyLenOf s.reg).toNat
    let message := memBytes s.mem (msgAddrOf s.reg).toNat (msgLenOf s.reg).toNat
    ∃ t u, exec .hmac s = .next t ∧ runSteps (commandSteps .hmac s.reg) t = .next u ∧
      u.reg = { s.reg with done := true, digest := hmacWords key message } ∧ u.reg.digest.bytes = hmac key message ∧
      u.eng = Engine.idle ∧ AroundKept s u

/-- R220, R217: every command accepted by an idle engine with no turn decided (`sched` empty, so that by the model's default
turn, DESIGN CHOICE, notes/assumptions/6.md, the engine alone goes on), on every platform and whatever its source reads
return, has the engine idle again after finitely many of its micro-steps, at most the count of R217. The premise P2 that
every source read answers (R73, U8) is part of the model (DEDUCED, notes/assumptions/13.md). -/
def Obligations.EveryCommandEnds : Prop :=
  ∀ (s t : State) (i : Instr), s.eng = Engine.idle → s.rst = false → s.sched = [] → exec i s = .next t →
    ∃ n u, n ≤ commandSteps i s.reg ∧ runSteps n t = .next u ∧ busy u = false

/-- R218, R253: in two states that agree on what decides the next phase and on the registers, but may differ in every key
byte, message byte and datapath value, the engine's turns agree on it again, and on every register but `DIGEST0..7`,
which differ only where a command completes. -/
def Obligations.SecretsDoNotSteerTheEngine : Prop :=
  ∀ s s' t t' : State, SameControl s s' → s.reg = s'.reg → nextTurn s = .engine → nextTurn s' = .engine →
    step s = .next t → step s' = .next t' →
      SameControl t t' ∧ t'.reg = { t.reg with digest := t'.reg.digest } ∧
        (t.reg.digest ≠ t'.reg.digest → s.eng.phase = .passEnd ∧ t.reg.done = true)

/-- R48, R253: what a host reads at any offset depends on the host-visible registers, `BUSY` and `rst` only, and so on no
byte of the internal state or of memory. -/
def Obligations.HostReadsShowNoInternalState : Prop :=
  ∀ (s t : State) (off : Byte), s.reg = t.reg → busy s = busy t → s.rst = t.rst → readPort off s = readPort off t

/-- R80 case 1, R81, R10: whatever step is taken, a host's `STORE` makes its value the last value written to its byte, and
nothing else changes the last value written to any byte, whatever the engine does and in whatever order the platform makes
stores visible; with no store to a byte pending, memory holds its last value written; and with the engine idle the platform
can make the oldest pending store visible. That stores to one byte keep their order on their way to memory, and that none
arrives while a command runs, is the model's choice (DESIGN CHOICE, notes/assumptions/5.md). -/
def Obligations.MemoryEndsWithTheLastValueWritten : Prop :=
  ∀ s t : State, s.mem.wf = true → step s = .next t →
    (∀ x,
      (∀ k m a b bs p, StmtNext s k m (.store a (b :: bs)) p →
          lastWritten t x = if x = a then b else lastWritten s x) ∧
        ((∀ k m a b bs p, ¬StmtNext s k m (.store a (b :: bs)) p) → lastWritten t x = lastWritten s x) ∧
        ((∀ c ∈ pendingStores t, c.1 ≠ x) → t.mem.read x = lastWritten t x)) ∧
      (busy s = false → nextTurn s = .publish 0 → pendingStores t = (pendingStores s).tail)

/-- R20: a host's own read of a byte of source memory changes no memory, no register and no internal state; for an address
that is no device, not in the register window and none where a source read fails, it returns what memory holds, or the
value of a store to it that is still pending. The statement itself and what it returns are the model's choice (DESIGN
CHOICE, notes/assumptions/18.md): the spec says only that hosts read source memory. -/
def Obligations.HostReadsOfMemoryChangeNothing : Prop :=
  ∀ (s : State) (k : Nat) (m : Master) (p : List Stmt) (a : Addr) (name : Nat),
    StmtNext s k m (.load a name) p →
      ∃ t b, step s = .next t ∧ t.reg = s.reg ∧ t.eng = s.eng ∧ MemoryKept s t ∧ t.unseen = s.unseen ∧
        t.raced = s.raced ∧ t.rst = s.rst ∧ t.platform = s.platform ∧ t.draws = s.draws ∧ t.sched = s.sched.tail ∧
        t.masters = s.masters.set k ⟨p, m.results ++ [(name, (0 : BitVec 24) ++ b)]⟩ ∧
        (busErr s.platform a = false → openByte s.platform a = false →
          b = s.mem.read a.toNat ∨ ∃ c ∈ pendingStores s, c.1 = a.toNat ∧ c.2 = b)

/-- R70, R9, R117: every packing is big-endian: `be32` and its inverse, the words of a block, the bytes of eight words
and `be64`, each most significant byte first. -/
def Obligations.BytesArePackedBigEndian : Prop :=
  (∀ b0 b1 b2 b3 : Byte,
      (be32 b0 b1 b2 b3).toNat = b0.toNat * 2 ^ 24 + b1.toNat * 2 ^ 16 + b2.toNat * 2 ^ 8 + b3.toNat ∧
        bytesBe32 (be32 b0 b1 b2 b3) = [b0, b1, b2, b3]) ∧
    (∀ (f : Nat → Byte) (k j : Nat), k < 16 → j < 4 →
      ((packWords f).getD k 0).extractLsb' (24 - 8 * j) 8 = f (4 * k + j)) ∧
    (∀ (x : Words8) (i j : Nat), i < 8 → j < 4 →
      x.bytes.length = 32 ∧ x.bytes[4 * i + j]? = some ((x.word i).extractLsb' (24 - 8 * j) 8)) ∧
    ∀ (v : BitVec 64) (i : Nat), i < 8 →
      (be64 v).length = 8 ∧ (be64 v)[i]? = some (v.extractLsb' (56 - 8 * i) 8)

/-- R210, R212, R73, R74, R80, R280: whatever its reads answer, raced bytes and bytes of a device among them, a `KEYLOAD` or
`BLOCK_LOAD` none of whose reads fails loads, for each of its 64 bytes in order, the byte it forms itself or the one answer
of one source read at that byte's address, with the free values that the reads before it have not taken (`draws i` have been
taken before byte `i`), and goes on: `K0` is made of those bytes, or each word of the window of four of them, the first most
significant; nothing else changes. The premise that no byte is absent follows from the invariant. -/
def Obligations.LoadsTakeOneAnswerPerByteRead : Prop :=
  ∀ (s : State) (srcs : List ByteSource), nextTurn s = .engine → s.rst = false →
    (s.eng.phase = .keyLoad ∧ srcs = keySources s.eng ∨ s.eng.phase = .blockLoad ∧ srcs = blockSources s.eng) →
    (∀ x ∈ srcs, x ≠ .absent) → (∀ a ∈ readAddrs srcs, busErr s.platform a = false) →
    ∃ (t : State) (bs : List Byte) (draws : Nat → Nat),
      step s = .next t ∧ bs.length = 64 ∧ draws 0 = s.draws ∧ draws 64 = t.draws ∧
        (∀ i, i < 64 →
          (∀ c, srcs[i]? = some (.const c) → bs[i]? = some c ∧ draws (i + 1) = draws i) ∧
            ∀ a, srcs[i]? = some (.source a) →
              ∃ b, bs[i]? = some b ∧ sourceRead s (draws i) a = .byte b (draws (i + 1))) ∧
        (s.eng.phase = .keyLoad →
          t.eng.k0.toList = bs ∧
            t.eng = { s.eng with k0 := t.eng.k0, pass := .inner, vlen := 64 + s.eng.msgLen, phase := .passInit }) ∧
        (s.eng.phase = .blockLoad →
          (∀ k j (h : k < 16), j < 4 → bs[4 * k + j]? = some (t.eng.w[k].extractLsb' (24 - 8 * j) 8)) ∧
            t.eng = { s.eng with w := t.eng.w, work := s.eng.hs, t := 0, phase := .round }) ∧
        t.reg = s.reg ∧ AroundKept { popTurn s with draws := t.draws } t
end

