-- ==== Sys2Proof/Laws/Memory.lean ====
section
/-!
SUPPORT. Source memory: a read after a write, and the canonical form, which every operation keeps.
-/

namespace Sys2Proof.Machine

theorem Memory.wfFrom_cons (lo k : Nat) (w : Byte) (r : Memory) :
    Memory.wfFrom lo ((k, w) :: r) = true ↔
      lo ≤ k ∧ k < memorySize ∧ w ≠ unlistedByte ∧ Memory.wfFrom (k + 1) r = true := by
  simp [Memory.wfFrom, and_assoc]

@[simp] theorem Memory.read_nil (a : Nat) : Memory.read [] a = unlistedByte := rfl

theorem Memory.read_cons (k : Nat) (w : Byte) (r : Memory) (a : Nat) :
    Memory.read ((k, w) :: r) a = if k = a then w else Memory.read r a := rfl

/-- An address below every address listed is unlisted. -/
theorem Memory.read_low (m : Memory) (lo x : Nat) (h : m.wfFrom lo = true) (hx : x < lo) :
    m.read x = unlistedByte := by
  induction m generalizing lo with
  | nil => rfl
  | cons c r ih =>
    obtain ⟨k, w⟩ := c
    rw [Memory.wfFrom_cons] at h
    rw [Memory.read_cons, if_neg (by omega)]
    exact ih _ h.2.2.2 (by omega)

/-- The byte written is read back at its address, and every other address reads as before. -/
theorem Memory.read_write (m : Memory) (lo a b : Nat) (v : Byte) (h : m.wfFrom lo = true) :
    (m.write a v).read b = if b = a then v else m.read b := by
  induction m generalizing lo with
  | nil =>
    unfold Memory.write
    split
    · rename_i hv
      subst hv
      simp
    · simp only [Memory.read_cons, Memory.read_nil, eq_comm]
  | cons c r ih =>
    obtain ⟨k, w⟩ := c
    rw [Memory.wfFrom_cons] at h
    obtain ⟨_, _, _, hr⟩ := h
    have hlow : ∀ x, x ≤ k → Memory.read r x = unlistedByte := fun x hx => Memory.read_low r _ _ hr (by omega)
    unfold Memory.write
    by_cases hak : a < k
    · rw [if_pos hak]
      split <;> (simp only [Memory.read_cons]; split_ifs <;> first | rfl | omega | simp_all)
      exact hlow _ (by omega)
    · rw [if_neg hak]
      by_cases hk : a = k
      · subst hk
        rw [if_pos rfl]
        split <;> (try simp only [Memory.read_cons]) <;> split_ifs <;>
          first | rfl | omega | (subst_vars; exact hlow _ (by omega))
      · rw [if_neg hk]
        simp only [Memory.read_cons, ih _ hr]
        split_ifs <;> first | rfl | omega

theorem Memory.read_write_same (m : Memory) (a : Nat) (v : Byte) (h : m.wf = true) : (m.write a v).read a = v := by
  simp [Memory.read_write m 0 a a v h]

theorem Memory.read_write_other (m : Memory) (a b : Nat) (v : Byte) (h : m.wf = true) (hb : b ≠ a) :
    (m.write a v).read b = m.read b := by
  simp [Memory.read_write m 0 a b v h, hb]

/-- Raising the lower bound to one the first entry meets. -/
theorem Memory.wfFrom_mono (m : Memory) (lo lo' : Nat) (h : m.wfFrom lo' = true) (hl : lo ≤ lo') :
    m.wfFrom lo = true := by
  cases m with
  | nil => rfl
  | cons c r =>
    rw [Memory.wfFrom_cons] at h ⊢
    exact ⟨by omega, h.2⟩

theorem Memory.write_wfFrom (m : Memory) (lo a : Nat) (v : Byte) (h : m.wfFrom lo = true) (hlo : lo ≤ a)
    (ha : a < memorySize) : (m.write a v).wfFrom lo = true := by
  induction m generalizing lo with
  | nil =>
    unfold Memory.write
    split
    · rfl
    · rename_i hv
      exact (Memory.wfFrom_cons _ _ _ _).2 ⟨hlo, ha, hv, rfl⟩
  | cons c r ih =>
    obtain ⟨k, w⟩ := c
    have h0 := h
    rw [Memory.wfFrom_cons] at h
    obtain ⟨h1, h2, h3, h4⟩ := h
    unfold Memory.write
    by_cases hak : a < k
    · rw [if_pos hak]
      split
      · exact h0
      · rename_i hv
        exact (Memory.wfFrom_cons _ _ _ _).2 ⟨hlo, ha, hv, (Memory.wfFrom_cons _ _ _ _).2 ⟨by omega, h2, h3, h4⟩⟩
    · rw [if_neg hak]
      by_cases hk : a = k
      · subst hk
        rw [if_pos rfl]
        split
        · exact Memory.wfFrom_mono _ _ _ h4 (by omega)
        · rename_i hv
          exact (Memory.wfFrom_cons _ _ _ _).2 ⟨hlo, ha, hv, h4⟩
      · rw [if_neg hk]
        exact (Memory.wfFrom_cons _ _ _ _).2 ⟨h1, h2, h3, ih _ h4 (by omega)⟩

/-- A write keeps the canonical form. -/
theorem Memory.write_wf (m : Memory) (a : Nat) (v : Byte) (h : m.wf = true) (ha : a < memorySize) :
    (m.write a v).wf = true :=
  Memory.write_wfFrom m 0 a v h (Nat.zero_le a) ha

/-- The memory of the reset state is canonical. -/
theorem resetOn_mem_wf (p : Platform) : (State.resetOn p).mem.wf = true := rfl

end Sys2Proof.Machine
end

