-- ==== Sys2Proof/Laws/Operands.lean ====
section
/-!
SUPPORT. The operand registers do not depend on the other host-visible registers, and the acceptance checks as
conditions on numbers.
-/

namespace Sys2Proof.Machine

@[simp] theorem msgAddrOf_digest (r : HostRegs) (d : Words8) : msgAddrOf { r with digest := d } = msgAddrOf r := rfl
@[simp] theorem msgLenOf_digest (r : HostRegs) (d : Words8) : msgLenOf { r with digest := d } = msgLenOf r := rfl
@[simp] theorem keyAddrOf_digest (r : HostRegs) (d : Words8) : keyAddrOf { r with digest := d } = keyAddrOf r := rfl
@[simp] theorem keyLenOf_digest (r : HostRegs) (d : Words8) : keyLenOf { r with digest := d } = keyLenOf r := rfl

/-- `AcceptChecks(HASH)` passes exactly when neither condition of R245 holds. -/
theorem checkHash_eq_none (e : Engine) :
    checkHash e = none ↔ e.msgLen.toNat < 2 ^ 61 ∧ e.msgAddr.toNat + e.msgLen.toNat ≤ 2 ^ 64 := by
  unfold checkHash
  split_ifs <;> simp <;> omega

/-- `AcceptChecks(HMAC)` passes exactly when none of the four conditions of R245 holds. -/
theorem checkHmac_eq_none (e : Engine) :
    checkHmac e = none ↔
      e.keyLen.toNat < 2 ^ 61 ∧ e.msgLen.toNat < 2 ^ 61 - 64 ∧
        e.keyAddr.toNat + e.keyLen.toNat ≤ 2 ^ 64 ∧ e.msgAddr.toNat + e.msgLen.toNat ≤ 2 ^ 64 := by
  unfold checkHmac
  split_ifs <;> simp <;> omega

/-- An acceptance check raises an error code, never `NONE` and never `BUS_ERROR`. -/
theorem checkHash_code (e : Engine) (c : ErrCode) (h : checkHash e = some c) : c ≠ .none ∧ c ≠ .busError := by
  unfold checkHash at h
  split_ifs at h <;> cases h <;> decide

theorem checkHmac_code (e : Engine) (c : ErrCode) (h : checkHmac e = some c) : c ≠ .none ∧ c ≠ .busError := by
  unfold checkHmac at h
  split_ifs at h <;> cases h <;> decide

end Sys2Proof.Machine
end

