-- ==== Sys2Proof/Laws/State.lean ====
section
/-!
SUPPORT. What each update of the state does to each field: one lemma per field per update, by rfl or one case split, so that
no proof unfolds a record update.
-/

namespace Sys2Proof.Machine

@[simp] theorem zeroize_reg (s : State) : (zeroize s).reg = s.reg := rfl
@[simp] theorem zeroize_eng (s : State) : (zeroize s).eng = Engine.idle := rfl
@[simp] theorem zeroize_rst (s : State) : (zeroize s).rst = s.rst := rfl
@[simp] theorem zeroize_platform (s : State) : (zeroize s).platform = s.platform := rfl
@[simp] theorem zeroize_mem (s : State) : (zeroize s).mem = s.mem := rfl
@[simp] theorem zeroize_unseen (s : State) : (zeroize s).unseen = s.unseen := rfl
@[simp] theorem zeroize_raced (s : State) : (zeroize s).raced = s.raced := rfl
@[simp] theorem zeroize_draws (s : State) : (zeroize s).draws = s.draws := rfl
@[simp] theorem zeroize_loads (s : State) : (zeroize s).loads = s.loads := rfl
@[simp] theorem zeroize_masters (s : State) : (zeroize s).masters = s.masters := rfl
@[simp] theorem zeroize_sched (s : State) : (zeroize s).sched = s.sched := rfl

@[simp] theorem complete_reg (s : State) : (complete s).reg = { s.reg with done := true } := rfl
@[simp] theorem complete_eng (s : State) : (complete s).eng = Engine.idle := rfl
@[simp] theorem complete_rst (s : State) : (complete s).rst = s.rst := rfl
@[simp] theorem complete_platform (s : State) : (complete s).platform = s.platform := rfl
@[simp] theorem complete_mem (s : State) : (complete s).mem = s.mem := rfl
@[simp] theorem complete_unseen (s : State) : (complete s).unseen = s.unseen := rfl
@[simp] theorem complete_raced (s : State) : (complete s).raced = s.raced := rfl
@[simp] theorem complete_draws (s : State) : (complete s).draws = s.draws := rfl
@[simp] theorem complete_loads (s : State) : (complete s).loads = s.loads := rfl
@[simp] theorem complete_masters (s : State) : (complete s).masters = s.masters := rfl
@[simp] theorem complete_sched (s : State) : (complete s).sched = s.sched := rfl

@[simp] theorem raiseError_reg (c : ErrCode) (a : Addr) (s : State) :
    (raiseError c a s).reg = { s.reg with err := true, errCode := c, errAddr := a } := rfl
@[simp] theorem raiseError_eng (c : ErrCode) (a : Addr) (s : State) : (raiseError c a s).eng = Engine.idle := rfl
@[simp] theorem raiseError_rst (c : ErrCode) (a : Addr) (s : State) : (raiseError c a s).rst = s.rst := rfl
@[simp] theorem raiseError_platform (c : ErrCode) (a : Addr) (s : State) :
    (raiseError c a s).platform = s.platform := rfl
@[simp] theorem raiseError_mem (c : ErrCode) (a : Addr) (s : State) : (raiseError c a s).mem = s.mem := rfl
@[simp] theorem raiseError_unseen (c : ErrCode) (a : Addr) (s : State) : (raiseError c a s).unseen = s.unseen := rfl
@[simp] theorem raiseError_raced (c : ErrCode) (a : Addr) (s : State) : (raiseError c a s).raced = s.raced := rfl
@[simp] theorem raiseError_draws (c : ErrCode) (a : Addr) (s : State) : (raiseError c a s).draws = s.draws := rfl
@[simp] theorem raiseError_loads (c : ErrCode) (a : Addr) (s : State) : (raiseError c a s).loads = s.loads := rfl
@[simp] theorem raiseError_masters (c : ErrCode) (a : Addr) (s : State) :
    (raiseError c a s).masters = s.masters := rfl
@[simp] theorem raiseError_sched (c : ErrCode) (a : Addr) (s : State) : (raiseError c a s).sched = s.sched := rfl

@[simp] theorem acceptClear_reg (s : State) :
    (acceptClear s).reg = { s.reg with err := false, errCode := .none, errAddr := 0, done := false } := rfl
@[simp] theorem acceptClear_eng (s : State) : (acceptClear s).eng = s.eng := rfl
@[simp] theorem acceptClear_rst (s : State) : (acceptClear s).rst = s.rst := rfl
@[simp] theorem acceptClear_platform (s : State) : (acceptClear s).platform = s.platform := rfl
@[simp] theorem acceptClear_mem (s : State) : (acceptClear s).mem = s.mem := rfl
@[simp] theorem acceptClear_unseen (s : State) : (acceptClear s).unseen = s.unseen ++ s.raced := rfl
@[simp] theorem acceptClear_raced (s : State) : (acceptClear s).raced = [] := rfl
@[simp] theorem acceptClear_draws (s : State) : (acceptClear s).draws = s.draws := rfl
@[simp] theorem acceptClear_loads (s : State) : (acceptClear s).loads = s.loads := rfl
@[simp] theorem acceptClear_masters (s : State) : (acceptClear s).masters = s.masters := rfl
@[simp] theorem acceptClear_sched (s : State) : (acceptClear s).sched = s.sched := rfl

@[simp] theorem setDigest_reg (v : Words8) (s : State) : (setDigest v s).reg = { s.reg with digest := v } := rfl
@[simp] theorem setDigest_eng (v : Words8) (s : State) : (setDigest v s).eng = s.eng := rfl
@[simp] theorem setDigest_rst (v : Words8) (s : State) : (setDigest v s).rst = s.rst := rfl
@[simp] theorem setDigest_platform (v : Words8) (s : State) : (setDigest v s).platform = s.platform := rfl
@[simp] theorem setDigest_mem (v : Words8) (s : State) : (setDigest v s).mem = s.mem := rfl
@[simp] theorem setDigest_unseen (v : Words8) (s : State) : (setDigest v s).unseen = s.unseen := rfl
@[simp] theorem setDigest_raced (v : Words8) (s : State) : (setDigest v s).raced = s.raced := rfl
@[simp] theorem setDigest_draws (v : Words8) (s : State) : (setDigest v s).draws = s.draws := rfl
@[simp] theorem setDigest_loads (v : Words8) (s : State) : (setDigest v s).loads = s.loads := rfl
@[simp] theorem setDigest_masters (v : Words8) (s : State) : (setDigest v s).masters = s.masters := rfl
@[simp] theorem setDigest_sched (v : Words8) (s : State) : (setDigest v s).sched = s.sched := rfl

@[simp] theorem latchMessage_reg (s : State) : (latchMessage s).reg = s.reg := rfl
@[simp] theorem latchMessage_eng (s : State) :
    (latchMessage s).eng = { s.eng with msgAddr := msgAddrOf s.reg, msgLen := msgLenOf s.reg } := rfl
@[simp] theorem latchMessage_rst (s : State) : (latchMessage s).rst = s.rst := rfl
@[simp] theorem latchMessage_platform (s : State) : (latchMessage s).platform = s.platform := rfl
@[simp] theorem latchMessage_mem (s : State) : (latchMessage s).mem = s.mem := rfl
@[simp] theorem latchMessage_unseen (s : State) : (latchMessage s).unseen = s.unseen := rfl
@[simp] theorem latchMessage_raced (s : State) : (latchMessage s).raced = s.raced := rfl
@[simp] theorem latchMessage_draws (s : State) : (latchMessage s).draws = s.draws := rfl
@[simp] theorem latchMessage_loads (s : State) : (latchMessage s).loads = s.loads := rfl
@[simp] theorem latchMessage_masters (s : State) : (latchMessage s).masters = s.masters := rfl
@[simp] theorem latchMessage_sched (s : State) : (latchMessage s).sched = s.sched := rfl

@[simp] theorem latchKey_reg (s : State) : (latchKey s).reg = s.reg := rfl
@[simp] theorem latchKey_eng (s : State) :
    (latchKey s).eng = { s.eng with keyAddr := keyAddrOf s.reg, keyLen := keyLenOf s.reg } := rfl
@[simp] theorem latchKey_rst (s : State) : (latchKey s).rst = s.rst := rfl
@[simp] theorem latchKey_platform (s : State) : (latchKey s).platform = s.platform := rfl
@[simp] theorem latchKey_mem (s : State) : (latchKey s).mem = s.mem := rfl
@[simp] theorem latchKey_unseen (s : State) : (latchKey s).unseen = s.unseen := rfl
@[simp] theorem latchKey_raced (s : State) : (latchKey s).raced = s.raced := rfl
@[simp] theorem latchKey_draws (s : State) : (latchKey s).draws = s.draws := rfl
@[simp] theorem latchKey_loads (s : State) : (latchKey s).loads = s.loads := rfl
@[simp] theorem latchKey_masters (s : State) : (latchKey s).masters = s.masters := rfl
@[simp] theorem latchKey_sched (s : State) : (latchKey s).sched = s.sched := rfl

@[simp] theorem startPass_reg (p : Pass) (n : BitVec 64) (s : State) : (startPass p n s).reg = s.reg := rfl
@[simp] theorem startPass_eng (p : Pass) (n : BitVec 64) (s : State) :
    (startPass p n s).eng = { s.eng with pass := p, vlen := n, phase := .passInit } := rfl
@[simp] theorem startPass_rst (p : Pass) (n : BitVec 64) (s : State) : (startPass p n s).rst = s.rst := rfl
@[simp] theorem startPass_platform (p : Pass) (n : BitVec 64) (s : State) :
    (startPass p n s).platform = s.platform := rfl
@[simp] theorem startPass_mem (p : Pass) (n : BitVec 64) (s : State) : (startPass p n s).mem = s.mem := rfl
@[simp] theorem startPass_unseen (p : Pass) (n : BitVec 64) (s : State) : (startPass p n s).unseen = s.unseen := rfl
@[simp] theorem startPass_raced (p : Pass) (n : BitVec 64) (s : State) : (startPass p n s).raced = s.raced := rfl
@[simp] theorem startPass_draws (p : Pass) (n : BitVec 64) (s : State) : (startPass p n s).draws = s.draws := rfl
@[simp] theorem startPass_loads (p : Pass) (n : BitVec 64) (s : State) : (startPass p n s).loads = s.loads := rfl
@[simp] theorem startPass_masters (p : Pass) (n : BitVec 64) (s : State) :
    (startPass p n s).masters = s.masters := rfl
@[simp] theorem startPass_sched (p : Pass) (n : BitVec 64) (s : State) : (startPass p n s).sched = s.sched := rfl

@[simp] theorem driveReset_reg (l : Bool) (s : State) :
    (driveReset l s).reg = if l || s.rst then HostRegs.reset else s.reg := by
  cases l <;> cases h : s.rst <;> simp [driveReset, h]
@[simp] theorem driveReset_eng (l : Bool) (s : State) :
    (driveReset l s).eng = if l || s.rst then Engine.idle else s.eng := by
  cases l <;> cases h : s.rst <;> simp [driveReset, h]
@[simp] theorem driveReset_rst (l : Bool) (s : State) : (driveReset l s).rst = l := by
  cases l <;> cases h : s.rst <;> simp [driveReset, h]
@[simp] theorem driveReset_platform (l : Bool) (s : State) : (driveReset l s).platform = s.platform := by
  cases l <;> cases h : s.rst <;> simp [driveReset, h]
@[simp] theorem driveReset_mem (l : Bool) (s : State) : (driveReset l s).mem = s.mem := by
  cases l <;> cases h : s.rst <;> simp [driveReset, h]
@[simp] theorem driveReset_unseen (l : Bool) (s : State) : (driveReset l s).unseen = s.unseen := by
  cases l <;> cases h : s.rst <;> simp [driveReset, h]
@[simp] theorem driveReset_raced (l : Bool) (s : State) : (driveReset l s).raced = s.raced := by
  cases l <;> cases h : s.rst <;> simp [driveReset, h]
@[simp] theorem driveReset_draws (l : Bool) (s : State) : (driveReset l s).draws = s.draws := by
  cases l <;> cases h : s.rst <;> simp [driveReset, h]
@[simp] theorem driveReset_loads (l : Bool) (s : State) : (driveReset l s).loads = s.loads := by
  cases l <;> cases h : s.rst <;> simp [driveReset, h]
@[simp] theorem driveReset_masters (l : Bool) (s : State) : (driveReset l s).masters = s.masters := by
  cases l <;> cases h : s.rst <;> simp [driveReset, h]
@[simp] theorem driveReset_sched (l : Bool) (s : State) : (driveReset l s).sched = s.sched := by
  cases l <;> cases h : s.rst <;> simp [driveReset, h]

@[simp] theorem noteHostRead_reg (a : Addr) (s : State) : (noteHostRead a s).reg = s.reg := rfl
@[simp] theorem noteHostRead_eng (a : Addr) (s : State) : (noteHostRead a s).eng = s.eng := rfl
@[simp] theorem noteHostRead_rst (a : Addr) (s : State) : (noteHostRead a s).rst = s.rst := rfl
@[simp] theorem noteHostRead_platform (a : Addr) (s : State) : (noteHostRead a s).platform = s.platform := rfl
@[simp] theorem noteHostRead_mem (a : Addr) (s : State) : (noteHostRead a s).mem = s.mem := rfl
@[simp] theorem noteHostRead_unseen (a : Addr) (s : State) : (noteHostRead a s).unseen = s.unseen := rfl
@[simp] theorem noteHostRead_raced (a : Addr) (s : State) : (noteHostRead a s).raced = s.raced := rfl
@[simp] theorem noteHostRead_draws (a : Addr) (s : State) : (noteHostRead a s).draws = s.draws := rfl
@[simp] theorem noteHostRead_loads (a : Addr) (s : State) :
    (noteHostRead a s).loads = if hostReadOpen s a then s.loads + 1 else s.loads := rfl
@[simp] theorem noteHostRead_masters (a : Addr) (s : State) : (noteHostRead a s).masters = s.masters := rfl
@[simp] theorem noteHostRead_sched (a : Addr) (s : State) : (noteHostRead a s).sched = s.sched := rfl

@[simp] theorem storeByte_reg (a : Nat) (b : Byte) (s : State) : (storeByte a b s).reg = s.reg := by
  unfold storeByte; split <;> rfl
@[simp] theorem storeByte_eng (a : Nat) (b : Byte) (s : State) : (storeByte a b s).eng = s.eng := by
  unfold storeByte; split <;> rfl
@[simp] theorem storeByte_rst (a : Nat) (b : Byte) (s : State) : (storeByte a b s).rst = s.rst := by
  unfold storeByte; split <;> rfl
@[simp] theorem storeByte_platform (a : Nat) (b : Byte) (s : State) : (storeByte a b s).platform = s.platform := by
  unfold storeByte; split <;> rfl
@[simp] theorem storeByte_mem (a : Nat) (b : Byte) (s : State) : (storeByte a b s).mem = s.mem := by
  unfold storeByte; split <;> rfl
@[simp] theorem storeByte_draws (a : Nat) (b : Byte) (s : State) : (storeByte a b s).draws = s.draws := by
  unfold storeByte; split <;> rfl
@[simp] theorem storeByte_loads (a : Nat) (b : Byte) (s : State) : (storeByte a b s).loads = s.loads := by
  unfold storeByte; split <;> rfl
@[simp] theorem storeByte_masters (a : Nat) (b : Byte) (s : State) : (storeByte a b s).masters = s.masters := by
  unfold storeByte; split <;> rfl
@[simp] theorem storeByte_sched (a : Nat) (b : Byte) (s : State) : (storeByte a b s).sched = s.sched := by
  unfold storeByte; split <;> rfl

@[simp] theorem setMaster_reg (k : Nat) (m : Master) (s : State) : (setMaster k m s).reg = s.reg := rfl
@[simp] theorem setMaster_eng (k : Nat) (m : Master) (s : State) : (setMaster k m s).eng = s.eng := rfl
@[simp] theorem setMaster_rst (k : Nat) (m : Master) (s : State) : (setMaster k m s).rst = s.rst := rfl
@[simp] theorem setMaster_platform (k : Nat) (m : Master) (s : State) : (setMaster k m s).platform = s.platform := rfl
@[simp] theorem setMaster_mem (k : Nat) (m : Master) (s : State) : (setMaster k m s).mem = s.mem := rfl
@[simp] theorem setMaster_unseen (k : Nat) (m : Master) (s : State) : (setMaster k m s).unseen = s.unseen := rfl
@[simp] theorem setMaster_raced (k : Nat) (m : Master) (s : State) : (setMaster k m s).raced = s.raced := rfl
@[simp] theorem setMaster_draws (k : Nat) (m : Master) (s : State) : (setMaster k m s).draws = s.draws := rfl
@[simp] theorem setMaster_loads (k : Nat) (m : Master) (s : State) : (setMaster k m s).loads = s.loads := rfl
@[simp] theorem setMaster_masters (k : Nat) (m : Master) (s : State) :
    (setMaster k m s).masters = s.masters.set k m := rfl
@[simp] theorem setMaster_sched (k : Nat) (m : Master) (s : State) : (setMaster k m s).sched = s.sched := rfl

@[simp] theorem setProg_reg (k : Nat) (m : Master) (p : List Stmt) (s : State) : (setProg k m p s).reg = s.reg := rfl
@[simp] theorem setProg_eng (k : Nat) (m : Master) (p : List Stmt) (s : State) : (setProg k m p s).eng = s.eng := rfl
@[simp] theorem setProg_rst (k : Nat) (m : Master) (p : List Stmt) (s : State) : (setProg k m p s).rst = s.rst := rfl
@[simp] theorem setProg_platform (k : Nat) (m : Master) (p : List Stmt) (s : State) :
    (setProg k m p s).platform = s.platform := rfl
@[simp] theorem setProg_mem (k : Nat) (m : Master) (p : List Stmt) (s : State) : (setProg k m p s).mem = s.mem := rfl
@[simp] theorem setProg_unseen (k : Nat) (m : Master) (p : List Stmt) (s : State) :
    (setProg k m p s).unseen = s.unseen := rfl
@[simp] theorem setProg_raced (k : Nat) (m : Master) (p : List Stmt) (s : State) :
    (setProg k m p s).raced = s.raced := rfl
@[simp] theorem setProg_draws (k : Nat) (m : Master) (p : List Stmt) (s : State) :
    (setProg k m p s).draws = s.draws := rfl
@[simp] theorem setProg_loads (k : Nat) (m : Master) (p : List Stmt) (s : State) :
    (setProg k m p s).loads = s.loads := rfl
@[simp] theorem setProg_masters (k : Nat) (m : Master) (p : List Stmt) (s : State) :
    (setProg k m p s).masters = s.masters.set k { m with prog := p } := rfl
@[simp] theorem setProg_sched (k : Nat) (m : Master) (p : List Stmt) (s : State) :
    (setProg k m p s).sched = s.sched := rfl

@[simp] theorem addResult_reg (k : Nat) (m : Master) (p : List Stmt) (n : Nat) (v : Word) (s : State) :
    (addResult k m p n v s).reg = s.reg := rfl
@[simp] theorem addResult_eng (k : Nat) (m : Master) (p : List Stmt) (n : Nat) (v : Word) (s : State) :
    (addResult k m p n v s).eng = s.eng := rfl
@[simp] theorem addResult_rst (k : Nat) (m : Master) (p : List Stmt) (n : Nat) (v : Word) (s : State) :
    (addResult k m p n v s).rst = s.rst := rfl
@[simp] theorem addResult_platform (k : Nat) (m : Master) (p : List Stmt) (n : Nat) (v : Word) (s : State) :
    (addResult k m p n v s).platform = s.platform := rfl
@[simp] theorem addResult_mem (k : Nat) (m : Master) (p : List Stmt) (n : Nat) (v : Word) (s : State) :
    (addResult k m p n v s).mem = s.mem := rfl
@[simp] theorem addResult_unseen (k : Nat) (m : Master) (p : List Stmt) (n : Nat) (v : Word) (s : State) :
    (addResult k m p n v s).unseen = s.unseen := rfl
@[simp] theorem addResult_raced (k : Nat) (m : Master) (p : List Stmt) (n : Nat) (v : Word) (s : State) :
    (addResult k m p n v s).raced = s.raced := rfl
@[simp] theorem addResult_draws (k : Nat) (m : Master) (p : List Stmt) (n : Nat) (v : Word) (s : State) :
    (addResult k m p n v s).draws = s.draws := rfl
@[simp] theorem addResult_loads (k : Nat) (m : Master) (p : List Stmt) (n : Nat) (v : Word) (s : State) :
    (addResult k m p n v s).loads = s.loads := rfl
@[simp] theorem addResult_masters (k : Nat) (m : Master) (p : List Stmt) (n : Nat) (v : Word) (s : State) :
    (addResult k m p n v s).masters = s.masters.set k { prog := p, results := m.results ++ [(n, v)] } := rfl
@[simp] theorem addResult_sched (k : Nat) (m : Master) (p : List Stmt) (n : Nat) (v : Word) (s : State) :
    (addResult k m p n v s).sched = s.sched := rfl

@[simp] theorem popTurn_reg (s : State) : (popTurn s).reg = s.reg := rfl
@[simp] theorem popTurn_eng (s : State) : (popTurn s).eng = s.eng := rfl
@[simp] theorem popTurn_rst (s : State) : (popTurn s).rst = s.rst := rfl
@[simp] theorem popTurn_platform (s : State) : (popTurn s).platform = s.platform := rfl
@[simp] theorem popTurn_mem (s : State) : (popTurn s).mem = s.mem := rfl
@[simp] theorem popTurn_unseen (s : State) : (popTurn s).unseen = s.unseen := rfl
@[simp] theorem popTurn_raced (s : State) : (popTurn s).raced = s.raced := rfl
@[simp] theorem popTurn_draws (s : State) : (popTurn s).draws = s.draws := rfl
@[simp] theorem popTurn_loads (s : State) : (popTurn s).loads = s.loads := rfl
@[simp] theorem popTurn_masters (s : State) : (popTurn s).masters = s.masters := rfl
@[simp] theorem popTurn_sched (s : State) : (popTurn s).sched = s.sched.tail := rfl

@[simp] theorem placeCommand_reg (v : Word) (s : State) : (placeCommand v s).reg = s.reg := rfl
@[simp] theorem placeCommand_eng (v : Word) (s : State) : (placeCommand v s).eng = s.eng := rfl
@[simp] theorem placeCommand_rst (v : Word) (s : State) : (placeCommand v s).rst = s.rst := rfl
@[simp] theorem placeCommand_platform (v : Word) (s : State) : (placeCommand v s).platform = s.platform := rfl
@[simp] theorem placeCommand_mem (v : Word) (s : State) : (placeCommand v s).mem = s.mem := rfl
@[simp] theorem placeCommand_unseen (v : Word) (s : State) : (placeCommand v s).unseen = s.unseen := rfl
@[simp] theorem placeCommand_raced (v : Word) (s : State) : (placeCommand v s).raced = s.raced := rfl
@[simp] theorem placeCommand_draws (v : Word) (s : State) : (placeCommand v s).draws = s.draws := rfl
@[simp] theorem placeCommand_loads (v : Word) (s : State) : (placeCommand v s).loads = s.loads := rfl
@[simp] theorem placeCommand_masters (v : Word) (s : State) :
    (placeCommand v s).masters = placeStmt (wrReg .cmd v) s.masters := rfl
@[simp] theorem placeCommand_sched (v : Word) (s : State) : (placeCommand v s).sched = .host 0 :: s.sched := rfl

@[simp] theorem stepPassInit_reg (s : State) : (stepPassInit s).reg = s.reg := rfl
@[simp] theorem stepPassInit_eng (s : State) :
    (stepPassInit s).eng = { s.eng with hs := iv, nblk := (s.eng.vlen + 8) / 64 + 1, blk := 0, phase := .blockLoad } := rfl
@[simp] theorem stepPassInit_rst (s : State) : (stepPassInit s).rst = s.rst := rfl
@[simp] theorem stepPassInit_platform (s : State) : (stepPassInit s).platform = s.platform := rfl
@[simp] theorem stepPassInit_mem (s : State) : (stepPassInit s).mem = s.mem := rfl
@[simp] theorem stepPassInit_unseen (s : State) : (stepPassInit s).unseen = s.unseen := rfl
@[simp] theorem stepPassInit_raced (s : State) : (stepPassInit s).raced = s.raced := rfl
@[simp] theorem stepPassInit_draws (s : State) : (stepPassInit s).draws = s.draws := rfl
@[simp] theorem stepPassInit_loads (s : State) : (stepPassInit s).loads = s.loads := rfl
@[simp] theorem stepPassInit_masters (s : State) : (stepPassInit s).masters = s.masters := rfl
@[simp] theorem stepPassInit_sched (s : State) : (stepPassInit s).sched = s.sched := rfl

@[simp] theorem stepRound_reg (s : State) : (stepRound s).reg = s.reg := rfl
@[simp] theorem stepRound_eng (s : State) : (stepRound s).eng = roundSequence (roundDatapath s.eng) := rfl
@[simp] theorem stepRound_rst (s : State) : (stepRound s).rst = s.rst := rfl
@[simp] theorem stepRound_platform (s : State) : (stepRound s).platform = s.platform := rfl
@[simp] theorem stepRound_mem (s : State) : (stepRound s).mem = s.mem := rfl
@[simp] theorem stepRound_unseen (s : State) : (stepRound s).unseen = s.unseen := rfl
@[simp] theorem stepRound_raced (s : State) : (stepRound s).raced = s.raced := rfl
@[simp] theorem stepRound_draws (s : State) : (stepRound s).draws = s.draws := rfl
@[simp] theorem stepRound_loads (s : State) : (stepRound s).loads = s.loads := rfl
@[simp] theorem stepRound_masters (s : State) : (stepRound s).masters = s.masters := rfl
@[simp] theorem stepRound_sched (s : State) : (stepRound s).sched = s.sched := rfl

@[simp] theorem stepUpdate_reg (s : State) : (stepUpdate s).reg = s.reg := rfl
@[simp] theorem stepUpdate_rst (s : State) : (stepUpdate s).rst = s.rst := rfl
@[simp] theorem stepUpdate_platform (s : State) : (stepUpdate s).platform = s.platform := rfl
@[simp] theorem stepUpdate_mem (s : State) : (stepUpdate s).mem = s.mem := rfl
@[simp] theorem stepUpdate_unseen (s : State) : (stepUpdate s).unseen = s.unseen := rfl
@[simp] theorem stepUpdate_raced (s : State) : (stepUpdate s).raced = s.raced := rfl
@[simp] theorem stepUpdate_draws (s : State) : (stepUpdate s).draws = s.draws := rfl
@[simp] theorem stepUpdate_loads (s : State) : (stepUpdate s).loads = s.loads := rfl
@[simp] theorem stepUpdate_masters (s : State) : (stepUpdate s).masters = s.masters := rfl
@[simp] theorem stepUpdate_sched (s : State) : (stepUpdate s).sched = s.sched := rfl

/-- The fields of an idle engine that the sequencer branches on. -/
@[simp] theorem idle_phase : Engine.idle.phase = .idle := rfl
@[simp] theorem idle_pass : Engine.idle.pass = .none := rfl

@[simp] theorem resetOn_reg (p : Platform) : (State.resetOn p).reg = HostRegs.reset := rfl
@[simp] theorem resetOn_eng (p : Platform) : (State.resetOn p).eng = Engine.idle := rfl
@[simp] theorem resetOn_rst (p : Platform) : (State.resetOn p).rst = false := rfl
@[simp] theorem resetOn_mem (p : Platform) : (State.resetOn p).mem = [] := rfl
@[simp] theorem resetOn_sched (p : Platform) : (State.resetOn p).sched = [] := rfl
@[simp] theorem resetOn_masters (p : Platform) : (State.resetOn p).masters = [] := rfl

/-- `busy` reads the phase only. -/
theorem busy_eq_true_iff (s : State) : busy s = true ↔ s.eng.phase ≠ .idle := by simp [busy]

theorem busy_eq_false_iff (s : State) : busy s = false ↔ s.eng.phase = .idle := by simp [busy]

theorem busy_congr (s t : State) (h : s.eng.phase = t.eng.phase) : busy s = busy t := by simp [busy, h]

end Sys2Proof.Machine
end

