-- ==== Sys2Proof/Laws/Ops.lean ====
section
/-!
SUPPORT. What the shared operations can do: a source read, loading a sequence of bytes, a host store and its publication,
one lemma each, cited instead of unfolding them.
-/

namespace Sys2Proof.Machine

/-- A quiet byte reads as memory holds it and takes no free value. -/
theorem sourceRead_quiet {s : State} {a : Addr} (d : Nat) (h : QuietByte s a) :
    sourceRead s d a = .byte (s.mem.read a.toNat) d := by
  obtain ⟨h1, h2, h3⟩ := h
  simp [sourceRead, h1, h2, h3]

/-- A read fails exactly when `BusErr` holds. -/
theorem sourceRead_eq_busError (s : State) (d : Nat) (a : Addr) :
    sourceRead s d a = .busError ↔ busErr s.platform a = true := by
  unfold sourceRead
  split_ifs <;> simp_all

/-- A read whose address does not fail answers with a byte. -/
theorem sourceRead_byte {s : State} {a : Addr} (d : Nat) (h : busErr s.platform a = false) :
    ∃ b d', sourceRead s d a = .byte b d' := by
  cases hr : sourceRead s d a with
  | byte b d' => exact ⟨b, d', rfl⟩
  | busError => rw [sourceRead_eq_busError, h] at hr; cases hr

/-- The byte a source stands for when its read is quiet. -/
def quietValue (s : State) : ByteSource → Byte
  | .const b => b
  | .source a => s.mem.read a.toNat
  | .absent => 0

/-- A source is given, and quiet if it is a read. -/
def QuietSource (s : State) : ByteSource → Prop
  | .const _ => True
  | .source a => QuietByte s a
  | .absent => False

/-- Loading quiet sources gives their bytes and takes no free value. -/
theorem fetchBytes_quiet {s : State} {l : List ByteSource} (d : Nat) (h : ∀ x ∈ l, QuietSource s x) :
    fetchBytes s l d = .bytes (l.map (quietValue s)) d := by
  induction l with
  | nil => rfl
  | cons x r ih =>
    have hr := ih fun y hy => h y (List.mem_cons_of_mem _ hy)
    have hx := h x List.mem_cons_self
    cases x with
    | const b => simp [fetchBytes, hr, consByte, quietValue]
    | source a => simp [fetchBytes, sourceRead_quiet d hx, hr, consByte, quietValue]
    | absent => exact hx.elim

/-- Loading gives a byte for every source. -/
theorem fetchBytes_length {s : State} {l : List ByteSource} {d d' : Nat} {bs : List Byte}
    (h : fetchBytes s l d = .bytes bs d') : bs.length = l.length := by
  induction l generalizing d bs with
  | nil => cases h; rfl
  | cons x r ih =>
    cases x with
    | const b =>
      simp only [fetchBytes] at h
      cases hr : fetchBytes s r d with
      | bytes bs' d'' => rw [hr] at h; cases h; simp [ih hr]
      | busError a d'' => rw [hr] at h; cases h
      | absent => rw [hr] at h; cases h
    | source a =>
      simp only [fetchBytes] at h
      cases hb : sourceRead s d a with
      | busError => rw [hb] at h; cases h
      | byte b d1 =>
        rw [hb] at h
        simp only at h
        cases hr : fetchBytes s r d1 with
        | bytes bs' d'' => rw [hr] at h; cases h; simp [ih hr]
        | busError a d'' => rw [hr] at h; cases h
        | absent => rw [hr] at h; cases h
    | absent => cases h

/-- When no source is absent, loading gives bytes or a bus error. -/
theorem fetchBytes_given {s : State} {l : List ByteSource} (d : Nat) (h : ∀ x ∈ l, x ≠ .absent) :
    (∃ bs d', fetchBytes s l d = .bytes bs d') ∨ ∃ a d', fetchBytes s l d = .busError a d' := by
  induction l generalizing d with
  | nil => exact .inl ⟨[], d, rfl⟩
  | cons x r ih =>
    have ih := fun d => ih d fun y hy => h y (List.mem_cons_of_mem _ hy)
    cases x with
    | const b =>
      rcases ih d with ⟨bs, d', hr⟩ | ⟨a, d', hr⟩
      · exact .inl ⟨b :: bs, d', by simp [fetchBytes, hr, consByte]⟩
      · exact .inr ⟨a, d', by simp [fetchBytes, hr, consByte]⟩
    | source a =>
      cases hb : sourceRead s d a with
      | busError => exact .inr ⟨a, d, by simp [fetchBytes, hb]⟩
      | byte b d1 =>
        rcases ih d1 with ⟨bs, d', hr⟩ | ⟨a', d', hr⟩
        · exact .inl ⟨b :: bs, d', by simp [fetchBytes, hb, hr, consByte]⟩
        · exact .inr ⟨a', d', by simp [fetchBytes, hb, hr, consByte]⟩
    | absent => exact (h _ List.mem_cons_self rfl).elim

/-- The addresses read in loading are those of the reads among the sources. -/
theorem mem_readAddrs {l : List ByteSource} {a : Addr} : a ∈ readAddrs l ↔ .source a ∈ l := by
  simp only [readAddrs, List.mem_filterMap]
  constructor
  · rintro ⟨x, hx, h⟩
    cases x <;> simp at h
    exact h ▸ hx
  · exact fun h => ⟨_, h, rfl⟩

/-- When no source is absent and no read fails, loading gives, byte by byte, the constant or the answer of one read, made
after `f i` free values have been taken. -/
theorem fetchBytes_answers {s : State} {l : List ByteSource} (d : Nat) (h : ∀ x ∈ l, x ≠ .absent)
    (hb : ∀ a ∈ readAddrs l, busErr s.platform a = false) :
    ∃ (bs : List Byte) (f : Nat → Nat), fetchBytes s l d = .bytes bs (f l.length) ∧ f 0 = d ∧
      ∀ i, i < l.length →
        (∀ c, l[i]? = some (.const c) → bs[i]? = some c ∧ f (i + 1) = f i) ∧
          ∀ a, l[i]? = some (.source a) → ∃ b, bs[i]? = some b ∧ sourceRead s (f i) a = .byte b (f (i + 1)) := by
  induction l generalizing d with
  | nil => exact ⟨[], fun _ => d, rfl, rfl, by simp⟩
  | cons x r ih =>
    have ih := fun d => ih d (fun y hy => h y (List.mem_cons_of_mem _ hy)) fun a ha =>
      hb a (mem_readAddrs.2 (List.mem_cons_of_mem _ (mem_readAddrs.1 ha)))
    cases x with
    | absent => exact absurd rfl (h _ List.mem_cons_self)
    | const b =>
      obtain ⟨bs, f, h1, h2, h3⟩ := ih d
      refine ⟨b :: bs, fun | 0 => d | n + 1 => f n, by simp [fetchBytes, h1, consByte], rfl, fun i hi => ?_⟩
      cases i with
      | zero => simp [h2]
      | succ i => simpa using h3 i (by simpa using hi)
    | source a =>
      obtain ⟨b, d', hr⟩ := sourceRead_byte d (hb a (mem_readAddrs.2 List.mem_cons_self))
      obtain ⟨bs, f, h1, h2, h3⟩ := ih d'
      refine ⟨b :: bs, fun | 0 => d | n + 1 => f n, by simp [fetchBytes, hr, h1, consByte], rfl, fun i hi => ?_⟩
      cases i with
      | zero => simp [h2, hr]
      | succ i => simpa using h3 i (by simpa using hi)

/-- A host's store of one byte is the newest of the pending stores. -/
@[simp] theorem pendingStores_storeByte (a : Nat) (b : Byte) (s : State) :
    pendingStores (storeByte a b s) = pendingStores s ++ [(a, b)] := by
  unfold storeByte
  split <;> simp [pendingStores]

/-- A host's store of one byte changes the lists of pending stores alone. -/
theorem storeByte_frame (a : Nat) (b : Byte) (s : State) :
    ∃ u r, storeByte a b s = { s with unseen := u, raced := r } ∧ u ++ r = pendingStores s ++ [(a, b)] := by
  refine ⟨(storeByte a b s).unseen, (storeByte a b s).raced, ?_, pendingStores_storeByte a b s⟩
  unfold storeByte
  split <;> rfl

/-- A store made while a command runs makes its own byte one that has been written since acceptance, and no other. -/
theorem isRaced_storeByte {s : State} (h : busy s = true) (a x : Nat) (b : Byte) :
    isRaced (storeByte a b s) x = true ↔ isRaced s x = true ∨ x = a := by
  simp [storeByte, h, isRaced, @eq_comm _ a x]

/-- A store is from then on the last value written to its byte, and every other byte keeps its own. -/
theorem lastWritten_storeByte (a x : Nat) (b : Byte) (s : State) :
    lastWritten (storeByte a b s) x = if x = a then b else lastWritten s x := by
  by_cases h : x = a
  · simp [lastWritten, h]
  · simp [lastWritten, h, Ne.symm h]

/-- A host's read that is not open returns what memory holds. -/
theorem hostRead_quiet {s : State} {a : Addr} (h : hostReadOpen s a = false) : hostRead s a = s.mem.read a.toNat := by
  have h' : (busErr s.platform a || openByte s.platform a) = false := by
    simp only [hostReadOpen, Bool.or_eq_false_iff] at h ⊢
    exact h.1
  simp only [hostRead, h', h]
  rfl

/-- What publishing a pending store can do: nothing, or, with the engine idle, write one pending store to memory and take
it off the pending stores. -/
theorem publishStore_cases (k : Nat) (s : State) :
    publishStore k s = s ∨
      busy s = false ∧ ∃ a b, (a, b) ∈ pendingStores s ∧
        publishStore k s = { s with mem := s.mem.write a b, unseen := (pendingStores s).eraseIdx k, raced := [] } := by
  unfold publishStore
  split
  · exact .inl rfl
  · rename_i hb
    split
    · exact .inl rfl
    · rename_i a b hk
      split
      · exact .inl rfl
      · exact .inr ⟨by simpa using hb, a, b, List.mem_of_getElem? hk, rfl⟩

end Sys2Proof.Machine
end

