-- ==== Sys2Proof/Laws/PerInstr.lean ====
section
/-!
SUPPORT. The family `Encoding`: what the encoding tables say of each command (30_encoding.md R90, R91, R93).
-/

namespace Sys2Proof.Laws.Encoding

/-- The command is well formed, its word is legal with `RSVD` = 0 and its opcode in bits 7:0, and decodes to it. -/
def Statement (i : Instr) : Prop :=
  i.wellFormed = true ∧ commandWordLegal (encode i) = true ∧ (encode i).extractLsb' 0 8 = i.opcode ∧
    decode (encode i) = .ok i

theorem nop : Statement .nop := ⟨rfl, rfl, rfl, rfl⟩

theorem hash : Statement .hash := ⟨rfl, rfl, rfl, rfl⟩

theorem hmac : Statement .hmac := ⟨rfl, rfl, rfl, rfl⟩

theorem clr : Statement .clr := ⟨rfl, rfl, rfl, rfl⟩

end Sys2Proof.Laws.Encoding
end

