-- ==== Sys2Proof/Laws/Port.lean ====
section
/-!
SUPPORT. The register port: what a read and a write at an offset come to, one lemma per case, cited instead of unfolding
`readPort` and `writePort`.
-/

namespace Sys2Proof.Machine

/-- Every register is at its offset (R22). -/
theorem regAt_offsetOf (r : Reg) : regAt (offsetOf r) = some r := by
  cases r <;> try rfl
  rename_i i
  revert i
  decide

theorem readPort_held (off : Byte) (s : State) (h : s.rst = true) : readPort off s = 0 := by simp [readPort, h]

theorem readPort_reg {off : Byte} {s : State} {r : Reg} (hs : s.rst = false) (h : regAt off = some r) :
    readPort off s = readReg s r := by simp [readPort, hs, h]

theorem readPort_none {off : Byte} (s : State) (h : regAt off = none) : readPort off s = 0 := by simp [readPort, h]

theorem writePort_held (off : Byte) (v : Word) (s : State) (h : s.rst = true) : writePort off v s = .next s := by
  simp [writePort, h]

theorem writePort_none {off : Byte} (v : Word) (s : State) (h : regAt off = none) : writePort off v s = .next s := by
  simp [writePort, h]

theorem writePort_cmd {off : Byte} {s : State} (v : Word) (hs : s.rst = false) (h : regAt off = some .cmd) :
    writePort off v s = writeCmd v s := by simp [writePort, hs, h]

theorem writePort_reg {off : Byte} {s : State} {r : Reg} (v : Word) (hs : s.rst = false) (h : regAt off = some r)
    (hr : r ≠ .cmd) : writePort off v s = .next { s with reg := writeHostReg r v s.reg } := by
  cases r <;> simp_all [writePort]

theorem writeCmd_busy (v : Word) (s : State) (h : busy s = true) :
    writeCmd v s = .next { s with reg := { s.reg with ovr := true } } := by simp [writeCmd, h]

theorem writeCmd_idle (v : Word) (s : State) (h : busy s = false) : writeCmd v s = acceptCommand v s := by
  simp [writeCmd, h]

/-- A write to a register other than `CMD` touches no reported error but through `STATUS`, and no digest. -/
theorem writeHostReg_digest (r : Reg) (v : Word) (h : HostRegs) : (writeHostReg r v h).digest = h.digest := by
  cases r
  case status =>
    simp only [writeHostReg, writeStatus, clearReport]
    split_ifs <;> rfl
  all_goals rfl

/-- Everything a write at an offset can do to a state: nothing; set `OVR`; be accepted as a command; or write one
register. -/
theorem writePort_cases {off : Byte} {v : Word} {s t : State} (h : writePort off v s = .next t) :
    t = s ∨
      (s.rst = false ∧ regAt off = some .cmd ∧ busy s = true ∧ t = { s with reg := { s.reg with ovr := true } }) ∨
      (s.rst = false ∧ regAt off = some .cmd ∧ busy s = false ∧ acceptCommand v s = .next t) ∨
      ∃ r, s.rst = false ∧ r ≠ .cmd ∧ t = { s with reg := writeHostReg r v s.reg } := by
  by_cases hs : s.rst = true
  · rw [writePort_held _ _ _ hs] at h
    cases h
    exact .inl rfl
  · rw [Bool.not_eq_true] at hs
    cases hr : regAt off with
    | none => rw [writePort_none _ _ hr] at h; cases h; exact .inl rfl
    | some r =>
      by_cases hc : r = .cmd
      · subst hc
        rw [writePort_cmd _ hs hr] at h
        cases hb : busy s with
        | true => rw [writeCmd_busy _ _ hb] at h; cases h; exact .inr (.inl ⟨hs, rfl, rfl, rfl⟩)
        | false => rw [writeCmd_idle _ _ hb] at h; exact .inr (.inr (.inl ⟨hs, rfl, rfl, h⟩))
      · rw [writePort_reg _ hs hr hc] at h
        cases h
        exact .inr (.inr (.inr ⟨r, hs, hc, rfl⟩))

end Sys2Proof.Machine
end

