-- ==== Sys2Proof/Laws/Sha256.lean ====
section
/-!
SUPPORT. The SHA-256 datapath: rotation and shift bit by bit, the schedule's recurrence, and what one update of the
schedule window does to each entry.
-/

namespace Sys2Proof.Machine

/-- Bit `i` of `rotr(x, n)` is bit `(i + n) mod 32` of `x` (R8). -/
theorem rotr_bit (x : Word) {n i : Nat} (hn : n < 32) (hi : i < 32) :
    (rotr x n).getLsbD i = x.getLsbD ((i + n) % 32) := by
  simp only [rotr, BitVec.getLsbD_rotateRight, Nat.mod_eq_of_lt hn, hi, decide_true, Bool.true_and]
  by_cases h : i < 32 - n
  · simp only [h, decide_true, cond_true]
    congr 1
    omega
  · simp only [h, decide_false, cond_false]
    congr 1
    omega

/-- Bit `i` of `x >> n` is bit `i + n` of `x`, and 0 past its end (R8). -/
theorem shr_bit (x : Word) (n i : Nat) : (shr x n).getLsbD i = (decide (i + n < 32) && x.getLsbD (i + n)) := by
  simp only [shr, BitVec.getLsbD_ushiftRight, Nat.add_comm]
  by_cases h : n + i < 32
  · simp only [h, decide_true, Bool.true_and]
  · rw [BitVec.getLsbD_of_ge _ _ (by omega)]
    simp

@[simp] theorem extendSchedule_length (w : List Word) (n : Nat) : (extendSchedule w n).length = w.length + n := by
  induction n with
  | zero => rfl
  | succ n ih => simp [extendSchedule, ih]; omega

/-- Extending the schedule further changes no word already there. -/
theorem extendSchedule_stable (w : List Word) (n m t : Nat) (h : n ≤ m) (ht : t < w.length + n) :
    (extendSchedule w m).getD t 0 = (extendSchedule w n).getD t 0 := by
  induction m with
  | zero => rw [show n = 0 by omega]
  | succ m ih =>
    by_cases hm : n = m + 1
    · rw [hm]
    · rw [← ih (by omega)]
      simp only [extendSchedule]
      rw [List.getD_append]
      rw [extendSchedule_length]
      omega

/-- The first 16 schedule words are the message words (R139). -/
theorem schedule_message (w : Vector Word 16) {t : Nat} (h : t < 16) : (schedule w.toList).getD t 0 = w[t] := by
  rw [schedule, extendSchedule_stable _ 0 48 t (by omega) (by simp; omega)]
  simp [extendSchedule, List.getD_eq_getElem?_getD, h]

/-- The recurrence of R139. -/
theorem schedule_recurrence {w : List Word} (hw : w.length = 16) {t : Nat} (h : 16 ≤ t) (ht : t < 64) :
    (schedule w).getD t 0 =
      scheduleWord ((schedule w).getD (t - 2) 0) ((schedule w).getD (t - 7) 0) ((schedule w).getD (t - 15) 0)
        ((schedule w).getD (t - 16) 0) := by
  obtain ⟨n, rfl⟩ : ∃ n, t = 16 + n := ⟨t - 16, by omega⟩
  have low : ∀ j, j < 16 + n → (schedule w).getD j 0 = (extendSchedule w n).getD j 0 := fun j hj =>
    extendSchedule_stable w n 48 j (by omega) (by omega)
  rw [low (16 + n - 2) (by omega), low (16 + n - 7) (by omega), low (16 + n - 15) (by omega),
    low (16 + n - 16) (by omega)]
  have hl : (extendSchedule w n).length = 16 + n := by rw [extendSchedule_length, hw]
  have hnew : (schedule w).getD (16 + n) 0 = (extendSchedule w (n + 1)).getD (16 + n) 0 :=
    extendSchedule_stable w (n + 1) 48 _ (by omega) (by omega)
  rw [hnew]
  simp only [extendSchedule]
  rw [List.getD_append_right _ _ _ _ (by omega)]
  simp [hl]

theorem windowBefore_succ (w : Vector Word 16) (n : Nat) :
    windowBefore w (n + 1) = windowUpdate (windowBefore w n) n := by simp [windowBefore, List.range_succ]

/-- What round `t`'s update does to each entry of the window. -/
theorem windowAt_update (w : Vector Word 16) (t j : Nat) :
    windowAt (windowUpdate w t) j =
      if 16 ≤ t ∧ j % 16 = t % 16 then
        scheduleWord (windowAt w (t - 2)) (windowAt w (t - 7)) (windowAt w (t - 15)) (windowAt w t)
      else windowAt w j := by
  unfold windowUpdate
  split
  · rename_i h
    simp only [windowAt, h, true_and]
    rw [Vector.getElem_set]
    split_ifs <;> first | rfl | omega
  · rename_i h
    simp [h]

theorem rounds_succ (ws : List Word) (n : Nat) (v : Words8) :
    rounds ws (n + 1) v = roundWith (roundConstant n) (ws.getD n 0) (rounds ws n v) := by
  simp [rounds, List.range_succ]

/-- `Compress` with its 64 rounds counted by a variable, so that a proof by induction over the rounds can end in it. -/
theorem compress_rounds {n : Nat} (h : n = 64) (hs : Words8) (w : List Word) :
    compress hs w = hs.add (rounds (schedule w) n hs) := by
  subst h
  rfl

theorem hashBlocks_succ (m : List Byte) (n : Nat) :
    hashBlocks m (n + 1) = compress (hashBlocks m n) (blockWords m n) := by simp [hashBlocks, List.range_succ]

@[simp] theorem packWords_length (f : Nat → Byte) : (packWords f).length = 16 := rfl

@[simp] theorem words8_bytes_length (x : Words8) : x.bytes.length = 32 := rfl

@[simp] theorem sha256_length (m : List Byte) : (sha256 m).length = 32 := rfl

@[simp] theorem be64_length (v : BitVec 64) : (be64 v).length = 8 := rfl

end Sys2Proof.Machine
end

