-- ==== Sys2Proof/Laws/Sequencer.lean ====
section
/-!
SUPPORT. The micro-steps: what each comes to in its phase, the fields one `ROUND` and one `UPDATE` leave, and the bytes of a
block when every source read is quiet.
-/

namespace Sys2Proof.Machine

/-- A step on the engine's turn is its micro-step. -/
theorem step_engine {s : State} (h : nextTurn s = .engine) (hr : s.rst = false) : step s = microStep (popTurn s) := by
  simp [step, h, takeTurn, engineTurn, hr]

/-- With no turn decided, a running engine goes on. -/
theorem step_default {s : State} (h : s.sched = []) (hb : busy s = true) (hr : s.rst = false) :
    step s = microStep s := by
  have hp : popTurn s = s := by cases s; simp_all [popTurn]
  rw [step_engine (by simp [nextTurn, h, defaultTurn, hb]) hr, hp]

/-- One step, then `n` more. -/
theorem runSteps_next {n : Nat} {s t : State} (h : step s = .next t) : runSteps (n + 1) s = runSteps n t := by
  simp only [runSteps, h]

/-- `m` steps, then `n` more. -/
theorem runSteps_add {m n : Nat} {s t : State} (h : runSteps m s = .next t) : runSteps (m + n) s = runSteps n t := by
  induction m generalizing s with
  | zero => cases h; rw [Nat.zero_add]
  | succ m ih =>
    rw [show m + 1 + n = (m + n) + 1 by omega]
    simp only [runSteps] at h ⊢
    cases hs : step s with
    | next u => rw [hs] at h; exact ih h
    | fault f => rw [hs] at h; cases h
    | refused r => rw [hs] at h; cases h

theorem microStep_idle {s : State} (h : s.eng.phase = .idle) : microStep s = .next s := by simp [microStep, h]
theorem microStep_keyLoad {s : State} (h : s.eng.phase = .keyLoad) : microStep s = stepKeyLoad s := by
  simp [microStep, h]
theorem microStep_passInit {s : State} (h : s.eng.phase = .passInit) : microStep s = .next (stepPassInit s) := by
  simp [microStep, h]
theorem microStep_blockLoad {s : State} (h : s.eng.phase = .blockLoad) : microStep s = stepBlockLoad s := by
  simp [microStep, h]
theorem microStep_round {s : State} (h : s.eng.phase = .round) : microStep s = .next (stepRound s) := by
  simp [microStep, h]
theorem microStep_update {s : State} (h : s.eng.phase = .update) : microStep s = .next (stepUpdate s) := by
  simp [microStep, h]
theorem microStep_passEnd {s : State} (h : s.eng.phase = .passEnd) : microStep s = stepPassEnd s := by
  simp [microStep, h]

/-- One `ROUND` of the engine, field by field. -/
theorem roundSequence_eq (e : Engine) :
    roundSequence (roundDatapath e) =
      { e with
        w := windowUpdate e.w e.t.toNat
        work := roundWith (roundConstant e.t.toNat) (windowAt (windowUpdate e.w e.t.toNat) e.t.toNat) e.work
        t := if e.t.toNat < 63 then e.t + 1 else 0
        phase := if e.t.toNat < 63 then .round else .update } := by
  by_cases h : e.t.toNat < 63 <;> simp [roundSequence, roundDatapath, h]

/-- One `UPDATE` of the engine, field by field. -/
theorem stepUpdate_eng (s : State) :
    (stepUpdate s).eng =
      { s.eng with
        hs := s.eng.hs.add s.eng.work
        blk := if s.eng.blk.toNat + 1 < s.eng.nblk.toNat then s.eng.blk + 1 else s.eng.blk
        phase := if s.eng.blk.toNat + 1 < s.eng.nblk.toNat then .blockLoad else .passEnd } := by
  by_cases h : s.eng.blk.toNat + 1 < s.eng.nblk.toNat <;> simp [stepUpdate, h]

/-- The address of byte `i` of a range that does not pass the top of memory is exact (R72, R242). -/
theorem addr_exact {a n : BitVec 64} {i : Nat} (h : a.toNat + n.toNat ≤ 2 ^ 64) (hi : i < n.toNat) :
    (a + BitVec.ofNat 64 i).toNat = a.toNat + i := by
  have := n.isLt
  rw [BitVec.toNat_add, BitVec.toNat_ofNat]
  omega

@[simp] theorem memBytes_length (m : Memory) (a n : Nat) : (memBytes m a n).length = n := by simp [memBytes]

theorem memBytes_getD (m : Memory) (a : Nat) {n i : Nat} (h : i < n) : (memBytes m a n).getD i 0 = m.read (a + i) := by
  simp [memBytes, List.getD_eq_getElem?_getD, h]

/-- The virtual message is `eng.vlen` bytes long when `eng.vlen` is as R205 says. -/
theorem virtualMessage_length {s : State} (hv : s.eng.vlen.toNat = virtualLength s.eng) :
    (virtualMessage s).length = s.eng.vlen.toNat := by
  rw [hv]
  unfold virtualMessage virtualLength
  cases s.eng.pass <;> simp [messageBytes, keyBytes, xorByte]

/-- The window that `BLOCK_LOAD` fills holds the packed words of its 64 bytes (R117). -/
theorem loadWindow_toList (f : Nat → Byte) : (loadWindow ((List.range 64).map f)).toList = packWords f := by
  apply List.ext_getElem
  · simp [loadWindow]
  · intro k h1 h2
    rw [packWords_length] at h2
    simp [loadWindow, packWords, List.getD_eq_getElem?_getD]
    congr 1 <;> (rw [List.getElem?_eq_getElem (by simp; omega)]; simp)

/-- A list of exactly `n` bytes as a fixed number of bytes, and back. -/
theorem bytesOfList_toList {n : Nat} {l : List Byte} (h : l.length = n) : (bytesOfList n l).toList = l := by
  apply List.ext_getElem
  · simp [h]
  · intro i h1 h2
    simp [bytesOfList, List.getD_eq_getElem?_getD, h2]

/-- Bytes past the end of the list are zero. -/
theorem bytesOfList_pad (n : Nat) (l : List Byte) (_h : l.length ≤ n) :
    bytesOfList n l = bytesOfList n (l ++ List.replicate (n - l.length) 0) := by
  apply Vector.ext
  intro i hi
  simp only [bytesOfList, Vector.getElem_ofFn]
  by_cases hl : i < l.length
  · rw [List.getD_append _ _ _ _ hl]
  · rw [List.getD_eq_default _ _ (by omega), List.getD_append_right _ _ _ _ (by omega)]
    simp [List.getD_eq_getElem?_getD, List.getElem?_replicate]
    split <;> rfl

end Sys2Proof.Machine
end

