-- ==== Sys2Proof/Tests/Slice0.lean ====
section
/-!
SUPPORT. Tests: what the spec's own tables and examples say, one value or one step each, and a witness for the hypotheses of
every statement in Certificates/Slice0/Obligations.lean. Each comment names the row or rule the expected value is from.
-/

namespace Sys2Proof.Tests

open Sys2Proof.Machine

/-! ## What the states of the tests are made of -/

/-- A platform: the register window at `0xF000`, bus errors from `0x5000` to `0x5FFF` (95_test_vectors.md P4), a device
at `0x9000`. -/
def plat : Platform := ⟨0xF000, [⟨0x5000, 0x1000⟩], [⟨0x9000, 0x10⟩]⟩

/-- The reset state on `plat`. -/
def base : State := State.resetOn plat

/-- The state whose next turn is host 0's transaction `st`, with the host-visible registers `r`. -/
def hostAt (r : HostRegs) (st : Stmt) : State :=
  { base with reg := r, masters := [⟨[st], []⟩], sched := [.host 0] }

/-- The state whose next turn is the engine's, with the internal state `e`. -/
def engineAt (e : Engine) : State := { base with eng := e, sched := [.engine] }

/-- Operand registers that hold these four 64-bit values. -/
def operands (msgAddr msgLen keyAddr keyLen : BitVec 64) : HostRegs :=
  { HostRegs.reset with
    msgAddrLo := loHalf msgAddr, msgAddrHi := hiHalf msgAddr, msgLenLo := loHalf msgLen, msgLenHi := hiHalf msgLen
    keyAddrLo := loHalf keyAddr, keyAddrHi := hiHalf keyAddr, keyLenLo := loHalf keyLen, keyLenHi := hiHalf keyLen }

/-- The engine as `HASH` of 3 bytes at `0x1000` leaves it at acceptance. -/
def hashing : Engine := { Engine.idle with msgAddr := 0x1000, msgLen := 3, vlen := 3, pass := .hash, phase := .passInit }

/-- The same command with its only block about to be loaded. -/
def loading : Engine := { hashing with hs := iv, nblk := 1, phase := .blockLoad }

/-- The command of P4, whose third source read fails, with its only block about to be loaded. -/
def failing : State := engineAt { loading with msgAddr := 0x4FFE, msgLen := 4, vlen := 4 }

/-- One field of a next state. -/
def after {α : Type} (o : Host.Outcome State Fault Refusal) (f : State → α) : Option α :=
  match o with
  | .next t => some (f t)
  | .fault _ => none
  | .refused _ => none

/-! ## Well-formedness and decoding (30_encoding.md R90 to R94) -/

-- R90, V2: `RSVD` is not 0.
theorem test_wf_reserved_refused : reservedZero 0x00000100 = false ∧ commandWordLegal 0x00000100 = false := by decide
-- R93, V5: the first illegal opcode.
theorem test_wf_opcode_refused : opcodeLegal 0x04 = false ∧ commandWordLegal 0x00000004 = false := by decide
-- R91: the four legal words.
theorem test_wf_accepts :
    commandWordLegal 0x00000000 = true ∧ commandWordLegal 0x00000001 = true ∧ commandWordLegal 0x00000002 = true ∧
      commandWordLegal 0x00000003 = true := by decide

-- R90, R91: each word written out bit by bit, `OP` in bits 7:0.
theorem test_decode_nop : decode 0b00000000000000000000000000000000 = .ok .nop := by decide
theorem test_decode_hash : decode 0b00000000000000000000000000000001 = .ok .hash := by decide
theorem test_decode_hmac : decode 0b00000000000000000000000000000010 = .ok .hmac := by decide
theorem test_decode_clr : decode 0b00000000000000000000000000000011 = .ok .clr := by decide
-- V3 to V5, R197.
theorem test_decode_illegal :
    decode 0x00000004 = .error .illegalOpcode ∧ decode 0x000000FF = .error .illegalOpcode ∧
      decode 0x80000001 = .error .reservedBits ∧ decode 0x00000100 = .error .reservedBits := by decide
-- spec/opcode_table.json: each row's match value.
theorem test_decode_table :
    decodeTableWord 32 0x00000000 = some .nop ∧ decodeTableWord 32 0x00000001 = some .hash ∧
      decodeTableWord 32 0x00000002 = some .hmac ∧ decodeTableWord 32 0x00000003 = some .clr ∧
      decodeTableWord 32 0x00000004 = none := by decide
-- R91: the encoder gives the opcode map's words.
theorem test_encode :
    encode .nop = 0 ∧ encode .hash = 1 ∧ encode .hmac = 2 ∧ encode .clr = 3 := by decide

/-! ## The datapath (95_test_vectors.md sections 2 to 5) -/

-- Section 2, R133, R134.
theorem test_ch : ch 0x510e527f 0x9b05688c 0x1f83d9ab = 0x1f85c98c ∧ ch 0xff00ff00 0x12345678 0x9abcdef0 = 0x12bc56f0 := by
  decide
theorem test_maj :
    maj 0x6a09e667 0xbb67ae85 0x3c6ef372 = 0x3a6fe667 ∧ maj 0xff00ff00 0x12345678 0x9abcdef0 = 0x9a34de70 := by decide
-- Section 2, R135 to R138; the all-ones rows tell shifts from rotations.
theorem test_bsig0 :
    bsig0 0x12345678 = 0x66146474 ∧ bsig0 0x00000001 = 0x40080400 ∧ bsig0 0xffffffff = 0xffffffff := by decide
theorem test_bsig1 :
    bsig1 0x12345678 = 0x3561abda ∧ bsig1 0x00000001 = 0x04200080 ∧ bsig1 0xffffffff = 0xffffffff := by decide
theorem test_ssig0 :
    ssig0 0x12345678 = 0xe7fce6ee ∧ ssig0 0x00000001 = 0x02004000 ∧ ssig0 0xffffffff = 0x1fffffff := by decide
theorem test_ssig1 :
    ssig1 0x12345678 = 0xa1f78649 ∧ ssig1 0x00000001 = 0x0000a000 ∧ ssig1 0xffffffff = 0x003fffff := by decide
-- R132: the table's length and a constant of its first, its middle and its last row.
theorem test_round_constants :
    roundConstants.length = 64 ∧ roundConstant 0 = 0x428a2f98 ∧ roundConstant 31 = 0x14292967 ∧
      roundConstant 63 = 0xc67178f2 := by decide
-- R112's corner cases.
theorem test_block_counts :
    nblkOf 0 = 1 ∧ nblkOf 55 = 1 ∧ nblkOf 56 = 2 ∧ nblkOf 64 = 2 ∧ nblkOf 119 = 2 ∧ nblkOf 120 = 3 := by decide
-- Section 3: the padded bytes at the boundary for `n` = 56.
theorem test_padding_56 :
    padByte (List.replicate 56 0x61) 56 = 0x80 ∧ padByte (List.replicate 56 0x61) 119 = 0x00 ∧
      padByte (List.replicate 56 0x61) 126 = 0x01 ∧ padByte (List.replicate 56 0x61) 127 = 0xc0 := by decide
-- R117, R113: the block words of `Pad("abc")`.
theorem test_block_words_abc :
    (blockWords [0x61, 0x62, 0x63] 0).getD 0 0 = 0x61626380 ∧ (blockWords [0x61, 0x62, 0x63] 0).getD 1 0 = 0 ∧
      (blockWords [0x61, 0x62, 0x63] 0).getD 15 0 = 0x00000018 := by decide
-- R9: `be64`, most significant byte first (448 = 0x1c0).
theorem test_be64 : be64 448 = [0, 0, 0, 0, 0, 0, 0x01, 0xc0] := by decide
-- Section 4: the first schedule words of `"abc"` after its message words.
theorem test_schedule_abc :
    (extendSchedule (blockWords [0x61, 0x62, 0x63] 0) 5).drop 16 =
      [0x61626380, 0x000f0000, 0x7da86405, 0x600003c6, 0x3e9d7b78] := by decide
-- R141: round 0 of `"abc"`, every register.
theorem test_round0_abc :
    roundWith (roundConstant 0) 0x61626380 iv =
      ⟨0x5d6aebcd, 0x6a09e667, 0xbb67ae85, 0x3c6ef372, 0xfa2a4622, 0x510e527f, 0x9b05688c, 0x1f83d9ab⟩ := by decide
-- Section 4: the corner case of R141.
theorem test_round_zero : roundWith (roundConstant 0) 0xbd75d068 Words8.zero = Words8.zero := by decide
-- E2, the source's vector for `"abc"`.
theorem test_sha256_abc :
    sha256Words [0x61, 0x62, 0x63] =
      ⟨0xba7816bf, 0x8f01cfea, 0x414140de, 0x5dae2223, 0xb00361a3, 0x96177a9c, 0xb410ff61, 0xf20015ad⟩ := by
  decide +kernel
-- R171, E11: a key shorter than the block is padded on the right.
theorem test_norm_key : normKey (List.replicate 20 0x0b) = List.replicate 20 0x0b ++ List.replicate 44 0x00 := by decide
-- R173, E12.
theorem test_pads : xorByte ipadByte [0x0b, 0x00] = [0x3d, 0x36] ∧ xorByte opadByte [0x0b, 0x00] = [0x57, 0x5c] := by
  decide

/-! ## One step of each command (95_test_vectors.md section 6) -/

-- V1: `NOP` after reset, as the first instruction.
theorem test_nop_after_reset : after (step (State.reset.withFetchWord 32 0)) statusWord = some 0x00000002 := by decide
-- V10: `NOP` keeps `OVR`; V7: acceptance clears the error report.
theorem test_nop_keeps_overrun :
    after (step (hostAt { HostRegs.reset with ovr := true, err := true, errCode := .illegalCmd } (cmdStmt .nop))) statusWord =
      some 0x0000000A := by decide
-- V11, R194: `CLR` clears `OVR` and `DIGEST`.
theorem test_clr_clears_digest :
    after (step (hostAt { HostRegs.reset with done := true, digest := iv } (cmdStmt .clr))) (fun t => t.reg.digest) =
      some Words8.zero := by decide
theorem test_clr_clears_overrun :
    after (step (hostAt { HostRegs.reset with done := true, ovr := true } (cmdStmt .clr))) statusWord = some 0x00000002 := by
  decide
-- V16: `HASH` of 2^61 - 1 bytes is accepted; V18: too large has priority over out of range.
theorem test_hash_accepts_largest :
    after (step (hostAt (operands 0 0x1FFFFFFFFFFFFFFF 0 0) (cmdStmt .hash))) statusWord = some 0x00000001 := by decide
theorem test_hash_too_large_first :
    after (step (hostAt (operands 0xFFFFFFFFFFFFFFF0 0x2000000000000020 0 0) (cmdStmt .hash))) statusWord =
      some 0x00000204 := by decide
-- V23: `HMAC` of 2^61 - 65 bytes under a 10-byte key goes on with `KEYLOAD`; V22: the key's range comes first.
theorem test_hmac_accepts_largest :
    after (step (hostAt (operands 0 (2 ^ 61 - 65) 0x5000 10) (cmdStmt .hmac))) (fun t => (statusWord t, t.eng.phase)) =
      some (0x00000001, .keyLoad) := by decide +kernel
theorem test_hmac_key_range_first :
    after (step (hostAt (operands 0xFFFFFFFFFFFFFFFF 2 0xFFFFFFFFFFFFFFFB 10) (cmdStmt .hmac))) statusWord =
      some 0x00000504 := by decide

/-! ## One step of the engine and of a host -/

-- V2: an illegal word after reset.
theorem test_illegal_after_reset : after (step (State.reset.withFetchWord 32 0x100)) statusWord = some 0x00000104 := by
  decide
-- V8: any `CMD` write while a command runs.
theorem test_drop_while_busy :
    after (step { hostAt HostRegs.reset (wrReg .cmd 3) with eng := hashing }) statusWord = some 0x00000009 := by decide
-- R211: `eng.vlen` = 3 gives `eng.nblk` = 1.
theorem test_pass_init : after (step (engineAt hashing)) (fun t => (t.eng.nblk, t.eng.hs, t.eng.phase)) =
    some (1, iv, .blockLoad) := by decide +kernel
-- R212: the window for `"abc"` at `0x1000`.
theorem test_block_load_abc :
    after (step { engineAt loading with mem := [(0x1000, 0x61), (0x1001, 0x62), (0x1002, 0x63)] })
        (fun t => (t.eng.w[0], t.eng.w[1], t.eng.w[15], t.eng.work, t.eng.phase)) =
      some (0x61626380, 0, 0x00000018, iv, .round) := by decide +kernel
-- V19's second step: the block's third read fails, and no partial result is left.
theorem test_block_load_bus_error :
    after (step failing) (fun t => (statusWord t, t.reg.errAddr, t.eng)) = some (0x00000604, 0x5000, Engine.idle) := by decide +kernel
-- V24: `KEYLOAD`'s first read fails.
theorem test_key_load_bus_error :
    after (step (engineAt { Engine.idle with keyAddr := 0x5000, keyLen := 10, phase := .keyLoad }))
        (fun t => (statusWord t, t.reg.errAddr)) = some (0x00000604, 0x5000) := by decide +kernel
-- R213: round 0 of `"abc"`, whose `W[0]` is `0x61626380`.
theorem test_round_step :
    after (step (engineAt { loading with work := iv, w := Vector.replicate 16 0x61626380, phase := .round }))
        (fun t => (t.eng.work.a, t.eng.work.e, t.eng.t)) = some (0x5d6aebcd, 0xfa2a4622, 1) := by decide
-- R215: `HS[0] + a` for `"abc"`, and the last block goes on with `PASS_END`.
theorem test_update_step :
    after (step (engineAt { loading with work := { Words8.zero with a := 0x506e3058 }, phase := .update }))
        (fun t => (t.eng.hs.a, t.eng.phase)) = some (0xba7816bf, .passEnd) := by decide
-- R216: the end of a `HASH`.
theorem test_pass_end_hash :
    after (step (engineAt { loading with hs := iv, phase := .passEnd })) (fun t => (statusWord t, t.reg.digest, t.eng)) =
      some (0x00000002, iv, Engine.idle) := by decide
-- V45: reset while a command runs.
theorem test_reset_while_busy :
    after (step { engineAt loading with sched := [.reset true] }) (fun t => (statusWord t, t.eng, t.reg)) =
      some (0, Engine.idle, HostRegs.reset) := by decide
-- R21, R270: `rst` is active high, so a low `rst` driven low stops no command; R270: its release gives the reset state.
theorem test_reset_low_again :
    after (step { engineAt loading with sched := [.reset false] }) (fun t => (t.eng, t.reg.ie)) = some (loading, false) ∧
      after (step { engineAt loading with rst := true, reg := operands 1 2 3 4, sched := [.reset false] })
        (fun t => (t.eng, t.reg, t.rst)) = some (Engine.idle, HostRegs.reset, false) := by decide
-- R80 case 1: with a store of a running command's time still pending, a later store to the byte is the last to arrive.
theorem test_stores_stay_in_order :
    let s := { hostAt HostRegs.reset (.store 0x1000 [2]) with raced := [(0x1000, 1)], sched := [] }
    after (runSteps 3 { s with sched := [.host 0, .publish 0, .publish 0] }) (fun t => (t.mem, pendingStores t)) =
      some ([(0x1000, 2)], []) := by decide
-- R81: a publication never passes an older store to the same byte.
theorem test_publish_keeps_order :
    after (step { base with unseen := [(0x1000, 1), (0x1000, 2)], sched := [.publish 1] })
      (fun t => (t.mem, pendingStores t)) = some ([], [(0x1000, 1), (0x1000, 2)]) := by decide
-- R20: a host's read of source memory.
theorem test_host_load :
    after (step { hostAt HostRegs.reset (.load 0x1001 7) with mem := [(0x1001, 0x62)] })
      (fun t => (t.masters, t.mem, t.loads)) = some ([⟨[], [(7, 0x62)]⟩], [(0x1001, 0x62)], 0) := by decide
-- V31, V34, V40, V41: reads.
theorem test_reads :
    readPort 0x00 base = 0x53323536 ∧ readPort 0x0C base = 0 ∧ readPort 0x02 base = 0 ∧ readPort 0x38 base = 0 ∧
      readPort 0xFC base = 0 := by decide
-- V33: `CTRL` keeps bit 0.
theorem test_ctrl_write : after (writePort 0x04 0xFFFFFFFF base) (readPort 0x04) = some 0x00000001 := by decide
-- V35, V36: the error report is cleared by bit 2 of `STATUS` alone.
theorem test_status_write :
    let s := { base with reg := { HostRegs.reset with err := true, ovr := true, errCode := .busError, errAddr := 0x5000 } }
    readPort 0x08 s = 0x0000060C ∧ after (writePort 0x08 0x00000008 s) statusWord = some 0x00000604 ∧
      after (writePort 0x08 0x0000000C s) (fun t => (statusWord t, t.reg.errAddr)) = some (0, 0) := by decide
-- V38, V39: `irq`, and its mask.
theorem test_irq :
    irq { base with reg := { HostRegs.reset with ie := true, done := true } } = true ∧
      irq { base with reg := { HostRegs.reset with done := true } } = false ∧
      irq { base with reg := { HostRegs.reset with ie := true, ovr := true } } = false := by decide
-- V42: `DIGEST0` ignores writes; V43: a busy engine's registers may be written.
theorem test_operand_write_while_busy :
    after (writePort 0x18 0x100 { base with eng := hashing }) (fun t => (t.reg.msgLenLo, t.eng.msgLen)) = some (0x100, 3) := by
  decide
theorem test_digest_write_ignored : after (writePort 0x40 0x12345678 base) (readPort 0x40) = some 0 := by decide
-- R96: the expansion of `SETMSG`, as P1 encodes it.
theorem test_setmsg :
    setMsg 0x1000 3 = [.wr 0x10 0x1000, .wr 0x14 0, .wr 0x18 3, .wr 0x1C 0] ∧ waitIdle = [.poll 0x08 1 0] ∧
      ackStatus = [.wr 0x08 0x0E] ∧ (getDigest 0).getD 7 (.rd 0 0) = .rd 0x5C 7 := by decide

/-! ## Witnesses: states and operands that meet the hypotheses of the statements, each clause at its bounds -/

/-- What makes a state's invariant a question that evaluation answers. -/
theorem inv_of_checks {s : State}
    (h1 : busy s = true →
      s.reg.done = false ∧ s.reg.err = false ∧ s.reg.errCode = .none ∧ s.reg.errAddr = 0 ∧ s.reg.digest = Words8.zero)
    (h2 : s.reg.err = false ↔ s.reg.errCode = .none) (h3 : ¬(s.reg.done = true ∧ s.reg.err = true))
    (h4 : s.reg.errAddr ≠ 0 → s.reg.errCode = .busError) (h5 : s.eng.phase = .idle → s.eng = Engine.idle)
    (h6 : s.eng.phase = .blockLoad ∨ s.eng.phase = .round ∨ s.eng.phase = .update →
      s.eng.blk.toNat < s.eng.nblk.toNat ∧ s.eng.pass ≠ .none)
    (h7 : s.eng.pass = .none ↔ s.eng.phase = .idle ∨ s.eng.phase = .keyLoad) (h8 : operandsChecked s.eng)
    (h9 : passRegisters s.eng) (h10 : s.mem.wf = true ∧ ∀ c ∈ pendingStores s, c.1 < memorySize)
    (h11 : s.rst = true → s.reg = HostRegs.reset ∧ s.eng = Engine.idle) : s.Inv :=
  ⟨⟨h1, h2, h3, h4, h5, h6⟩, h7, h8, h9, h10, h11⟩

-- AssertedResetWinsAtAnyMoment: both levels, with a command running. OnlyItsOwnEndOrResetStopsACommand: `rst` is asserted,
-- and the invariant's clause holds.
theorem witness_reset_turn :
    nextTurn { engineAt hashing with sched := [.reset true] } = .reset true ∧
      nextTurn { engineAt hashing with sched := [.reset false] } = .reset false ∧ busy (engineAt hashing) = true ∧
      after (step { engineAt hashing with sched := [.reset true] }) busy = some false := by decide
theorem witness_reset_held : resetHeld { engineAt hashing with sched := [.reset true] } := by
  unfold resetHeld
  decide
-- EveryStepKeepsTheInvariant, OnlyStoresOutsideMemoryStop (first clause), CommandEndsWithOneOutcome: invariant states.
theorem witness_inv_loading : (engineAt loading).Inv :=
  inv_of_checks (by decide) (by decide) (by decide) (by decide) (by decide) (by decide) (by decide)
    (by unfold operandsChecked; decide) (by unfold passRegisters inBlock; decide) (by decide) (by decide)
theorem witness_inv_step : after (step (engineAt loading)) (fun t => t.eng.phase) = some .round := by decide +kernel
theorem witness_inv_pass_end : (engineAt { loading with phase := .passEnd }).Inv :=
  inv_of_checks (by decide) (by decide) (by decide) (by decide) (by decide) (by decide) (by decide)
    (by unfold operandsChecked; decide) (by unfold passRegisters inBlock; decide) (by decide) (by decide)
theorem witness_ends_done :
    busy (engineAt { loading with phase := .passEnd }) = true ∧
      after (step (engineAt { loading with phase := .passEnd })) (fun t => (busy t, t.reg.done)) = some (false, true) := by
  decide
-- CommandEndsWithOneOutcome, the bus error; its state is an invariant one.
theorem witness_inv_failing : (engineAt { loading with msgAddr := 0x5000 }).Inv :=
  inv_of_checks (by decide) (by decide) (by decide) (by decide) (by decide) (by decide) (by decide)
    (by unfold operandsChecked; decide) (by unfold passRegisters inBlock; decide) (by decide) (by decide)
theorem witness_ends_bus_error :
    after (step (engineAt { loading with msgAddr := 0x5000 })) (fun t => (busy t, t.reg.err)) = some (false, true) := by
  decide +kernel
-- OnlyStoresOutsideMemoryStop, second clause: the first address that does not exist.
theorem witness_store_outside_inv : (hostAt HostRegs.reset (.store (2 ^ 64) [1])).Inv :=
  inv_of_checks (by decide) (by decide) (by decide) (by decide) (by decide) (by decide) (by decide)
    (by unfold operandsChecked; decide) (by unfold passRegisters inBlock; decide) (by decide) (by decide)
theorem witness_store_outside : step (hostAt HostRegs.reset (.store (2 ^ 64) [1])) = .fault .storeOutsideMemory := by rfl
-- StepRunsTheDecodedCommand, for each command.
theorem witness_command_next (i : Instr) :
    CommandNext (hostAt HostRegs.reset (cmdStmt i)) 0 ⟨[cmdStmt i], []⟩ (encode i) [] ∧
      (hostAt HostRegs.reset (cmdStmt i)).rst = false ∧ busy (hostAt HostRegs.reset (cmdStmt i)) = false ∧
      decode (encode i) = .ok i ∧ i.wellFormed = true := by
  cases i <;> exact ⟨⟨rfl, rfl, rfl⟩, rfl, rfl, rfl, rfl⟩
-- IllegalWordRaisesIllegalCmd: each way of being illegal, at its bound.
theorem witness_illegal :
    CommandNext (hostAt HostRegs.reset (wrReg .cmd 0x100)) 0 ⟨[wrReg .cmd 0x100], []⟩ 0x100 [] ∧
      CommandNext (hostAt HostRegs.reset (wrReg .cmd 0x04)) 0 ⟨[wrReg .cmd 0x04], []⟩ 0x04 [] ∧
      (0x100 : Word).extractLsb' 8 24 ≠ 0 ∧ 4 ≤ ((0x04 : Word).extractLsb' 0 8).toNat :=
  ⟨⟨rfl, rfl, rfl⟩, ⟨rfl, rfl, rfl⟩, by decide, by decide⟩
-- CommandWriteWhileBusyIsDropped, HostsCannotDisturbARunningCommand, OnlyTheResultReachesTheDigest: a busy engine.
theorem witness_command_while_busy :
    let s := { hostAt HostRegs.reset (wrReg .cmd 3) with eng := hashing }
    CommandNext s 0 ⟨[wrReg .cmd 3], []⟩ 3 [] ∧ s.rst = false ∧ busy s = true ∧ after (step s) (fun t => t.reg.ovr) = some true :=
  ⟨⟨rfl, rfl, rfl⟩, rfl, by decide, by decide⟩
-- NopSetsDoneOnly and ClrClearsResultAndOverrun, the clause about `STATUS`.
theorem witness_no_report : base.reg.err = false ∧ base.reg.errCode = .none := by decide
-- HashStartsItsPass: the longest message, and a range that ends at the top of memory.
theorem witness_hash_operands :
    let r := operands 0 (2 ^ 61 - 1) 0 0
    let q := operands 0xFFFFFFFFFFFFFFF0 16 0 0
    (msgLenOf r).toNat < 2 ^ 61 ∧ (msgAddrOf r).toNat + (msgLenOf r).toNat ≤ 2 ^ 64 ∧
      (msgLenOf q).toNat < 2 ^ 61 ∧ (msgAddrOf q).toNat + (msgLenOf q).toNat = 2 ^ 64 := by decide +kernel
-- HmacStartsWithItsKey: keys of 64 and of 65 bytes, and the longest message.
theorem witness_hmac_operands :
    let r := operands 0 (2 ^ 61 - 65) 0xFFFFFFFFFFFFFFC0 64
    let q := operands 0 0 0 65
    (keyLenOf r).toNat = 64 ∧ (msgLenOf r).toNat < 2 ^ 61 - 64 ∧ (keyAddrOf r).toNat + (keyLenOf r).toNat ≤ 2 ^ 64 ∧
      (msgAddrOf r).toNat + (msgLenOf r).toNat ≤ 2 ^ 64 ∧ ¬(keyLenOf q).toNat ≤ 64 ∧ (keyLenOf q).toNat < 2 ^ 61 := by
  decide +kernel
-- FailedChecksRaiseTheFirstError: each condition alone, at its bound.
theorem witness_failed_checks :
    2 ^ 61 ≤ (msgLenOf (operands 0 (2 ^ 61) 0 0)).toNat ∧
      2 ^ 64 < (msgAddrOf (operands 0xFFFFFFFFFFFFFFFF 2 0 0)).toNat + (msgLenOf (operands 0xFFFFFFFFFFFFFFFF 2 0 0)).toNat ∧
      2 ^ 61 ≤ (keyLenOf (operands 0 0 0 (2 ^ 61))).toNat ∧ 2 ^ 61 - 64 ≤ (msgLenOf (operands 0 (2 ^ 61 - 64) 0 0)).toNat ∧
      2 ^ 64 < (keyAddrOf (operands 0 0 0xFFFFFFFFFFFFFFFF 2)).toNat + (keyLenOf (operands 0 0 0xFFFFFFFFFFFFFFFF 2)).toNat := by
  decide +kernel
-- IdIsConstant, CtrlKeepsInterruptEnableOnly, StatusReadsItsFields, StatusWriteClearsWhatItNames, IrqFollowsTheRegisters:
-- `rst` released. OperandRegistersHoldTheLastWrite: the first and the last offset of its list, and one outside it.
theorem witness_rst_released : base.rst = false ∧ (engineAt hashing).rst = false := by decide
theorem witness_operand_offsets :
    (0x10 : Byte) ∈ ([0x10, 0x14, 0x18, 0x1C, 0x20, 0x24, 0x28, 0x2C] : List Byte) ∧
      (0x2C : Byte) ∈ ([0x10, 0x14, 0x18, 0x1C, 0x20, 0x24, 0x28, 0x2C] : List Byte) ∧ (0x30 : Byte) ≠ 0x2C := by decide
-- R22, R92: the halves of an operand, each at its offset.
theorem test_operand_halves :
    let s := { base with reg := operands 0x0000000100000002 0x0000000300000004 0x0000000500000006 0x0000000700000008 }
    [readPort 0x10 s, readPort 0x14 s, readPort 0x18 s, readPort 0x1C s, readPort 0x20 s, readPort 0x24 s,
        readPort 0x28 s, readPort 0x2C s] = [2, 1, 4, 3, 6, 5, 8, 7] ∧
      msgAddrOf s.reg = 0x0000000100000002 ∧ keyLenOf s.reg = 0x0000000700000008 := by decide
-- ReadOnlyAndReservedIgnoreWrites: the bounds of its ranges.
theorem witness_offsets :
    0x30 ≤ (0x30 : Byte).toNat ∧ (0xFF : Byte).toNat < 0x100 ∧ 0x38 ≤ (0x38 : Byte).toNat ∧ (0x3F : Byte).toNat < 0x40 ∧
      0x60 ≤ (0x60 : Byte).toNat := by decide
-- OddAccessesHaveNoEffect: a narrow access, one with a lane disabled, one that is not aligned.
theorem witness_odd_access (a : Access)
    (_h : a = ⟨true, 0x0C, 1, 0b1111, 0⟩ ∨ a = ⟨false, 0x08, 4, 0b0111, 0⟩ ∨ a = ⟨true, 0x0E, 4, 0b1111, 0⟩) :
    StmtNext (hostAt HostRegs.reset (.access a 0)) 0 ⟨[.access a 0], []⟩ (.access a 0) [] := ⟨rfl, rfl, rfl⟩
theorem witness_odd_conditions :
    (1 : Nat) ≠ 4 ∧ (0b0111 : BitVec 4) ≠ 0b1111 ∧ (0x0E : Byte).toNat % 4 ≠ 0 := by decide
-- OddAccessesHaveNoEffect, its clause about whole words: a write, and a read.
theorem witness_word_access (a : Access)
    (_h : a = ⟨true, 0x0C, 4, 0b1111, 3⟩ ∨ a = ⟨false, 0x5C, 4, 0b1111, 0⟩) :
    StmtNext (hostAt HostRegs.reset (.access a 0)) 0 ⟨[.access a 0], []⟩ (.access a 0) [] ∧ a.bytes = 4 ∧
      a.lanes = 0b1111 ∧ a.off.toNat % 4 = 0 := by
  obtain rfl | rfl := _h <;> exact ⟨⟨rfl, rfl, rfl⟩, rfl, rfl, rfl⟩
-- HostReadsChangeNothing, PollRepeatsUntilItsCondition: a condition that holds, and one that does not yet.
theorem witness_read_next : StmtNext (hostAt HostRegs.reset (.rd 0x08 7)) 0 ⟨[.rd 0x08 7], []⟩ (.rd 0x08 7) [] :=
  ⟨rfl, rfl, rfl⟩
theorem witness_poll_next :
    let s := hostAt HostRegs.reset (.poll 0x08 1 0)
    StmtNext s 0 ⟨[.poll 0x08 1 0], []⟩ (.poll 0x08 1 0) [] ∧ readPort 0x08 s &&& 1 = 0 ∧
      readPort 0x08 { s with eng := hashing } &&& 1 ≠ 0 :=
  ⟨⟨rfl, rfl, rfl⟩, by decide, by decide⟩
-- PublishedStoreIsRead: a store whose publication is the turn after it, with an older store to another byte pending.
theorem witness_store_then_publish :
    let s :=
      { hostAt HostRegs.reset (.store 0x1000 [0x61]) with unseen := [(0x0FFF, 1)], sched := [.host 0, .publish 1] }
    StmtNext s 0 ⟨[.store 0x1000 [0x61]], []⟩ (.store 0x1000 [0x61]) [] ∧ busy s = false ∧
      (∀ c ∈ pendingStores s, c.1 ≠ 0x1000) ∧ s.mem.wf = true ∧ 0x1000 < memorySize ∧
      after (step s) (fun t => t.sched) = some [.publish (pendingStores s).length] :=
  ⟨⟨rfl, rfl, rfl⟩, by decide, by decide, by decide, by decide, by decide⟩
-- HostsCannotDisturbARunningCommand and MemoryEndsWithTheLastValueWritten, the clauses about a `STORE`: one while busy.
theorem witness_store_while_busy :
    let s := { hostAt HostRegs.reset (.store 0x1000 [2]) with eng := hashing, raced := [(0x1000, 1)] }
    StmtNext s 0 ⟨[.store 0x1000 [2]], []⟩ (.store 0x1000 [2]) [] ∧ busy s = true ∧ s.mem.wf = true ∧
      after (step s) (fun t => (lastWritten t 0x1000, isRaced t 0x1000, isRaced t 0x1001)) = some (2, true, false) :=
  ⟨⟨rfl, rfl, rfl⟩, by decide, by decide, by decide⟩
-- MemoryEndsWithTheLastValueWritten: a publication, after which no store to the byte is pending.
theorem witness_publish :
    let s := { base with raced := [(0x1000, 1)], sched := [.publish 0] }
    busy s = false ∧ nextTurn s = .publish 0 ∧
      after (step s) (fun t => (pendingStores t, lastWritten t 0x1000)) = some ([], 1) := by decide
-- HostReadsOfMemoryChangeNothing: a byte with a store to it pending; its address is neither failing nor a device.
theorem witness_load_next :
    let s := { hostAt HostRegs.reset (.load 0x1000 7) with unseen := [(0x1000, 1)] }
    StmtNext s 0 ⟨[.load 0x1000 7], []⟩ (.load 0x1000 7) [] ∧ busErr s.platform 0x1000 = false ∧
      openByte s.platform 0x1000 = false :=
  ⟨⟨rfl, rfl, rfl⟩, by decide, by decide⟩
-- BytesArePackedBigEndian: the last word's last byte, and the last of 16 block words.
theorem witness_last_byte : (7 : Nat) < 8 ∧ (3 : Nat) < 4 ∧ (15 : Nat) < 16 := by decide
-- SourceReadReturnsAHeldValue: a quiet byte, a failing one, and one written since acceptance.
theorem witness_source_bytes :
    (busErr plat 0x1000 = false ∧ openByte plat 0x1000 = false ∧ isRaced base 0x1000 = false) ∧ busErr plat 0x5FFF = true ∧
      isRaced { base with raced := [(0x1000, 1)] } 0x1000 = true := by decide
-- EachByteIsReadOnceInOrder: a key of 64 bytes; a pass of each kind with its registers.
theorem witness_pass_reads :
    ({ Engine.idle with keyLen := 64 } : Engine).keyLen.toNat ≤ 64 ∧ loading.vlen.toNat = virtualLength loading ∧
      loading.vlen.toNat < 2 ^ 61 ∧ loading.nblk.toNat = nblkOf loading.vlen.toNat ∧
      virtualLength { Engine.idle with pass := .keyHash, keyLen := 65 } = 65 ∧
      virtualLength { Engine.idle with pass := .inner } = 64 ∧ virtualLength { Engine.idle with pass := .outer } = 96 := by
  decide
-- KeyLoadPadsTheKey: a key of 64 bytes that ends at the top of memory.
theorem witness_key_load :
    let s := engineAt { Engine.idle with keyAddr := 0xFFFFFFFFFFFFFFC0, keyLen := 64, phase := .keyLoad }
    nextTurn s = .engine ∧ s.rst = false ∧ s.eng.phase = .keyLoad ∧ s.eng.keyLen.toNat ≤ 64 ∧
      s.eng.keyAddr.toNat + s.eng.keyLen.toNat ≤ 2 ^ 64 ∧ QuietRange s s.eng.keyAddr s.eng.keyLen := by
  refine ⟨by decide, by decide, by decide, by decide, by decide, ?_⟩
  unfold QuietRange QuietByte
  decide +kernel
-- PassInitCountsTheBlocks: the longest virtual message.
theorem witness_pass_init :
    let s := engineAt { hashing with msgLen := 2 ^ 61 - 1, vlen := 2 ^ 61 - 1 }
    nextTurn s = .engine ∧ s.rst = false ∧ s.eng.phase = .passInit ∧ s.eng.vlen.toNat < 2 ^ 61 := by decide +kernel
/-- A property of every address read, from the addresses themselves. -/
theorem all_reads {l l' : List Addr} {P : Addr → Prop} (h : l = l') (h' : l'.Forall P) : ∀ a ∈ l, P a :=
  h ▸ List.forall_iff_forall_mem.1 h'
-- R74, R205: the block of a message of three bytes reads those three bytes; a key of two bytes is read at its two addresses.
theorem test_block_reads : readAddrs (blockSources loading) = [0x1000, 0x1001, 0x1002] := by rfl
theorem test_key_reads :
    readAddrs (keySources { Engine.idle with keyAddr := 0x9000, keyLen := 2, phase := .keyLoad }) = [0x9000, 0x9001] := by
  rfl
-- BlockLoadTakesTheCurrentBlock: the three bytes that it reads are quiet.
theorem witness_block_load :
    (engineAt loading).Inv ∧ nextTurn (engineAt loading) = .engine ∧ (engineAt loading).rst = false ∧
      (engineAt loading).eng.phase = .blockLoad ∧
      ∀ a ∈ readAddrs (blockSources loading), QuietByte (engineAt loading) a := by
  refine ⟨witness_inv_loading, by decide, by decide, by decide, all_reads test_block_reads ?_⟩
  unfold QuietByte
  simp only [List.Forall]
  decide
-- LoadsTakeOneAnswerPerByteRead: a block with a raced byte, and a key that lies in a device.
theorem witness_load_raced :
    let s := { engineAt loading with raced := [(0x1001, 7)] }
    nextTurn s = .engine ∧ s.rst = false ∧ s.eng.phase = .blockLoad ∧ isRaced s 0x1001 = true ∧
      (∀ x ∈ blockSources loading, x ≠ .absent) ∧ ∀ a ∈ readAddrs (blockSources loading), busErr s.platform a = false := by
  refine ⟨by decide, by decide, by decide, by decide, by decide +kernel, all_reads test_block_reads ?_⟩
  simp only [List.Forall]
  decide
theorem witness_load_device :
    let e := { Engine.idle with keyAddr := 0x9000, keyLen := 2, phase := .keyLoad }
    nextTurn (engineAt e) = .engine ∧ (engineAt e).eng.phase = .keyLoad ∧ openByte plat 0x9000 = true ∧
      (∀ x ∈ keySources e, x ≠ .absent) ∧ ∀ a ∈ readAddrs (keySources e), busErr plat a = false := by
  refine ⟨by decide, by decide, by decide, by decide +kernel, all_reads test_key_reads ?_⟩
  simp only [List.Forall]
  decide
-- RoundUpdatesWindowAndRegisters, UpdateAddsTheWorkingRegisters: the last round, and an update that is not the last.
theorem witness_round_and_update :
    let r := engineAt { loading with t := 63, phase := .round }
    let u := engineAt { loading with nblk := 2, phase := .update }
    nextTurn r = .engine ∧ r.rst = false ∧ r.eng.phase = .round ∧ ¬r.eng.t.toNat < 63 ∧
      nextTurn u = .engine ∧ u.eng.phase = .update ∧ u.eng.blk.toNat + 1 < u.eng.nblk.toNat := by decide
-- PassEndPassesTheHashOn: each pass.
theorem witness_pass_end (p : Pass) (_h : p ≠ .none) :
    let s := engineAt { loading with pass := p, phase := .passEnd }
    nextTurn s = .engine ∧ s.rst = false ∧ s.eng.phase = .passEnd ∧ s.eng.pass = p := ⟨rfl, rfl, rfl, rfl⟩
-- FirstFailingReadEndsTheCommand: the third byte of a block fails (P4), and the first byte of a key (V24).
theorem witness_first_failing_read :
    nextTurn failing = .engine ∧ failing.rst = false ∧ failing.eng.phase = .blockLoad ∧
      (blockSources failing.eng)[2]? = some (.source 0x5000) ∧ busErr failing.platform 0x5000 = true ∧
      ∀ j, j < 2 →
        (blockSources failing.eng)[j]? ≠ some .absent ∧
          ∀ b, (blockSources failing.eng)[j]? = some (.source b) → busErr failing.platform b = false := by
  have h0 : (blockSources failing.eng)[0]? = some (.source 0x4FFE) := by decide +kernel
  have h1 : (blockSources failing.eng)[1]? = some (.source 0x4FFF) := by decide +kernel
  refine ⟨by decide, by decide, by decide, by decide +kernel, by decide, ?_⟩
  intro j hj
  obtain rfl | rfl : j = 0 ∨ j = 1 := by omega
  · rw [h0]
    exact ⟨by decide, fun b hb => by cases hb; decide⟩
  · rw [h1]
    exact ⟨by decide, fun b hb => by cases hb; decide⟩
theorem witness_first_failing_key :
    let s := engineAt { Engine.idle with keyAddr := 0x5000, keyLen := 10, phase := .keyLoad }
    nextTurn s = .engine ∧ s.eng.phase = .keyLoad ∧ (keySources s.eng)[0]? = some (.source 0x5000) ∧
      busErr s.platform 0x5000 = true := by decide +kernel
-- EngineNeverWritesMemory: an engine's turn that gives a next state.
theorem witness_engine_turn :
    nextTurn (engineAt hashing) = .engine ∧ after (step (engineAt hashing)) (fun t => t.mem) = some [] := by decide
-- WindowHoldsTheSchedule: the last round's oldest word, and the second round's newest.
theorem witness_window_bounds : (64 : Nat) ≤ 64 ∧ 1 ≤ 16 ∧ (16 : Nat) ≤ 64 ∧ (1 : Nat) ≤ 1 := by decide
-- ChoiceAndMajorityBitByBit, SigmaFunctionsBitByBit: the last bit.
theorem witness_last_bit : (31 : Nat) < 32 := by decide
-- TrailingZeroKeyBytesDoNotMatter, LongKeyIsItsHash: their bounds.
theorem witness_key_lengths :
    (List.replicate 63 (0x01 : Byte)).length + 1 ≤ 64 ∧ 64 < (List.replicate 65 (0x01 : Byte)).length := by decide
-- HashComputesSha256: a message of 3 bytes at the top of memory.
theorem witness_hash_run :
    let s := { base with reg := operands 0xFFFFFFFFFFFFFFFD 3 0 0 }
    s.eng = Engine.idle ∧ s.rst = false ∧ s.sched = [] ∧ (msgLenOf s.reg).toNat < 2 ^ 61 ∧
      (msgAddrOf s.reg).toNat + (msgLenOf s.reg).toNat ≤ 2 ^ 64 ∧ QuietRange s (msgAddrOf s.reg) (msgLenOf s.reg) := by
  refine ⟨by decide, by decide, by decide, by decide, by decide, ?_⟩
  unfold QuietRange QuietByte
  decide +kernel
-- EveryCommandEnds: each command gives a next state there.
theorem witness_every_command (i : Instr) :
    after (exec i { base with reg := operands 0xFFFFFFFFFFFFFFFD 3 0 0 }) (fun t => t.rst) = some false := by
  cases i <;> decide
-- HmacComputesHmac: a key of 64 bytes and one of 65, with a message of 8 bytes.
theorem witness_hmac_run (n : BitVec 64) (_h : n = 64 ∨ n = 65) :
    let s := { base with reg := operands 0x3000 8 0x2000 n }
    s.eng = Engine.idle ∧ s.rst = false ∧ s.sched = [] ∧ (keyLenOf s.reg).toNat < 2 ^ 61 ∧
      (msgLenOf s.reg).toNat < 2 ^ 61 - 64 ∧ (keyAddrOf s.reg).toNat + (keyLenOf s.reg).toNat ≤ 2 ^ 64 ∧
      (msgAddrOf s.reg).toNat + (msgLenOf s.reg).toNat ≤ 2 ^ 64 ∧ QuietRange s (keyAddrOf s.reg) (keyLenOf s.reg) ∧
      QuietRange s (msgAddrOf s.reg) (msgLenOf s.reg) := by
  obtain rfl | rfl := _h <;> unfold QuietRange QuietByte <;> decide +kernel
-- SecretsDoNotSteerTheEngine, HostReadsShowNoInternalState: two states that differ in a key byte and a message byte.
theorem witness_same_control :
    let s := engineAt { Engine.idle with keyAddr := 0x2000, keyLen := 1, phase := .keyLoad }
    let t := { s with mem := [(0x2000, 0x0b)], eng := { s.eng with k0 := Vector.replicate 64 0xFF } }
    SameControl s t ∧ s.reg = t.reg ∧ nextTurn s = .engine ∧ nextTurn t = .engine ∧ busy s = busy t ∧ s ≠ t := by
  unfold SameControl
  decide +kernel

end Sys2Proof.Tests
end

section
/-!
SUPPORT. The register port as a host sees it: what `ID`, `CTRL` and `STATUS` read, what a write to `ID` and to `CTRL`
comes to, what a read depends on, and what a host's turn leaves unchanged.
-/

namespace Sys2Proof.Machine

/-- A read at a register's own offset (R22) is a read of that register. -/
theorem readPort_offsetOf (r : Reg) {s : State} (hs : s.rst = false) : readPort (offsetOf r) s = readReg s r :=
  readPort_reg hs (regAt_offsetOf r)

theorem readPort_id {s : State} (hs : s.rst = false) : readPort 0x00 s = 0x53323536 := readPort_offsetOf .id hs

theorem readPort_ctrl {s : State} (hs : s.rst = false) : readPort 0x04 s = ctrlWord s := readPort_offsetOf .ctrl hs

theorem readPort_status {s : State} (hs : s.rst = false) : readPort 0x08 s = statusWord s :=
  readPort_offsetOf .status hs

theorem writePort_id (v : Word) {s : State} (hs : s.rst = false) : writePort 0x00 v s = .next s :=
  writePort_reg v hs (regAt_offsetOf .id) (by decide)

theorem writePort_ctrl (v : Word) {s : State} (hs : s.rst = false) :
    writePort 0x04 v s = .next { s with reg := writeCtrl v s.reg } :=
  writePort_reg v hs (regAt_offsetOf .ctrl) (by decide)

/-- A register's value does not depend on the internal state beyond `BUSY` (R48). -/
theorem readReg_congr {s t : State} (hreg : t.reg = s.reg) (hbusy : busy t = busy s) (r : Reg) :
    readReg t r = readReg s r := by
  cases r <;> simp [readReg, ctrlWord, statusWord, hreg, hbusy]

/-- A host's read does not depend on the internal state beyond `BUSY` (R48, R270). -/
theorem readPort_congr {s t : State} (hreg : t.reg = s.reg) (hbusy : busy t = busy s) (hrst : t.rst = s.rst)
    (off : Byte) : readPort off t = readPort off s := by
  simp only [readPort, hrst, readReg_congr hreg hbusy]

@[simp] theorem readPort_popTurn (off : Byte) (s : State) : readPort off (popTurn s) = readPort off s :=
  readPort_congr rfl rfl rfl off

/-- No register reads the platform, so a read after reset is the same on every platform. -/
theorem readPort_resetOn (off : Byte) (p : Platform) : readPort off (State.resetOn p) = readPort off State.reset :=
  readPort_congr rfl rfl rfl off

/-- A flag put below a field is the whole's bit 0. -/
theorem getLsbD_append_flagBit_zero {w : Nat} (x : BitVec w) (b : Bool) : (x ++ flagBit b).getLsbD 0 = b :=
  BitVec.getLsbD_concat_zero

/-- A flag put below a field moves the field's bits up by one. -/
theorem getLsbD_append_flagBit_succ {w : Nat} (x : BitVec w) (b : Bool) (i : Nat) :
    (x ++ flagBit b).getLsbD (i + 1) = x.getLsbD i :=
  BitVec.getLsbD_concat_succ

theorem statusWord_bit0 (s : State) : (statusWord s).getLsbD 0 = busy s := by
  rw [statusWord, getLsbD_append_flagBit_zero]

theorem statusWord_bit1 (s : State) : (statusWord s).getLsbD 1 = s.reg.done := by
  rw [statusWord, getLsbD_append_flagBit_succ, getLsbD_append_flagBit_zero]

theorem statusWord_bit2 (s : State) : (statusWord s).getLsbD 2 = s.reg.err := by
  rw [statusWord, getLsbD_append_flagBit_succ, getLsbD_append_flagBit_succ, getLsbD_append_flagBit_zero]

/-- `CTRL` reads as the number 1 or 0, after `IE` (R24). -/
theorem ctrlWord_eq_ite (s : State) : ctrlWord s = if s.reg.ie then 1 else 0 := by
  unfold ctrlWord
  cases s.reg.ie <;> rfl

theorem ctrlWord_bit0 (s : State) : (ctrlWord s).getLsbD 0 = s.reg.ie := by
  rw [ctrlWord, getLsbD_append_flagBit_zero]

/-- A word masked with bit 0 is the number 1 or 0, after that bit. -/
theorem and_one_eq_ite (v : Word) : v &&& 0x00000001 = if v.getLsbD 0 then 1 else 0 := BitVec.and_twoPow v 0

/-- After a write, `CTRL` reads the written word's bit 0 and 0 elsewhere (R24). -/
theorem ctrlWord_writeCtrl (v : Word) (s : State) :
    ctrlWord { s with reg := writeCtrl v s.reg } = v &&& 0x00000001 := by
  rw [ctrlWord_eq_ite, and_one_eq_ite]
  rfl

theorem and_one_eq_one_iff (v : Word) : v &&& 0x00000001 = 0x00000001 ↔ v.getLsbD 0 = true := by
  rw [and_one_eq_ite]
  cases v.getLsbD 0 <;> decide

theorem and_six_ne_zero_iff (v : Word) :
    v &&& 0x00000006 ≠ 0x00000000 ↔ v.getLsbD 1 = true ∨ v.getLsbD 2 = true := by
  have hmask : (0x00000006 : Word) = BitVec.twoPow 32 1 ||| BitVec.twoPow 32 2 := by decide
  rw [hmask, BitVec.and_or_distrib_left, BitVec.and_twoPow, BitVec.and_twoPow]
  cases v.getLsbD 1 <;> cases v.getLsbD 2 <;> decide

theorem irq_eq_true_iff (s : State) :
    irq s = true ↔ s.reg.ie = true ∧ (s.reg.done = true ∨ s.reg.err = true) := by
  simp [irq]

/-- The host-visible registers are no part of what lies around the engine. -/
theorem aroundKept_setReg (s : State) (r : HostRegs) : AroundKept s { s with reg := r } :=
  ⟨fun _ => rfl, rfl, rfl, rfl, rfl, rfl, rfl, rfl, rfl⟩

/-- On a host's turn the step is its next bus transaction, with the turn used up. -/
theorem step_of_stmtNext {s : State} {k : Nat} {m : Master} {st : Stmt} {p : List Stmt} (h : StmtNext s k m st p) :
    step s = runStmt k m st p (popTurn s) := by
  obtain ⟨hturn, hmaster, hprog⟩ := h
  simp [step, hturn, takeTurn, hostTurn, hmaster, hprog]

/-- A turn that records a result moves the host on and leaves everything around it as it was. -/
theorem hostMoved_addResult (s : State) (k : Nat) (m : Master) (p : List Stmt) (name : Nat) (v : Word) :
    HostMoved s (addResult k m p name v (popTurn s)) k p (m.results ++ [(name, v)]) :=
  ⟨rfl, rfl, fun _ => rfl, rfl, rfl, rfl, rfl, rfl⟩

theorem zero_toList : Words8.zero.toList = List.replicate 8 0 := rfl

theorem zero_word {i : Nat} (h : i < 8) : Words8.zero.word i = 0 := by
  rw [Words8.word, zero_toList, List.getD_replicate _ h]

end Sys2Proof.Machine
end

section
/-!
The statements about the state a host sees (10_state.md): `CTRL`, `irq`, `ID`, the reset values and a host's reads.
-/

namespace Sys2Proof.Machine

/-- Settles O17: the write is `writeCtrl`, which replaces `IE` alone, and `CTRL` and `irq` follow from `IE`. -/
theorem ctrlKeepsInterruptEnableOnly : Obligations.CtrlKeepsInterruptEnableOnly := by
  intro s v hs
  have hreset : readPort 0x04 (State.resetOn s.platform) = 0 := by
    rw [readPort_resetOn]
    decide
  let t : State := { s with reg := writeCtrl v s.reg }
  have hread : readPort 0x04 t = v &&& 0x00000001 :=
    calc readPort 0x04 t
      _ = ctrlWord t := readPort_ctrl hs
      _ = v &&& 0x00000001 := ctrlWord_writeCtrl v s
  exact ⟨hreset, t, writePort_ctrl v hs, hread, irq_eq_true_iff _, rfl, rfl, aroundKept_setReg s _⟩

/-- Settles O25: the masks pick the bits in which `STATUS` and `CTRL` show `BUSY`, `DONE`, `ERR` and `IE`. -/
theorem irqFollowsTheRegisters : Obligations.IrqFollowsTheRegisters := by
  intro s hs
  rw [readPort_ctrl hs, readPort_status hs, and_one_eq_one_iff, and_one_eq_one_iff, and_six_ne_zero_iff,
    statusWord_bit0, statusWord_bit1, statusWord_bit2, ctrlWord_bit0]
  exact ⟨busy_eq_true_iff s, irq_eq_true_iff s⟩

/-- Settles O1: the flags, operands and scalars are those of `HostRegs.reset` and `Engine.idle`; the digest words and
the arrays are all zero. -/
theorem resetLeavesTheTabledValues : Obligations.ResetLeavesTheTabledValues := by
  intro p
  have hports : readPort 0x00 (State.resetOn p) = 0x53323536 ∧ readPort 0x04 (State.resetOn p) = 0 ∧
      readPort 0x08 (State.resetOn p) = 0 := by
    simp only [readPort_resetOn]
    decide
  have hoperands : msgAddrOf HostRegs.reset = 0 ∧ msgLenOf HostRegs.reset = 0 ∧ keyAddrOf HostRegs.reset = 0 ∧
      keyLenOf HostRegs.reset = 0 ∧ HostRegs.reset.errAddr = 0 := by decide
  exact ⟨hports, ⟨rfl, rfl, rfl, rfl, rfl, rfl⟩, hoperands,
    fun _ hi => ⟨zero_word hi, zero_word hi, zero_word hi⟩,
    fun _ hi => Vector.getElem_replicate hi, fun _ hi => Vector.getElem_replicate hi,
    fun _ hi => Vector.getElem_replicate hi, ⟨rfl, rfl, rfl, rfl⟩, ⟨rfl, rfl, rfl, rfl⟩, rfl, rfl, rfl⟩

/-- Settles O16: `ID` reads its constant, and a write to it leaves the state as it is. -/
theorem idIsConstant : Obligations.IdIsConstant := by
  intro s v hs
  exact ⟨readPort_id hs, s, writePort_id v hs, rfl, readPort_id hs⟩

/-- Settles O23: the turn of an `RD` only records, as one more result, what the port reads before the turn. -/
theorem hostReadsChangeNothing : Obligations.HostReadsChangeNothing := by
  intro s k m p off name h
  refine ⟨_, step_of_stmtNext h, rfl, rfl, rfl, ?_⟩
  rw [readPort_popTurn]
  exact hostMoved_addResult s k m p name _

end Sys2Proof.Machine
end

section
/-!
SUPPORT. What the engine's turn can do, said once: the four results a micro-step has, with their guards, and what all of
them leave unchanged.
-/

namespace Sys2Proof.Machine

/-- The states a micro-step (R50) can lead to from `s`. -/
inductive MicroStepResult (s : State) : State → Prop
  /-- An idle engine does nothing. -/
  | rests (hphase : s.eng.phase = .idle) : MicroStepResult s s
  /-- The command goes on; only the internal state and the count of free values taken move. -/
  | goesOn (e : Engine) (d : Nat) (hbusy : s.eng.phase ≠ .idle) (hgoes : e.phase ≠ .idle) :
      MicroStepResult s { s with eng := e, draws := d }
  /-- The command's last `PASS_END` (R216). -/
  | completes (hphase : s.eng.phase = .passEnd) (hpass : s.eng.pass = .hash ∨ s.eng.pass = .outer) :
      MicroStepResult s (complete (setDigest s.eng.hs s))
  /-- A source read fails (R243). -/
  | fails (a : Addr) (d : Nat) (hphase : s.eng.phase = .keyLoad ∨ s.eng.phase = .blockLoad) :
      MicroStepResult s (raiseError .busError a { s with draws := d })

theorem stepKeyLoad_result {s t : State} (hphase : s.eng.phase = .keyLoad) (h : stepKeyLoad s = .next t) :
    MicroStepResult s t := by
  unfold stepKeyLoad at h
  cases hf : fetchBytes s (keySources s.eng) s.draws <;> rw [hf] at h <;> cases h
  case bytes bs d => exact .goesOn _ d (by simp [hphase]) (by simp [startInner])
  case busError a d => exact .fails a d (.inl hphase)

theorem stepPassInit_result {s : State} (hphase : s.eng.phase = .passInit) : MicroStepResult s (stepPassInit s) :=
  .goesOn _ s.draws (by simp [hphase]) (by simp)

theorem stepBlockLoad_result {s t : State} (hphase : s.eng.phase = .blockLoad) (h : stepBlockLoad s = .next t) :
    MicroStepResult s t := by
  unfold stepBlockLoad at h
  cases hf : fetchBytes s (blockSources s.eng) s.draws <;> rw [hf] at h <;> cases h
  case bytes bs d => exact .goesOn _ d (by simp [hphase]) (by simp)
  case busError a d => exact .fails a d (.inr hphase)

theorem stepRound_result {s : State} (hphase : s.eng.phase = .round) : MicroStepResult s (stepRound s) := by
  have hgoes : (roundSequence (roundDatapath s.eng)).phase ≠ .idle := by
    rw [roundSequence_eq]
    split <;> simp
  exact .goesOn _ s.draws (by simp [hphase]) hgoes

theorem stepUpdate_result {s : State} (hphase : s.eng.phase = .update) : MicroStepResult s (stepUpdate s) := by
  have hgoes : (stepUpdate s).eng.phase ≠ .idle := by
    rw [stepUpdate_eng]
    split <;> simp
  exact .goesOn _ s.draws (by simp [hphase]) hgoes

theorem stepPassEnd_result {s t : State} (hphase : s.eng.phase = .passEnd) (h : stepPassEnd s = .next t) :
    MicroStepResult s t := by
  unfold stepPassEnd at h
  cases hp : s.eng.pass <;> rw [hp] at h <;> cases h
  case hash => exact .completes hphase (.inl hp)
  case keyHash => exact .goesOn _ s.draws (by simp [hphase]) (by simp [startInner])
  case inner => exact .goesOn _ s.draws (by simp [hphase]) (by simp)
  case outer => exact .completes hphase (.inr hp)

/-- Every next state of a micro-step is one of the four results. -/
theorem microStep_result {s t : State} (h : microStep s = .next t) : MicroStepResult s t := by
  cases hp : s.eng.phase
  case idle => rw [microStep_idle hp] at h; cases h; exact .rests hp
  case keyLoad => rw [microStep_keyLoad hp] at h; exact stepKeyLoad_result hp h
  case passInit => rw [microStep_passInit hp] at h; cases h; exact stepPassInit_result hp
  case blockLoad => rw [microStep_blockLoad hp] at h; exact stepBlockLoad_result hp h
  case round => rw [microStep_round hp] at h; cases h; exact stepRound_result hp
  case update => rw [microStep_update hp] at h; cases h; exact stepUpdate_result hp
  case passEnd => rw [microStep_passEnd hp] at h; exact stepPassEnd_result hp h

/-- The engine's turn does nothing while `rst` is asserted (R270), and is a micro-step otherwise. -/
theorem engineTurn_result {s t : State} (h : engineTurn s = .next t) :
    s.rst = true ∧ t = s ∨ s.rst = false ∧ MicroStepResult s t := by
  unfold engineTurn at h
  split at h
  case isTrue hr => cases h; exact .inl ⟨hr, rfl⟩
  case isFalse hr => exact .inr ⟨Bool.eq_false_of_not_eq_true hr, microStep_result h⟩

/-- Outside the internal state and the free values taken, `t` differs from `s` at most in the registers that are the
engine's outputs (R71). -/
def OnlyOutputsMoved (s t : State) : Prop :=
  MemoryKept s t ∧ t.unseen = s.unseen ∧ t.raced = s.raced ∧ t.masters = s.masters ∧ t.platform = s.platform ∧
    t.rst = s.rst ∧ t.sched = s.sched ∧ t.loads = s.loads ∧
    t.reg =
      { s.reg with
        digest := t.reg.digest, done := t.reg.done, err := t.reg.err, errCode := t.reg.errCode
        errAddr := t.reg.errAddr }

theorem onlyOutputsMoved_refl (s : State) : OnlyOutputsMoved s s :=
  ⟨fun _ => rfl, rfl, rfl, rfl, rfl, rfl, rfl, rfl, rfl⟩

theorem MicroStepResult.onlyOutputsMoved {s t : State} (h : MicroStepResult s t) : OnlyOutputsMoved s t := by
  cases h with
  | rests _ => exact onlyOutputsMoved_refl s
  | goesOn e d _ _ => exact ⟨fun _ => rfl, rfl, rfl, rfl, rfl, rfl, rfl, rfl, rfl⟩
  | completes _ _ => exact ⟨fun _ => rfl, rfl, rfl, rfl, rfl, rfl, rfl, rfl, rfl⟩
  | fails a d _ => exact ⟨fun _ => rfl, rfl, rfl, rfl, rfl, rfl, rfl, rfl, rfl⟩

theorem engineTurn_onlyOutputsMoved {s t : State} (h : engineTurn s = .next t) : OnlyOutputsMoved s t := by
  obtain ⟨_, rfl⟩ | ⟨_, hresult⟩ := engineTurn_result h
  · exact onlyOutputsMoved_refl t
  · exact hresult.onlyOutputsMoved

/-- On the engine's turn the step is `engineTurn`, with the turn used up, whether or not `rst` is asserted. -/
theorem step_of_engine {s : State} (h : nextTurn s = .engine) : step s = engineTurn (popTurn s) := by
  simp only [step, h, takeTurn]

end Sys2Proof.Machine
end

section
/-!
The statement about what the engine's turn leaves unchanged (20_memory.md R71).
-/

namespace Sys2Proof.Machine

/-- Settles O37: none of the engine's turns writes anything but its outputs, and taking the turn only uses it up. -/
theorem engineNeverWritesMemory : Obligations.EngineNeverWritesMemory := by
  intro s t hturn hstep
  rw [step_of_engine hturn] at hstep
  exact engineTurn_onlyOutputsMoved hstep

end Sys2Proof.Machine
end

section
/-!
SUPPORT. The padding (40_padding.md R111 to R114): how long each of its parts is, and what a padded message and its
pointwise form hold in each of the four ranges of R114.
-/

namespace Sys2Proof.Machine

/-- R112: message, end marker, zero bytes and length field fill whole blocks. The two cases are those of R115. -/
theorem length_add_zeroCount (n : Nat) : n + 1 + zeroCount n + 8 = 64 * nblkOf n := by
  unfold zeroCount nblkOf
  obtain h | h : n % 64 ≤ 55 ∨ 56 ≤ n % 64 := by omega
  · have hz : (119 - n % 64) % 64 = 55 - n % 64 := by omega
    have hb : (n + 8) / 64 = n / 64 := by omega
    omega
  · have hz : (119 - n % 64) % 64 = 119 - n % 64 := by omega
    have hb : (n + 8) / 64 = n / 64 + 1 := by omega
    omega

theorem marker_lt_lengthField (n : Nat) : n < 64 * nblkOf n - 8 := by
  have hfill := length_add_zeroCount n
  omega

/-- `Pad(M)` without its length field: the message, the end marker and the zero bytes. -/
def padBody (m : List Byte) : List Byte := m ++ [0x80] ++ List.replicate (zeroCount m.length) 0

theorem pad_eq_body_append (m : List Byte) : pad m = padBody m ++ be64 (BitVec.ofNat 64 (8 * m.length)) := rfl

/-- The length field begins 8 bytes before the end of the last block (R113). -/
theorem padBody_length (m : List Byte) : (padBody m).length = 64 * nblkOf m.length - 8 := by
  have hfill := length_add_zeroCount m.length
  simp only [padBody, List.length_append, List.length_singleton, List.length_replicate]
  omega

theorem pad_length (m : List Byte) : (pad m).length = 64 * nblkOf m.length := by
  have hfill := length_add_zeroCount m.length
  rw [pad_eq_body_append, List.length_append, padBody_length, be64_length]
  omega

theorem pad_drop_body (m : List Byte) :
    (pad m).drop (64 * nblkOf m.length - 8) = be64 (BitVec.ofNat 64 (8 * m.length)) := by
  rw [pad_eq_body_append, List.drop_left' (padBody_length m)]

theorem pad_getD_body {m : List Byte} {i : Nat} (h : i < 64 * nblkOf m.length - 8) :
    (pad m).getD i 0 = (padBody m).getD i 0 := by
  rw [pad_eq_body_append, List.getD_append _ _ _ _ (by rwa [padBody_length])]

theorem pad_getD_lengthField {m : List Byte} {i : Nat} (h : 64 * nblkOf m.length - 8 ≤ i) :
    (pad m).getD i 0 = (be64 (BitVec.ofNat 64 (8 * m.length))).getD (i - (64 * nblkOf m.length - 8)) 0 := by
  rw [pad_eq_body_append, List.getD_append_right _ _ _ _ (by rwa [padBody_length]), padBody_length]

theorem padBody_getD_message {m : List Byte} {i : Nat} (h : i < m.length) : (padBody m).getD i 0 = m.getD i 0 := by
  rw [padBody, List.append_assoc, List.getD_append _ _ _ _ h]

theorem padBody_getD_marker (m : List Byte) : (padBody m).getD m.length 0 = 0x80 := by
  rw [padBody, List.append_assoc, List.getD_append_right _ _ _ _ le_rfl, Nat.sub_self]
  rfl

theorem padBody_getD_zeros {m : List Byte} {i : Nat} (h : m.length < i) : (padBody m).getD i 0 = 0 := by
  rw [padBody, List.getD_append_right _ _ _ _ (by simpa using h), List.getD_eq_getElem?_getD,
    List.getElem?_getD_replicate_default_eq]

theorem padByte_message {m : List Byte} {i : Nat} (h : i < m.length) : padByte m i = m.getD i 0 := if_pos h

theorem padByte_marker (m : List Byte) : padByte m m.length = 0x80 := by
  rw [padByte, if_neg (lt_irrefl _), if_pos rfl]

theorem padByte_zeros {m : List Byte} {i : Nat} (h : m.length < i) (hi : i < 64 * nblkOf m.length - 8) :
    padByte m i = 0 := by
  rw [padByte, if_neg h.asymm, if_neg h.ne', if_pos hi]

theorem padByte_lengthField {m : List Byte} {i : Nat} (h : 64 * nblkOf m.length - 8 ≤ i) :
    padByte m i = (be64 (BitVec.ofNat 64 (8 * m.length))).getD (i - (64 * nblkOf m.length - 8)) 0 := by
  have hm : m.length < i := (marker_lt_lengthField m.length).trans_le h
  rw [padByte, if_neg hm.asymm, if_neg hm.ne', if_neg h.not_gt]

/-- R114, range by range. Past the end of `Pad(M)` both sides are the default 0. -/
theorem padByte_eq_pad_getD (m : List Byte) (i : Nat) : padByte m i = (pad m).getD i 0 := by
  obtain hbody | hfield := Nat.lt_or_ge i (64 * nblkOf m.length - 8)
  · rw [pad_getD_body hbody]
    obtain h | rfl | h := Nat.lt_trichotomy i m.length
    · rw [padByte_message h, padBody_getD_message h]
    · rw [padByte_marker, padBody_getD_marker]
    · rw [padByte_zeros h hbody, padBody_getD_zeros h]
  · rw [padByte_lengthField hfield, pad_getD_lengthField hfield]

end Sys2Proof.Machine
end

section
/-!
The statement about the padding (40_padding.md).
-/

namespace Sys2Proof.Machine

/-- Settles O45: the parts of `Pad(M)` fill `nblk(n)` blocks, and the two forms agree in each range of R114. -/
theorem pointwisePaddingIsPad : Obligations.PointwisePaddingIsPad := by
  intro m
  exact ⟨pad_length m, fun i _ => padByte_eq_pad_getD m i, pad_drop_body m⟩

end Sys2Proof.Machine
end

section
/-!
SUPPORT. The compression function (41_compression.md R133 to R140): the six logic functions bit by bit, and the
invariant of the schedule window.
-/

namespace Sys2Proof.Machine

theorem ch_bit (x y z : Word) {i : Nat} (hi : i < 32) :
    (ch x y z).getLsbD i = if x.getLsbD i then y.getLsbD i else z.getLsbD i := by
  simp only [ch, BitVec.getLsbD_xor, BitVec.getLsbD_and, BitVec.getLsbD_not, hi, decide_true, Bool.true_and]
  cases x.getLsbD i <;> simp

theorem maj_bit (x y z : Word) (i : Nat) :
    (maj x y z).getLsbD i =
      (((x.getLsbD i && y.getLsbD i) ^^ (x.getLsbD i && z.getLsbD i)) ^^ (y.getLsbD i && z.getLsbD i)) := by
  simp only [maj, BitVec.getLsbD_xor, BitVec.getLsbD_and]

/-- The formula of R134 on one bit of each operand is their majority. -/
theorem majority_bool (a b c : Bool) :
    (((a && b) ^^ (a && c)) ^^ (b && c)) = true ↔ 2 ≤ a.toNat + b.toNat + c.toNat := by
  revert a b c
  decide

/-- Bit `i` of three rotations of `x` put together, as in R135 and R136. -/
theorem rotr_xor_rotr_xor_rotr_bit (x : Word) {a b c i : Nat} (ha : a < 32) (hb : b < 32) (hc : c < 32)
    (hi : i < 32) :
    (rotr x a ^^^ rotr x b ^^^ rotr x c).getLsbD i =
      ((x.getLsbD ((i + a) % 32) ^^ x.getLsbD ((i + b) % 32)) ^^ x.getLsbD ((i + c) % 32)) := by
  rw [BitVec.getLsbD_xor, BitVec.getLsbD_xor, rotr_bit x ha hi, rotr_bit x hb hi, rotr_bit x hc hi]

/-- Bit `i` of two rotations and a shift of `x` put together, as in R137 and R138. -/
theorem rotr_xor_rotr_xor_shr_bit (x : Word) {a b i : Nat} (c : Nat) (ha : a < 32) (hb : b < 32) (hi : i < 32) :
    (rotr x a ^^^ rotr x b ^^^ shr x c).getLsbD i =
      ((x.getLsbD ((i + a) % 32) ^^ x.getLsbD ((i + b) % 32)) ^^ (decide (i + c < 32) && x.getLsbD (i + c))) := by
  rw [BitVec.getLsbD_xor, BitVec.getLsbD_xor, rotr_bit x ha hi, rotr_bit x hb hi, shr_bit]

/-- The window `v` holds, just before round `t`'s update, the 16 latest schedule words of the block `w` that are known
by then (R42, R140): the message words up to round 16, then `W_{t-16}` to `W_{t-1}`. -/
def WindowHolds (w v : Vector Word 16) (t : Nat) : Prop :=
  ∀ n, n < max t 16 → max t 16 ≤ n + 16 → windowAt v n = (schedule w.toList).getD n 0

theorem windowHolds_message (w : Vector Word 16) : WindowHolds w w 0 := by
  intro n hn _
  have hn16 : n < 16 := hn
  rw [schedule_message w hn16]
  simp only [windowAt, Nat.mod_eq_of_lt hn16]

/-- Entry `t mod 16`, which the update overwrites, holds `W_{t-16}` (R139). -/
theorem windowAt_sub_sixteen (v : Vector Word 16) {t : Nat} (h : 16 ≤ t) : windowAt v (t - 16) = windowAt v t := by
  simp only [windowAt, ← Nat.mod_eq_sub_mod h]

/-- The word that round `t` computes from the window is `W_t` (R139). -/
theorem WindowHolds.nextWord {w v : Vector Word 16} {t : Nat} (hv : WindowHolds w v t) (h : 16 ≤ t) (ht : t < 64) :
    scheduleWord (windowAt v (t - 2)) (windowAt v (t - 7)) (windowAt v (t - 15)) (windowAt v t) =
      (schedule w.toList).getD t 0 := by
  rw [← windowAt_sub_sixteen v h, hv (t - 2) (by omega) (by omega), hv (t - 7) (by omega) (by omega),
    hv (t - 15) (by omega) (by omega), hv (t - 16) (by omega) (by omega),
    ← schedule_recurrence (Vector.length_toList) h ht]

/-- R140's induction step: the update puts `W_t` in the place of `W_{t-16}`, and no other of the 16 words has its entry
there. -/
theorem WindowHolds.update {w v : Vector Word 16} {t : Nat} (hv : WindowHolds w v t) (ht : t < 64) :
    WindowHolds w (windowUpdate v t) (t + 1) := by
  intro n hn hold
  rw [windowAt_update]
  split
  case isTrue h =>
    obtain ⟨h16, hentry⟩ := h
    have hnt : n = t := by omega
    rw [hv.nextWord h16 ht, hnt]
  case isFalse h => exact hv n (by omega) (by omega)

theorem windowHolds_windowBefore (w : Vector Word 16) {t : Nat} (ht : t ≤ 64) :
    WindowHolds w (windowBefore w t) t := by
  induction t with
  | zero => exact windowHolds_message w
  | succ t ih =>
    rw [windowBefore_succ]
    exact (ih (by omega)).update (by omega)

end Sys2Proof.Machine
end

section
/-!
The statements about the compression function (41_compression.md): the six logic functions and the schedule window.
-/

namespace Sys2Proof.Machine

/-- Settles O41: `x`'s bit selects a term of `Ch`; the formula of `Maj` on single bits is their majority. -/
theorem choiceAndMajorityBitByBit : Obligations.ChoiceAndMajorityBitByBit := by
  intro x y z i hi
  rw [maj_bit]
  exact ⟨ch_bit x y z hi, majority_bool _ _ _⟩

/-- Settles O42: each sigma function is three rotations, or two and a shift. -/
theorem sigmaFunctionsBitByBit : Obligations.SigmaFunctionsBitByBit := by
  intro x i hi
  exact ⟨rotr_xor_rotr_xor_rotr_bit x (by decide) (by decide) (by decide) hi,
    rotr_xor_rotr_xor_rotr_bit x (by decide) (by decide) (by decide) hi,
    rotr_xor_rotr_xor_shr_bit x 3 (by decide) (by decide) hi,
    rotr_xor_rotr_xor_shr_bit x 10 (by decide) (by decide) hi⟩

/-- Settles O44: `W_{t-k}` is among the words that the window holds before round `t`. -/
theorem windowHoldsTheSchedule : Obligations.WindowHoldsTheSchedule := by
  intro w t k ht hk hk16 hkt
  exact windowHolds_windowBefore w ht (t - k) (by omega) (by omega)

end Sys2Proof.Machine
end

section
/-!
SUPPORT. The normalised key (42_hmac.md R171): the two forms it takes, what zero bytes after a short key do to it, and that
the MAC depends on the key through it alone.
-/

namespace Sys2Proof.Machine

/-- A key of exactly 64 bytes (R171's first case) is a short key with no zero bytes after it. -/
theorem normKey_short {k : List Byte} (h : k.length ≤ 64) : normKey k = k ++ List.replicate (64 - k.length) 0 := by
  unfold normKey
  obtain heq | hlt := h.eq_or_lt
  · rw [if_pos heq, heq, Nat.sub_self, List.replicate_zero, List.append_nil]
  · rw [if_neg hlt.ne, if_neg hlt.asymm]

theorem normKey_long {k : List Byte} (h : 64 < k.length) :
    normKey k = sha256 k ++ List.replicate (64 - (sha256 k).length) 0 := by
  rw [normKey, if_neg h.ne', if_pos h, sha256_length]

/-- Zero bytes after a short key take the place of as many zero bytes of the padding (R172). -/
theorem normKey_append_zeros {k : List Byte} {j : Nat} (h : k.length + j ≤ 64) :
    normKey (k ++ List.replicate j 0) = normKey k := by
  have hpad : j + (64 - (k.length + j)) = 64 - k.length := by omega
  have hlen : (k ++ List.replicate j (0 : Byte)).length = k.length + j := by
    rw [List.length_append, List.length_replicate]
  rw [normKey_short (hlen.trans_le h), normKey_short (le_of_add_le_left h), hlen, List.append_assoc,
    List.replicate_append_replicate, hpad]

/-- A long key and its hash, which is a short key, have the same normalised key (R178). -/
theorem normKey_long_eq_normKey_sha256 {k : List Byte} (h : 64 < k.length) : normKey k = normKey (sha256 k) := by
  have hshort : (sha256 k).length ≤ 64 := by
    rw [sha256_length]
    decide
  rw [normKey_long h, normKey_short hshort]

/-- The inner and the outer hash take the key only as `K0` (R174, R175). -/
theorem hmac_eq_of_normKey_eq {k l : List Byte} (h : normKey k = normKey l) (m : List Byte) : hmac k m = hmac l m := by
  rw [hmac, hmac, hmacWords, hmacWords, hmacInner, hmacInner, h]

end Sys2Proof.Machine
end

section
/-!
The statements about HMAC's key (42_hmac.md): trailing zero bytes of a short key, and a long key's hash.
-/

namespace Sys2Proof.Machine

/-- Settles O46: the two keys have the same `K0`, and the MAC depends on the key through `K0` alone. -/
theorem trailingZeroKeyBytesDoNotMatter : Obligations.TrailingZeroKeyBytesDoNotMatter := by
  intro k m j h
  have hkey : normKey (k ++ List.replicate j 0) = normKey k := normKey_append_zeros h
  exact ⟨hkey, hmac_eq_of_normKey_eq hkey m⟩

/-- Settles O47: the key and its hash have the same `K0`, and 32 zero bytes after the hash keep it (R172). -/
theorem longKeyIsItsHash : Obligations.LongKeyIsItsHash := by
  intro k m hk
  have hhash : normKey k = normKey (sha256 k) := normKey_long_eq_normKey_sha256 hk
  have hroom : (sha256 k).length + 32 ≤ 64 := by
    rw [sha256_length]
  have hzeros : normKey (sha256 k ++ List.replicate 32 0) = normKey (sha256 k) := normKey_append_zeros hroom
  exact ⟨hmac_eq_of_normKey_eq (hhash.trans hzeros.symm) m, hmac_eq_of_normKey_eq hhash m⟩

end Sys2Proof.Machine
end

section
/-!
SUPPORT. The decoder and the encoder (43_commands.md R192, 30_encoding.md R90 to R93): a command word is its `RSVD` field
above its `OP` field, and `OP` selects a command by the opcode map.
-/

namespace Sys2Proof

/-- A word is the field in its bits 31:8 above the field in its bits 7:0 (R90). -/
theorem word_eq_append_iff (v : Word) (rsvd : BitVec 24) (op : Byte) :
    v = rsvd ++ op ↔ v.extractLsb' 8 24 = rsvd ∧ v.extractLsb' 0 8 = op := by
  constructor
  · rintro rfl
    exact ⟨BitVec.extractLsb'_append_eq_left, BitVec.extractLsb'_append_eq_right⟩
  · rintro ⟨rfl, rfl⟩
    exact (BitVec.extractLsb'_append_extractLsb' (w := 24) (len := 8)).symm

theorem decodeOpcode_opcode (i : Instr) : decodeOpcode i.opcode = some i := by
  cases i <;> rfl

/-- An opcode selects a command exactly when it is that command's row of the opcode map (R91). -/
theorem decodeOpcode_eq_some_iff (op : Byte) (i : Instr) : decodeOpcode op = some i ↔ op = i.opcode := by
  constructor
  · intro h
    unfold decodeOpcode at h
    split_ifs at h with hop hop hop hop <;> cases h <;> exact hop
  · rintro rfl
    exact decodeOpcode_opcode i

/-- The opcodes that select no command are `0x04 .. 0xFF` (R93). -/
theorem decodeOpcode_eq_none_iff (op : Byte) : decodeOpcode op = none ↔ 4 ≤ op.toNat := by
  unfold decodeOpcode
  split_ifs with h0 h1 h2 h3
  case neg => exact iff_of_true rfl (by bv_omega)
  all_goals
    subst op
    decide

theorem decode_reserved {v : Word} (hrsvd : v.extractLsb' 8 24 ≠ 0) : decode v = .error .reservedBits :=
  if_pos hrsvd

theorem decode_illegalOpcode {v : Word} (hrsvd : v.extractLsb' 8 24 = 0)
    (hop : decodeOpcode (v.extractLsb' 0 8) = none) : decode v = .error .illegalOpcode := by
  rw [decode, if_neg (not_not.2 hrsvd), hop]

theorem decode_opcode {v : Word} {i : Instr} (hrsvd : v.extractLsb' 8 24 = 0)
    (hop : decodeOpcode (v.extractLsb' 0 8) = some i) : decode v = .ok i := by
  rw [decode, if_neg (not_not.2 hrsvd), hop]

/-- The three ways of decoding a word: by its `RSVD`, then by what its `OP` selects. -/
theorem decode_cases (v : Word) :
    (v.extractLsb' 8 24 ≠ 0 ∧ decode v = .error .reservedBits) ∨
      (decodeOpcode (v.extractLsb' 0 8) = none ∧ decode v = .error .illegalOpcode) ∨
      ∃ i, v.extractLsb' 8 24 = 0 ∧ decodeOpcode (v.extractLsb' 0 8) = some i ∧ decode v = .ok i := by
  by_cases hrsvd : v.extractLsb' 8 24 = 0
  · cases hop : decodeOpcode (v.extractLsb' 0 8) with
    | none => exact .inr (.inl ⟨rfl, decode_illegalOpcode hrsvd hop⟩)
    | some i => exact .inr (.inr ⟨i, hrsvd, rfl, decode_opcode hrsvd hop⟩)
  · exact .inl ⟨hrsvd, decode_reserved hrsvd⟩

theorem decode_encode (i : Instr) : decode (encode i) = .ok i := by
  obtain ⟨hrsvd, hop⟩ := (word_eq_append_iff (encode i) 0 i.opcode).1 rfl
  exact decode_opcode hrsvd (hop ▸ decodeOpcode_opcode i)

theorem decode_eq_ok_iff (v : Word) (i : Instr) : decode v = .ok i ↔ v = encode i := by
  constructor
  · intro h
    obtain ⟨_, he⟩ | ⟨_, he⟩ | ⟨j, hrsvd, hop, hj⟩ := decode_cases v
    · cases h.symm.trans he
    · cases h.symm.trans he
    · cases h.symm.trans hj
      exact (word_eq_append_iff v 0 i.opcode).2 ⟨hrsvd, (decodeOpcode_eq_some_iff _ i).1 hop⟩
  · rintro rfl
    exact decode_encode i

/-- A word is rejected exactly when its `RSVD` is not 0 or its `OP` is in `0x04 .. 0xFF` (R93). -/
theorem decode_eq_error_iff (v : Word) :
    (∃ e, decode v = .error e) ↔ v.extractLsb' 8 24 ≠ 0 ∨ 4 ≤ (v.extractLsb' 0 8).toNat := by
  rw [← decodeOpcode_eq_none_iff]
  obtain ⟨hrsvd, he⟩ | ⟨hop, he⟩ | ⟨i, hrsvd, hop, hi⟩ := decode_cases v
  · exact iff_of_true ⟨_, he⟩ (.inl hrsvd)
  · exact iff_of_true ⟨_, he⟩ (.inr hop)
  · simp [hi, hop, hrsvd]

end Sys2Proof
end

section
/-!
SUPPORT. A host's write to `CMD` (43_commands.md R190, R191, R197) and the commands that end at once (R193, R194): what
the step comes to, what it leaves around the engine, and `STATUS` once the engine is idle.
-/

namespace Sys2Proof.Machine

/-- With `rst` not asserted, the turn of a host that writes `v` to `CMD` is `writeCmd`, the host having gone on. -/
theorem step_of_commandNext {s : State} {k : Nat} {m : Master} {v : Word} {p : List Stmt}
    (h : CommandNext s k m v p) (hrst : s.rst = false) : step s = writeCmd v (setProg k m p (popTurn s)) := by
  rw [step_of_stmtNext h]
  exact writePort_cmd (s := setProg k m p (popTurn s)) v hrst (regAt_offsetOf .cmd)

theorem acceptCommand_illegal {v : Word} (s : State)
    (h : v.extractLsb' 8 24 ≠ 0 ∨ 4 ≤ (v.extractLsb' 0 8).toNat) :
    acceptCommand v s = .next (raiseError .illegalCmd 0 (acceptClear s)) := by
  obtain ⟨e, he⟩ := (decode_eq_error_iff v).2 h
  simp only [acceptCommand, he]

/-- A host that goes on to its next statement leaves everything around it as it was. -/
theorem hostMoved_setProg (s : State) (k : Nat) (m : Master) (p : List Stmt) :
    HostMoved s (setProg k m p (popTurn s)) k p m.results :=
  ⟨rfl, rfl, fun _ => rfl, rfl, rfl, rfl, rfl, rfl⟩

/-- `HostMoved` says nothing of the registers and the internal state. -/
theorem HostMoved.setRegEng {s t : State} {k : Nat} {p : List Stmt} {rs : List (Nat × Word)}
    (h : HostMoved s t k p rs) (r : HostRegs) (e : Engine) : HostMoved s { t with reg := r, eng := e } k p rs := h

theorem pendingStores_acceptClear (s : State) : pendingStores (acceptClear s) = pendingStores s :=
  List.append_nil _

/-- An acceptance keeps the pending stores, and their order (R80). -/
theorem HostMoved.acceptClear {s t : State} {k : Nat} {p : List Stmt} {rs : List (Nat × Word)}
    (h : HostMoved s t k p rs) : HostMoved s (acceptClear t) k p rs := by
  obtain ⟨hmasters, hsched, hmem, hpending, hframe⟩ := h
  exact ⟨hmasters, hsched, hmem, (pendingStores_acceptClear t).trans hpending, hframe⟩

/-- The value of `STATUS` when no command runs (R25), from the four fields it then shows. -/
theorem statusWord_idle {s : State} {code : ErrCode} {ovr err done : Bool} (heng : s.eng = Engine.idle)
    (hcode : s.reg.errCode = code) (hovr : s.reg.ovr = ovr) (herr : s.reg.err = err) (hdone : s.reg.done = done) :
    statusWord s =
      (0 : BitVec 20) ++ code.bits ++ (0 : BitVec 4) ++ flagBit ovr ++ flagBit err ++ flagBit done ++ flagBit false := by
  have hidle : busy s = false := (busy_eq_false_iff s).2 (congrArg Engine.phase heng)
  rw [statusWord, hidle, hcode, hovr, herr, hdone]

/-- The registers and the internal state are no part of what lies around the engine. -/
theorem aroundKept_setRegEng (s : State) (r : HostRegs) (e : Engine) :
    AroundKept s { s with reg := r, eng := e } :=
  ⟨fun _ => rfl, rfl, rfl, rfl, rfl, rfl, rfl, rfl, rfl⟩

theorem exec_nop (s : State) : exec .nop s = .next (complete s) := rfl

theorem exec_clr (s : State) :
    exec .clr s =
      .next (complete { s with reg := { s.reg with digest := Words8.zero, ovr := false } }) := rfl

end Sys2Proof.Machine
end

section
/-!
SUPPORT. The datapath of the micro-steps (43_commands.md R211 to R216): the block count, the schedule window and the
working registers after a round, addition word by word, and the bytes of eight words.
-/

namespace Sys2Proof.Machine

/-- The 64-bit block count is exact for every length that the acceptance checks let through (R112, R241). -/
theorem blockCount_toNat {n : BitVec 64} (h : n.toNat < 2 ^ 61) :
    ((n + 8) / 64 + 1).toNat = (n.toNat + 8) / 64 + 1 := by
  have hsum : (n + 8).toNat = n.toNat + 8 := by
    rw [BitVec.toNat_add_of_lt] <;> simp; omega
  have hquot : ((n + 8) / 64).toNat = (n.toNat + 8) / 64 := by
    rw [BitVec.toNat_udiv, hsum]
    rfl
  rw [BitVec.toNat_add_of_lt, hquot]
  · rfl
  · rw [hquot]
    simp
    omega

theorem windowAt_of_lt (w : Vector Word 16) {j : Nat} (h : j < 16) : windowAt w j = w[j] := by
  simp only [windowAt, Nat.mod_eq_of_lt h]

/-- Round `t`'s update of the window, entry by entry, with the four terms of R139 written out. -/
theorem windowUpdate_getElem (w : Vector Word 16) (t : Nat) {j : Nat} (h : j < 16) :
    (windowUpdate w t)[j] =
      if 16 ≤ t ∧ j = t % 16 then
        ssig1 (windowAt w (t - 2)) + windowAt w (t - 7) + ssig0 (windowAt w (t - 15)) + w[j]
      else w[j] := by
  rw [← windowAt_of_lt _ h, windowAt_update, Nat.mod_eq_of_lt h, ← windowAt_of_lt w h]
  refine ite_congr rfl (fun hj => ?_) fun _ => rfl
  have hoverwritten : windowAt w t = windowAt w j := by
    simp only [windowAt, hj.2, Nat.mod_mod]
  rw [hoverwritten]
  rfl

theorem stepRound_w (s : State) : (stepRound s).eng.w = windowUpdate s.eng.w s.eng.t.toNat := by
  rw [stepRound_eng, roundSequence_eq]

/-- The working registers after a `ROUND` come from those before it and from `W_t` in the updated window (R213). -/
theorem stepRound_work (s : State) :
    (stepRound s).eng.work =
      roundWith (roundConstant s.eng.t.toNat) (windowAt (stepRound s).eng.w s.eng.t.toNat) s.eng.work := by
  rw [stepRound_w, stepRound_eng, roundSequence_eq]

theorem stepUpdate_hs (s : State) : (stepUpdate s).eng.hs = s.eng.hs.add s.eng.work := by
  rw [stepUpdate_eng]

theorem add_toList (x y : Words8) : (x.add y).toList = List.zipWith (· + ·) x.toList y.toList := rfl

theorem add_word (x y : Words8) {i : Nat} (h : i < 8) : (x.add y).word i = x.word i + y.word i := by
  have hx : i < x.toList.length := h
  have hy : i < y.toList.length := h
  simp only [Words8.word, add_toList, List.getD_eq_getElem?_getD, List.getElem?_zipWith,
    List.getElem?_eq_getElem hx, List.getElem?_eq_getElem hy, Option.getD_some]

theorem bytesBe32_getElem? (w : Word) {j : Nat} (h : j < 4) :
    (bytesBe32 w)[j]? = some (w.extractLsb' (24 - 8 * j) 8) := by
  interval_cases j <;> rfl

/-- Byte `j` of word `i`, in a list of words laid out as bytes, the most significant byte of each first (R9). -/
theorem flatMap_bytesBe32_getElem? (l : List Word) {i j : Nat} (hi : i < l.length) (hj : j < 4) :
    (l.flatMap bytesBe32)[4 * i + j]? = some ((l.getD i 0).extractLsb' (24 - 8 * j) 8) := by
  induction l generalizing i with
  | nil => cases hi
  | cons w l ih =>
    rw [List.flatMap_cons]
    cases i with
    | zero =>
      rw [Nat.mul_zero, Nat.zero_add, List.getElem?_append_left hj]
      exact bytesBe32_getElem? w hj
    | succ i =>
      have hindex : 4 * (i + 1) + j = (bytesBe32 w).length + (4 * i + j) := by
        rw [show (bytesBe32 w).length = 4 from rfl]
        omega
      rw [hindex, List.getElem?_append_right (Nat.le_add_right _ _), Nat.add_sub_cancel_left]
      exact ih (Nat.lt_of_succ_lt_succ hi)

theorem words8_bytes_getElem? (x : Words8) {i j : Nat} (hi : i < 8) (hj : j < 4) :
    x.bytes[4 * i + j]? = some ((x.word i).extractLsb' (24 - 8 * j) 8) :=
  flatMap_bytesBe32_getElem? x.toList hi hj

theorem bytesOfList_words8 (x : Words8) : (bytesOfList 32 x.bytes).toList = x.bytes :=
  bytesOfList_toList (words8_bytes_length x)

/-- A hashed key in `K0` is followed by 32 zero bytes (R171, R216). -/
theorem bytesOfList_words8_pad (x : Words8) :
    (bytesOfList 64 x.bytes).toList = x.bytes ++ List.replicate 32 0 := by
  rw [bytesOfList_pad 64 x.bytes (by rw [words8_bytes_length]; decide)]
  apply bytesOfList_toList
  rw [List.length_append, List.length_replicate, words8_bytes_length]

/-- The `PASS_END` of the pass that computes a command's result (R216). -/
theorem stepPassEnd_hash_or_outer {s : State} (h : s.eng.pass = .hash ∨ s.eng.pass = .outer) :
    stepPassEnd s = .next (complete (setDigest s.eng.hs s)) := by
  obtain h | h := h <;> simp only [stepPassEnd, h]

theorem stepPassEnd_keyHash {s : State} (h : s.eng.pass = .keyHash) :
    stepPassEnd s = .next { s with eng := startInner (bytesOfList 64 s.eng.hs.bytes) s.eng } := by
  simp only [stepPassEnd, h]

theorem stepPassEnd_inner {s : State} (h : s.eng.pass = .inner) :
    stepPassEnd s =
      .next
        { s with
          eng := { s.eng with
            ihd := bytesOfList 32 s.eng.hs.bytes, pass := .outer, vlen := 96, phase := .passInit } } := by
  simp only [stepPassEnd, h]

end Sys2Proof.Machine
end

section
/-!
SUPPORT. What a host or the platform can do to a running command (43_commands.md R221, R191): nothing reaches the internal
state.
-/

namespace Sys2Proof.Machine

theorem writePort_eng_of_busy {off : Byte} {v : Word} {s t : State} (hb : busy s = true)
    (h : writePort off v s = .next t) : t.eng = s.eng := by
  obtain rfl | ⟨_, _, _, rfl⟩ | ⟨_, _, hidle, _⟩ | ⟨_, _, _, rfl⟩ := writePort_cases h
  · rfl
  · rfl
  · exact absurd (hb.symm.trans hidle) (by decide)
  · rfl

theorem writeAccess_eng_of_busy {a : Access} {s t : State} (hb : busy s = true)
    (h : writeAccess a s = .next t) : t.eng = s.eng := by
  unfold writeAccess at h
  split at h
  · exact writePort_eng_of_busy hb h
  · cases h
    rfl

/-- Only a `WR` and a write access go through the register port; every other statement leaves the engine alone. -/
theorem runStmt_eng_of_busy {k : Nat} {m : Master} {st : Stmt} {p : List Stmt} {s t : State} (hb : busy s = true)
    (h : runStmt k m st p s = .next t) : t.eng = s.eng := by
  cases st with
  | wr off v => exact writePort_eng_of_busy (s := setProg k m p s) hb h
  | rd off name => cases h; rfl
  | poll off mask value =>
    simp only [runStmt] at h
    split at h <;> cases h <;> rfl
  | store a bs =>
    cases bs with
    | nil => cases h; rfl
    | cons b bs =>
      simp only [runStmt] at h
      split at h <;> cases h
      exact storeByte_eng ..
  | access a name =>
    simp only [runStmt] at h
    split at h
    · exact writeAccess_eng_of_busy (s := setProg k m p s) hb h
    · cases h
      rfl
  | load a name => cases h; rfl

theorem hostTurn_eng_of_busy {k : Nat} {s t : State} (hb : busy s = true) (h : hostTurn k s = .next t) :
    t.eng = s.eng := by
  unfold hostTurn at h
  split at h
  · cases h
    rfl
  · split at h
    · cases h
      rfl
    · exact runStmt_eng_of_busy hb h

theorem publishStore_eng (k : Nat) (s : State) : (publishStore k s).eng = s.eng := by
  obtain h | ⟨_, a, b, _, h⟩ := publishStore_cases k s <;> rw [h]

/-- A turn that neither is the engine's nor asserts `rst` leaves the internal state of a running command as it is. -/
theorem takeTurn_eng_of_busy {turn : Turn} {s t : State} (hb : busy s = true) (hrst : s.rst = false)
    (hengine : turn ≠ .engine) (hreset : turn ≠ .reset true) (h : takeTurn turn s = .next t) : t.eng = s.eng := by
  cases turn with
  | engine => exact absurd rfl hengine
  | host k => exact hostTurn_eng_of_busy hb h
  | publish k => cases h; exact publishStore_eng k s
  | reset level =>
    cases level with
    | true => exact absurd rfl hreset
    | false => cases h; rw [driveReset_eng, hrst]; rfl

/-- While `rst` is asserted no command runs (R270). -/
theorem rst_eq_false_of_busy {s : State} (hheld : resetHeld s) (hb : busy s = true) : s.rst = false := by
  by_contra hrst
  have hidle : s.eng = Engine.idle := (hheld (Bool.eq_true_of_not_eq_false hrst)).2
  exact (busy_eq_true_iff s).1 hb (congrArg Engine.phase hidle)

/-- A micro-step that ends a command completes it or reports a bus error (R198, R243). -/
theorem MicroStepResult.ends {s t : State} (h : MicroStepResult s t) (hb : busy s = true) (hend : busy t = false) :
    t.reg.done = true ∨ t.reg.err = true ∧ t.reg.errCode = .busError := by
  rw [busy_eq_true_iff] at hb
  rw [busy_eq_false_iff] at hend
  cases h with
  | rests hphase => exact absurd hphase hb
  | goesOn e d _ hgoes => exact absurd hend hgoes
  | completes _ _ => exact .inl rfl
  | fails a d _ => exact .inr ⟨rfl, rfl⟩

end Sys2Proof.Machine
end

section
/-!
The statements about the commands (43_commands.md): the decoder, a write to `CMD`, `NOP` and `CLR`, the micro-steps that
read no memory, and what stops a running command.
-/

namespace Sys2Proof.Machine

/-- Settles O7: a word is its two fields, `OP` selects a command by the opcode map, and every other word is rejected. -/
theorem decodingAcceptsExactlyTheFourWords : Obligations.DecodingAcceptsExactlyTheFourWords :=
  ⟨decode_eq_ok_iff, ⟨rfl, rfl, rfl, rfl⟩, decode_eq_error_iff⟩

/-- Settles O9: the word is rejected, and the acceptance ends in `raiseError`, which leaves only the two halves of the
error report and `OVR` to read in `STATUS`. -/
theorem illegalWordRaisesIllegalCmd : Obligations.IllegalWordRaisesIllegalCmd := by
  intro s k m p v h hrst hidle hillegal
  have hstep : step s = .next (raiseError .illegalCmd 0 (acceptClear (setProg k m p (popTurn s)))) := by
    rw [step_of_commandNext h hrst, writeCmd_idle v (setProg k m p (popTurn s)) hidle, acceptCommand_illegal _ hillegal]
  refine ⟨_, hstep, rfl, rfl, (hostMoved_setProg s k m p).acceptClear.setRegEng _ _, ?_⟩
  refine Eq.trans (statusWord_idle (code := .illegalCmd) (ovr := s.reg.ovr) (err := true) (done := false)
    rfl rfl rfl rfl rfl) ?_
  cases s.reg.ovr <;> rfl

/-- Settles O10: `writeCmd` of a busy engine sets `OVR` without looking at the word. -/
theorem commandWriteWhileBusyIsDropped : Obligations.CommandWriteWhileBusyIsDropped := by
  intro s k m p v h hrst hbusy
  refine ⟨_, (step_of_commandNext h hrst).trans (writeCmd_busy v _ hbusy), rfl, rfl, rfl, rfl, ?_⟩
  exact (hostMoved_setProg s k m p).setRegEng _ _

/-- Settles O11: `NOP` is `Complete()`. -/
theorem nopSetsDoneOnly : Obligations.NopSetsDoneOnly := by
  intro s
  refine ⟨_, exec_nop s, rfl, rfl, aroundKept_setRegEng s _ _, fun herr hcode => ?_⟩
  refine Eq.trans (statusWord_idle (ovr := s.reg.ovr) (done := true) rfl hcode rfl herr rfl) ?_
  cases s.reg.ovr <;> rfl

/-- Settles O12: `CLR` is `Complete()` after the digest and `OVR` have been cleared. -/
theorem clrClearsResultAndOverrun : Obligations.ClrClearsResultAndOverrun := by
  intro s
  refine ⟨_, exec_clr s, rfl, rfl, aroundKept_setRegEng s _ _, fun herr hcode => ?_⟩
  refine Eq.trans (statusWord_idle (ovr := false) (done := true) rfl hcode rfl herr rfl) ?_
  rfl

/-- Settles O31: the block count is computed in 64 bits, in which it is exact. -/
theorem passInitCountsTheBlocks : Obligations.PassInitCountsTheBlocks := by
  intro s hturn hrst hphase hlen
  have hstep : step s = .next (stepPassInit (popTurn s)) :=
    (step_engine hturn hrst).trans (microStep_passInit hphase)
  exact ⟨_, hstep, rfl, blockCount_toNat hlen, rfl, aroundKept_setRegEng (popTurn s) _ _⟩

/-- Settles O33: the window is updated first, and the working registers take `W_t` from it. -/
theorem roundUpdatesWindowAndRegisters : Obligations.RoundUpdatesWindowAndRegisters := by
  intro s hturn hrst hphase
  have hstep : step s = .next (stepRound (popTurn s)) := (step_engine hturn hrst).trans (microStep_round hphase)
  refine ⟨_, hstep, rfl, aroundKept_setRegEng (popTurn s) _ _, fun j hj => ?_, stepRound_work (popTurn s), ?_⟩
  · simp only [stepRound_w]
    exact windowUpdate_getElem s.eng.w s.eng.t.toNat hj
  · rw [stepRound_w, stepRound_work, stepRound_w, stepRound_eng]
    exact roundSequence_eq s.eng

/-- Settles O34: `UPDATE` adds word by word; its one branch chooses block number and phase. -/
theorem updateAddsTheWorkingRegisters : Obligations.UpdateAddsTheWorkingRegisters := by
  intro s hturn hrst hphase
  have hstep : step s = .next (stepUpdate (popTurn s)) := (step_engine hturn hrst).trans (microStep_update hphase)
  refine ⟨_, hstep, rfl, aroundKept_setRegEng (popTurn s) _ _, fun i hi => ?_, ?_⟩
  · rw [stepUpdate_hs]
    exact add_word s.eng.hs s.eng.work hi
  · rw [stepUpdate_hs]
    exact stepUpdate_eng (popTurn s)

/-- Settles O35: a case for each pass; `PASS_END` of the two result passes is the same. -/
theorem passEndPassesTheHashOn : Obligations.PassEndPassesTheHashOn := by
  intro s hturn hrst hphase hpass
  have hstep : step s = stepPassEnd (popTurn s) := (step_engine hturn hrst).trans (microStep_passEnd hphase)
  have hbytes := fun i j (hi : i < 8) (hj : j < 4) => words8_bytes_getElem? s.eng.hs hi hj
  obtain hresult | hkey | hinner :
      (s.eng.pass = .hash ∨ s.eng.pass = .outer) ∨ s.eng.pass = .keyHash ∨ s.eng.pass = .inner := by
    cases hp : s.eng.pass <;> simp_all
  · refine ⟨_, hstep.trans (stepPassEnd_hash_or_outer hresult), aroundKept_setRegEng (popTurn s) _ _, hbytes,
      fun _ => ⟨rfl, rfl⟩, fun h => ?_, fun h => ?_⟩ <;> simp [h] at hresult
  · refine ⟨_, hstep.trans (stepPassEnd_keyHash hkey), aroundKept_setRegEng (popTurn s) _ _, hbytes,
      fun h => ?_, fun _ => ⟨rfl, bytesOfList_words8_pad s.eng.hs, rfl⟩, fun h => ?_⟩ <;> simp [hkey] at h
  · refine ⟨_, hstep.trans (stepPassEnd_inner hinner), aroundKept_setRegEng (popTurn s) _ _, hbytes,
      fun h => ?_, fun h => ?_, fun _ => ⟨rfl, bytesOfList_words8 s.eng.hs, rfl⟩⟩ <;> simp [hinner] at h

/-- Settles O39: any other turn leaves the internal state, and so `BUSY`, as it is; of the engine's own turns, those that
end the command report it. -/
theorem onlyItsOwnEndOrResetStopsACommand : Obligations.OnlyItsOwnEndOrResetStopsACommand := by
  intro s t hheld hstep hb hend
  have hrst : s.rst = false := rst_eq_false_of_busy hheld hb
  by_cases hreset : nextTurn s = .reset true
  · exact .inl hreset
  by_cases hengine : nextTurn s = .engine
  · rw [step_engine hengine hrst] at hstep
    exact .inr ⟨hengine, (microStep_result hstep).ends hb hend⟩
  · have hkept : t.eng = s.eng := takeTurn_eng_of_busy (s := popTurn s) hb hrst hengine hreset hstep
    have hstays : busy t = busy s := busy_congr t s (congrArg Engine.phase hkept)
    rw [hstays, hb] at hend
    cases hend

end Sys2Proof.Machine
end

section
/-!
SUPPORT. The acceptance part of `HASH` and `HMAC` (60_exceptions.md R241, R242, R245): the code a failing check raises, and
what the command comes to when its checks fail and when they pass.
-/

namespace Sys2Proof.Machine

/-- The failing `AcceptChecks(HASH)` raises the first condition of R245 that holds. -/
theorem checkHash_eq_some {e : Engine} (h : 2 ^ 61 ≤ e.msgLen.toNat ∨ 2 ^ 64 < e.msgAddr.toNat + e.msgLen.toNat) :
    checkHash e = some (if 2 ^ 61 ≤ e.msgLen.toNat then .inputTooLargeMsg else .rangeMsg) := by
  unfold checkHash
  split_ifs with hlen hout
  · rfl
  · rfl
  · exact absurd h (not_or.2 ⟨hlen, hout⟩)

/-- The failing `AcceptChecks(HMAC)` raises the first condition of R245 that holds. -/
theorem checkHmac_eq_some {e : Engine}
    (h : 2 ^ 61 ≤ e.keyLen.toNat ∨ 2 ^ 61 - 64 ≤ e.msgLen.toNat ∨ 2 ^ 64 < e.keyAddr.toNat + e.keyLen.toNat ∨
      2 ^ 64 < e.msgAddr.toNat + e.msgLen.toNat) :
    checkHmac e =
      some
        (if 2 ^ 61 ≤ e.keyLen.toNat then .inputTooLargeKey
        else if 2 ^ 61 - 64 ≤ e.msgLen.toNat then .inputTooLargeMsg
        else if 2 ^ 64 < e.keyAddr.toNat + e.keyLen.toNat then .rangeKey
        else .rangeMsg) := by
  unfold checkHmac
  split_ifs with hkeyLen hmsgLen hkeyOut hmsgOut
  · rfl
  · rfl
  · rfl
  · rfl
  · exact absurd h (not_or.2 ⟨hkeyLen, not_or.2 ⟨hmsgLen, not_or.2 ⟨hkeyOut, hmsgOut⟩⟩⟩)

theorem exec_hash_error {s : State} {c : ErrCode} (h : checkHash (latchMessage s).eng = some c) :
    exec .hash s = .next (raiseError c 0 (latchMessage (setDigest Words8.zero s))) := by
  have hcheck : checkHash (latchMessage (setDigest Words8.zero s)).eng = some c := h
  simp only [exec, execHash, hcheck]

theorem exec_hash_runs {s : State} (h : checkHash (latchMessage s).eng = none) :
    exec .hash s = .next (startPass .hash (msgLenOf s.reg) (latchMessage (setDigest Words8.zero s))) := by
  have hcheck : checkHash (latchMessage (setDigest Words8.zero s)).eng = none := h
  simp only [exec, execHash, hcheck]
  rfl

theorem exec_hmac_error {s : State} {c : ErrCode} (h : checkHmac (latchMessage (latchKey s)).eng = some c) :
    exec .hmac s = .next (raiseError c 0 (latchMessage (latchKey (setDigest Words8.zero s)))) := by
  have hcheck : checkHmac (latchMessage (latchKey (setDigest Words8.zero s))).eng = some c := h
  simp only [exec, execHmac, hcheck]

/-- A long key is hashed first (R171), a short one loaded. -/
theorem exec_hmac_runs {s : State} (h : checkHmac (latchMessage (latchKey s)).eng = none) :
    exec .hmac s =
      let u := latchMessage (latchKey (setDigest Words8.zero s))
      if 64 < (keyLenOf s.reg).toNat then .next (startPass .keyHash (keyLenOf s.reg) u)
      else .next { u with eng := { u.eng with phase := .keyLoad } } := by
  have hcheck : checkHmac (latchMessage (latchKey (setDigest Words8.zero s))).eng = none := h
  simp only [exec, execHmac, hcheck]
  rfl

end Sys2Proof.Machine
end

section
/-!
SUPPORT. A source read that fails (60_exceptions.md R243): what loading bytes comes to, how many free values it can have
taken by then, and the micro-step that raises the error.
-/

namespace Sys2Proof.Machine

/-- A read takes at most one free value. -/
theorem sourceRead_draws_le {s : State} {d d' : Nat} {a : Addr} {b : Byte} (h : sourceRead s d a = .byte b d') :
    d' ≤ d + 1 := by
  unfold sourceRead at h
  split_ifs at h <;> cases h <;> omega

/-- Loading stops at the first read that fails; each source before it has taken at most one free value. -/
theorem fetchBytes_firstFailing {s : State} {l : List ByteSource} {i : Nat} {a : Addr} (d : Nat)
    (ha : l[i]? = some (.source a)) (hfails : busErr s.platform a = true)
    (hbefore : ∀ j, j < i → l[j]? ≠ some .absent ∧ ∀ b, l[j]? = some (.source b) → busErr s.platform b = false) :
    ∃ d', fetchBytes s l d = .busError a d' ∧ d' ≤ d + i := by
  induction l generalizing i d with
  | nil => cases ha
  | cons x r ih =>
    cases i with
    | zero =>
      cases ha
      exact ⟨d, by simp only [fetchBytes, (sourceRead_eq_busError s d a).2 hfails], le_rfl⟩
    | succ i =>
      have ih := fun d => ih d ha fun j hj => hbefore (j + 1) (Nat.succ_lt_succ hj)
      obtain ⟨hgiven, hanswers⟩ := hbefore 0 i.succ_pos
      cases x with
      | absent => exact absurd rfl hgiven
      | const b =>
        obtain ⟨d', hr, hd'⟩ := ih d
        exact ⟨d', by simp only [fetchBytes, hr, consByte], by omega⟩
      | source b =>
        obtain ⟨v, d₁, hread⟩ := sourceRead_byte d (hanswers b rfl)
        obtain ⟨d', hr, hd'⟩ := ih d₁
        have hd₁ : d₁ ≤ d + 1 := sourceRead_draws_le hread
        exact ⟨d', by simp only [fetchBytes, hread, hr, consByte], by omega⟩

/-- `KEYLOAD` and `BLOCK_LOAD` end the command alike when a read fails. -/
theorem microStep_readFails {s : State} {srcs : List ByteSource} {a : Addr} {d : Nat}
    (hload : s.eng.phase = .keyLoad ∧ srcs = keySources s.eng ∨ s.eng.phase = .blockLoad ∧ srcs = blockSources s.eng)
    (h : fetchBytes s srcs s.draws = .busError a d) :
    microStep s = .next (raiseError .busError a { s with draws := d }) := by
  obtain ⟨hphase, rfl⟩ | ⟨hphase, rfl⟩ := hload
  · simp only [microStep_keyLoad hphase, stepKeyLoad, h]
  · simp only [microStep_blockLoad hphase, stepBlockLoad, h]

end Sys2Proof.Machine
end

section
/-!
The statements about errors (60_exceptions.md): the acceptance checks, and a source read that fails.
-/

namespace Sys2Proof.Machine

/-- Settles O15: the checks look at the operands just latched; a failing one goes to `raiseError`, which leaves the engine
idle, and with none failing every path sets a phase of a running command. -/
theorem failedChecksRaiseTheFirstError : Obligations.FailedChecksRaiseTheFirstError := by
  intro s
  refine ⟨fun hfails => ?_, fun hfails => ?_, fun hlen hmsg => ?_, fun hkeyLen hlen hkey hmsg => ?_⟩
  · exact ⟨_, exec_hash_error (checkHash_eq_some hfails), rfl, aroundKept_setRegEng s _ _, rfl⟩
  · exact ⟨_, exec_hmac_error (checkHmac_eq_some hfails), rfl, aroundKept_setRegEng s _ _, rfl⟩
  · have hpass : checkHash (latchMessage s).eng = none := (checkHash_eq_none _).2 ⟨hlen, not_lt.1 hmsg⟩
    exact ⟨⟨_, exec_hash_runs hpass, rfl, rfl, rfl⟩, fun i hi => addr_exact (not_lt.1 hmsg) hi⟩
  · have hpass : checkHmac (latchMessage (latchKey s)).eng = none :=
      (checkHmac_eq_none _).2 ⟨hkeyLen, hlen, not_lt.1 hkey, not_lt.1 hmsg⟩
    refine ⟨?_, fun i hi => addr_exact (not_lt.1 hkey) hi, fun i hi => addr_exact (not_lt.1 hmsg) hi⟩
    by_cases hlong : 64 < (keyLenOf s.reg).toNat
    · exact ⟨_, (exec_hmac_runs hpass).trans (if_pos hlong), rfl, rfl, rfl⟩
    · exact ⟨_, (exec_hmac_runs hpass).trans (if_neg hlong), rfl, rfl, rfl⟩

/-- Settles O36: the load stops at the failing read, and the micro-step raises its address; `raiseError` changes the error
report and the internal state alone. -/
theorem firstFailingReadEndsTheCommand : Obligations.FirstFailingReadEndsTheCommand := by
  intro s srcs i a hturn hrst hload ha hfails hbefore
  obtain ⟨d, hfetch, hd⟩ := fetchBytes_firstFailing (s := popTurn s) s.draws ha hfails hbefore
  have hstep : step s = .next (raiseError .busError a { popTurn s with draws := d }) :=
    (step_engine hturn hrst).trans (microStep_readFails (s := popTurn s) hload hfetch)
  exact ⟨_, hstep, rfl, rfl, fun _ => rfl, rfl, rfl, rfl, rfl, rfl, rfl, hd⟩

end Sys2Proof.Machine
end

section
/-!
SUPPORT. What a host's turn can do, said once: it moves the host on, writes through the register port, or stores a byte;
and what the acceptance of a command leads to (43_commands.md R193 to R197).
-/

namespace Sys2Proof.Machine

/-- The states that host `k`'s turn (R95) can lead to from `s`. -/
inductive HostTurnResult (k : Nat) (s : State) : State → Prop
  /-- Only the hosts' records and the count of free values a host has taken move. -/
  | moves (ms : List Master) (l : Nat) : HostTurnResult k s { s with masters := ms, loads := l }
  /-- The register port is written, the host having gone on. -/
  | writes (ms : List Master) (off : Byte) (v : Word) {t : State}
      (hwrite : writePort off v { s with masters := ms } = .next t) : HostTurnResult k s t
  /-- One byte of a `STORE` is stored, the host having gone on. -/
  | stores (ms : List Master) (m : Master) (a : Nat) (b : Byte) (bs : List Byte) (p : List Stmt)
      (hmaster : s.masters[k]? = some m) (hprog : m.prog = .store a (b :: bs) :: p) (haddr : a < memorySize) :
      HostTurnResult k s (storeByte a b { s with masters := ms })

theorem writeAccess_result {k : Nat} {ms : List Master} {a : Access} {s t : State}
    (h : writeAccess a { s with masters := ms } = .next t) : HostTurnResult k s t := by
  unfold writeAccess at h
  split at h
  · exact .writes ms a.off a.data h
  · cases h
    exact .moves ms s.loads

theorem runStmt_result {k : Nat} {m : Master} {st : Stmt} {p : List Stmt} {s t : State}
    (hmaster : s.masters[k]? = some m) (hprog : m.prog = st :: p) (h : runStmt k m st p s = .next t) :
    HostTurnResult k s t := by
  cases st with
  | wr off v => exact .writes _ off v h
  | rd off name => cases h; exact .moves _ s.loads
  | poll off mask value =>
    simp only [runStmt] at h
    split at h <;> cases h
    · exact .moves _ s.loads
    · exact .moves s.masters s.loads
  | store a bs =>
    cases bs with
    | nil => cases h; exact .moves _ s.loads
    | cons b bs =>
      simp only [runStmt] at h
      split at h
      case isTrue haddr => cases h; exact .stores _ m a b bs p hmaster hprog haddr
      case isFalse => cases h
  | access a name =>
    simp only [runStmt] at h
    split at h
    · exact writeAccess_result h
    · cases h
      exact .moves _ s.loads
  | load a name => cases h; exact .moves _ _

/-- Every next state of a host's turn is one of the three results. -/
theorem hostTurn_result {k : Nat} {s t : State} (h : hostTurn k s = .next t) : HostTurnResult k s t := by
  unfold hostTurn at h
  split at h
  · cases h
    exact .moves s.masters s.loads
  · rename_i m hmaster
    split at h
    · cases h
      exact .moves s.masters s.loads
    · rename_i st p hprog
      exact runStmt_result hmaster hprog h

/-- The engine that `HASH` starts from the operand registers (R195). -/
def hashStarted (s : State) : Engine :=
  { s.eng with
    msgAddr := msgAddrOf s.reg, msgLen := msgLenOf s.reg
    pass := .hash, vlen := msgLenOf s.reg, phase := .passInit }

/-- The engine that `HMAC` starts from the operand registers (R196): with `KEYLOAD`, or with the pass `KEYHASH`. -/
def hmacStarted (s : State) : Engine :=
  if (keyLenOf s.reg).toNat ≤ 64 then
    { s.eng with
      msgAddr := msgAddrOf s.reg, msgLen := msgLenOf s.reg
      keyAddr := keyAddrOf s.reg, keyLen := keyLenOf s.reg, phase := .keyLoad }
  else
    { s.eng with
      msgAddr := msgAddrOf s.reg, msgLen := msgLenOf s.reg
      keyAddr := keyAddrOf s.reg, keyLen := keyLenOf s.reg
      pass := .keyHash, vlen := keyLenOf s.reg, phase := .passInit }

/-- The checks of `HASH` on the operand registers pass (R241, R242). -/
def HashChecked (r : HostRegs) : Prop :=
  (msgLenOf r).toNat < 2 ^ 61 ∧ (msgAddrOf r).toNat + (msgLenOf r).toNat ≤ 2 ^ 64

/-- The checks of `HMAC` on the operand registers pass (R241, R242). -/
def HmacChecked (r : HostRegs) : Prop :=
  (keyLenOf r).toNat < 2 ^ 61 ∧ (msgLenOf r).toNat < 2 ^ 61 - 64 ∧
    (keyAddrOf r).toNat + (keyLenOf r).toNat ≤ 2 ^ 64 ∧ (msgAddrOf r).toNat + (msgLenOf r).toNat ≤ 2 ^ 64

theorem exec_hash_started {s : State} (h : HashChecked s.reg) :
    exec .hash s = .next { s with reg := { s.reg with digest := Words8.zero }, eng := hashStarted s } :=
  exec_hash_runs ((checkHash_eq_none _).2 h)

theorem exec_hmac_started {s : State} (h : HmacChecked s.reg) :
    exec .hmac s = .next { s with reg := { s.reg with digest := Words8.zero }, eng := hmacStarted s } := by
  rw [exec_hmac_runs ((checkHmac_eq_none _).2 h)]
  obtain hlong | hshort := Nat.lt_or_ge 64 (keyLenOf s.reg).toNat
  · simp only [hmacStarted, if_pos hlong, if_neg hlong.not_ge]
    rfl
  · simp only [hmacStarted, if_neg hshort.not_gt, if_pos hshort]
    rfl

/-- The states that a command's acceptance part (R193 to R196) can lead to from `s`. -/
inductive ExecResult (s : State) : Instr → State → Prop
  /-- `NOP` and `CLR` complete at once. -/
  | completes (i : Instr) (ovr : Bool) (d : Words8)
      (hi : i = .nop ∧ ovr = s.reg.ovr ∧ d = s.reg.digest ∨ i = .clr ∧ ovr = false ∧ d = Words8.zero) :
      ExecResult s i { s with reg := { s.reg with done := true, ovr := ovr, digest := d }, eng := Engine.idle }
  /-- A check fails. -/
  | fails (i : Instr) (c : ErrCode) (hi : i = .hash ∨ i = .hmac) (hcode : c ≠ .none) :
      ExecResult s i
        { s with
          reg := { s.reg with digest := Words8.zero, err := true, errCode := c, errAddr := 0 }, eng := Engine.idle }
  /-- `HASH` runs. -/
  | hashRuns (hchecked : HashChecked s.reg) :
      ExecResult s .hash { s with reg := { s.reg with digest := Words8.zero }, eng := hashStarted s }
  /-- `HMAC` runs. -/
  | hmacRuns (hchecked : HmacChecked s.reg) :
      ExecResult s .hmac { s with reg := { s.reg with digest := Words8.zero }, eng := hmacStarted s }

/-- Every command has a meaning in every state, and its next state is one of the four results. -/
theorem exec_result (i : Instr) (s : State) : ∃ t, exec i s = .next t ∧ ExecResult s i t := by
  cases i with
  | nop => exact ⟨_, exec_nop s, .completes .nop s.reg.ovr s.reg.digest (.inl ⟨rfl, rfl, rfl⟩)⟩
  | clr => exact ⟨_, exec_clr s, .completes .clr false Words8.zero (.inr ⟨rfl, rfl, rfl⟩)⟩
  | hash =>
    cases hc : checkHash (latchMessage s).eng with
    | some c => exact ⟨_, exec_hash_error hc, .fails .hash c (.inl rfl) (checkHash_code _ c hc).1⟩
    | none =>
      have hchecked : HashChecked s.reg := (checkHash_eq_none _).1 hc
      exact ⟨_, exec_hash_started hchecked, .hashRuns hchecked⟩
  | hmac =>
    cases hc : checkHmac (latchMessage (latchKey s)).eng with
    | some c => exact ⟨_, exec_hmac_error hc, .fails .hmac c (.inr rfl) (checkHmac_code _ c hc).1⟩
    | none =>
      have hchecked : HmacChecked s.reg := (checkHmac_eq_none _).1 hc
      exact ⟨_, exec_hmac_started hchecked, .hmacRuns hchecked⟩

/-- What a word written to `CMD` of an idle engine comes to (R190, R197): a command's meaning, or `ILLEGAL_CMD`. -/
theorem acceptCommand_result (v : Word) (s : State) :
    ∃ t, acceptCommand v s = .next t ∧
      ((∃ i, ExecResult (acceptClear s) i t) ∨ t = raiseError .illegalCmd 0 (acceptClear s)) := by
  unfold acceptCommand
  cases decode v with
  | ok i =>
    obtain ⟨t, hexec, hresult⟩ := exec_result i (acceptClear s)
    exact ⟨t, hexec, .inl ⟨i, hresult⟩⟩
  | error e => exact ⟨_, rfl, .inr rfl⟩

/-- A write to the port always has a next state. -/
theorem writePort_next (off : Byte) (v : Word) (s : State) : ∃ t, writePort off v s = .next t := by
  by_cases hrst : s.rst = true
  · exact ⟨s, writePort_held off v s hrst⟩
  rw [Bool.not_eq_true] at hrst
  cases hr : regAt off with
  | none => exact ⟨s, writePort_none v s hr⟩
  | some r =>
    by_cases hcmd : r = .cmd
    · subst hcmd
      rw [writePort_cmd v hrst hr]
      cases hb : busy s with
      | true => exact ⟨_, writeCmd_busy v s hb⟩
      | false =>
        obtain ⟨t, haccept, _⟩ := acceptCommand_result v s
        exact ⟨t, (writeCmd_idle v s hb).trans haccept⟩
    · exact ⟨_, writePort_reg v hrst hr hcmd⟩

end Sys2Proof.Machine
end

section
/-!
SUPPORT. The invariant of the engine (10_state.md R46, R47, R54): its clauses about the internal state are gathered in
one predicate, which every micro-step keeps.
-/

namespace Sys2Proof.Machine

/-- The clauses of the invariant that speak of the internal state alone (R54.5, R54.6, R47, R241, R242, R46). -/
structure EngineSound (e : Engine) : Prop where
  idle : e.phase = .idle → e = Engine.idle
  block : inBlock e.phase → e.blk.toNat < e.nblk.toNat ∧ e.pass ≠ .none
  named : passNamed e
  checked : operandsChecked e
  registers : passRegisters e

theorem engineSound_idle : EngineSound Engine.idle where
  idle _ := rfl
  block h := by simp [inBlock] at h
  named := by simp [passNamed]
  checked := by simp [operandsChecked, Engine.idle]
  registers := by simp [passRegisters, virtualLength, inBlock, Engine.idle]

/-- No virtual message is longer than `HASH` may take (R205, R241). -/
theorem virtualLength_lt {e : Engine} (hchecked : operandsChecked e) : virtualLength e < 2 ^ 61 := by
  obtain ⟨hmsg, hkey, hhmac, _⟩ := hchecked
  unfold virtualLength
  split
  case h_1 => exact Nat.two_pow_pos 61
  case h_2 => exact hmsg
  case h_3 => exact hkey
  case h_4 hp =>
    have hinner : e.msgLen.toNat < 2 ^ 61 - 64 := hhmac (by simp [hp])
    omega
  case h_5 => omega

theorem EngineSound.vlen_lt {e : Engine} (h : EngineSound e) : e.vlen.toNat < 2 ^ 61 := by
  obtain ⟨hvlen, _⟩ := h.registers
  rw [hvlen]
  exact virtualLength_lt h.checked

theorem nblkOf_pos (n : Nat) : 0 < nblkOf n := Nat.succ_pos _

/-- The length of the inner hash's message is exact in 64 bits (R210, R241). -/
theorem innerLength_toNat {n : BitVec 64} (h : n.toNat < 2 ^ 61 - 64) : (64 + n).toNat = 64 + n.toNat := by
  rw [BitVec.toNat_add_of_lt] <;> simp
  omega

/-- What a micro-step that goes on does to the internal state, whatever the data that it brings in. -/
inductive EngineStep (e : Engine) : Engine → Prop
  | keyLoad (k0 : Vector Byte 64) (hphase : e.phase = .keyLoad) : EngineStep e (startInner k0 e)
  | passInit (hphase : e.phase = .passInit) :
      EngineStep e { e with hs := iv, nblk := (e.vlen + 8) / 64 + 1, blk := 0, phase := .blockLoad }
  | blockLoad (w : Vector Word 16) (hphase : e.phase = .blockLoad) :
      EngineStep e { e with w := w, work := e.hs, t := 0, phase := .round }
  | round (w : Vector Word 16) (v : Words8) (hphase : e.phase = .round) (ht : e.t.toNat < 63) :
      EngineStep e { e with w := w, work := v, t := e.t + 1, phase := .round }
  | lastRound (w : Vector Word 16) (v : Words8) (hphase : e.phase = .round) (ht : ¬e.t.toNat < 63) :
      EngineStep e { e with w := w, work := v, t := 0, phase := .update }
  | nextBlock (v : Words8) (hphase : e.phase = .update) (hblk : e.blk.toNat + 1 < e.nblk.toNat) :
      EngineStep e { e with hs := v, blk := e.blk + 1, phase := .blockLoad }
  | lastBlock (v : Words8) (hphase : e.phase = .update) (hblk : ¬e.blk.toNat + 1 < e.nblk.toNat) :
      EngineStep e { e with hs := v, phase := .passEnd }
  | keyHashed (k0 : Vector Byte 64) (hphase : e.phase = .passEnd) (hpass : e.pass = .keyHash) :
      EngineStep e (startInner k0 e)
  | innerHashed (d : Vector Byte 32) (hphase : e.phase = .passEnd) (hpass : e.pass = .inner) :
      EngineStep e { e with ihd := d, pass := .outer, vlen := 96, phase := .passInit }

theorem engineStep_round {e : Engine} (hphase : e.phase = .round) :
    EngineStep e (roundSequence (roundDatapath e)) := by
  rw [roundSequence_eq]
  split
  case isTrue ht => exact .round _ _ hphase ht
  case isFalse ht => exact .lastRound _ _ hphase ht

theorem engineStep_update {s : State} (hphase : s.eng.phase = .update) : EngineStep s.eng (stepUpdate s).eng := by
  rw [stepUpdate_eng]
  split
  case isTrue hblk => exact .nextBlock _ hphase hblk
  case isFalse hblk => exact .lastBlock _ hphase hblk

theorem stepPassEnd_engine {s t : State} (hphase : s.eng.phase = .passEnd) (h : stepPassEnd s = .next t) :
    t.eng = Engine.idle ∨ EngineStep s.eng t.eng := by
  unfold stepPassEnd at h
  cases hp : s.eng.pass <;> rw [hp] at h <;> cases h
  case hash => exact .inl rfl
  case keyHash => exact .inr (.keyHashed _ hphase hp)
  case inner => exact .inr (.innerHashed _ hphase hp)
  case outer => exact .inl rfl

/-- After a micro-step of a running engine, the engine is idle or has gone on. -/
theorem microStep_engine {s t : State} (hb : busy s = true) (h : microStep s = .next t) :
    t.eng = Engine.idle ∨ EngineStep s.eng t.eng := by
  cases hp : s.eng.phase
  case idle => exact absurd hp ((busy_eq_true_iff s).1 hb)
  case keyLoad =>
    rw [microStep_keyLoad hp, stepKeyLoad] at h
    cases hf : fetchBytes s (keySources s.eng) s.draws <;> rw [hf] at h <;> cases h
    · exact .inr (.keyLoad _ hp)
    · exact .inl rfl
  case passInit => rw [microStep_passInit hp] at h; cases h; exact .inr (.passInit hp)
  case blockLoad =>
    rw [microStep_blockLoad hp, stepBlockLoad] at h
    cases hf : fetchBytes s (blockSources s.eng) s.draws <;> rw [hf] at h <;> cases h
    · exact .inr (.blockLoad _ hp)
    · exact .inl rfl
  case round => rw [microStep_round hp] at h; cases h; exact .inr (engineStep_round hp)
  case update => rw [microStep_update hp] at h; cases h; exact .inr (engineStep_update hp)
  case passEnd => rw [microStep_passEnd hp] at h; exact stepPassEnd_engine hp h

/-- Inside a pass the invariant asks only the block registers, the round index and the phase to fit together. -/
theorem EngineSound.inPass {e : Engine} (h : EngineSound e) (hpass : e.pass ≠ .none) (hs work : Words8)
    (w : Vector Word 16) {nblk blk : BitVec 64} {t : BitVec 6} {p : Phase} (hidle : p ≠ .idle) (hkey : p ≠ .keyLoad)
    (hblk : inBlock p → blk.toNat < nblk.toNat)
    (hnblk : inBlock p ∨ p = .passEnd → nblk.toNat = nblkOf e.vlen.toNat)
    (hlast : p = .passEnd → blk.toNat + 1 = nblk.toNat) (ht : p ≠ .round → t = 0) :
    EngineSound { e with hs := hs, work := work, w := w, nblk := nblk, blk := blk, t := t, phase := p } := by
  obtain ⟨hmsgLen, hkeyLen, hhmac, hmsgEnd, hkeyEnd, _⟩ := h.checked
  obtain ⟨hvlen, _⟩ := h.registers
  exact {
    idle := fun hi => absurd hi hidle
    block := fun hb => ⟨hblk hb, hpass⟩
    named := iff_of_false hpass (not_or.2 ⟨hidle, hkey⟩)
    checked := ⟨hmsgLen, hkeyLen, hhmac, hmsgEnd, hkeyEnd, fun hk => absurd hk hkey⟩
    registers := ⟨hvlen, hnblk, hlast, ht⟩ }

/-- Before `PASS_INIT` the invariant asks nothing of the block registers. -/
theorem engineSound_passInit {e : Engine} (hphase : e.phase = .passInit) (hpass : e.pass ≠ .none)
    (hchecked : operandsChecked e) (hvlen : e.vlen.toNat = virtualLength e) (ht : e.t = 0) : EngineSound e where
  idle hi := by simp [hphase] at hi
  block hb := by simp [inBlock, hphase] at hb
  named := iff_of_false hpass (by simp [hphase])
  checked := hchecked
  registers := ⟨hvlen, by simp [inBlock, hphase], by simp [hphase], fun _ => ht⟩

/-- A pass of `HMAC` that follows another phase of it starts soundly over the length of its virtual message. -/
theorem EngineSound.nextPass {e : Engine} (h : EngineSound e) (hhash : e.pass ≠ .hash) (hround : e.phase ≠ .round)
    (k0 : Vector Byte 64) (ihd : Vector Byte 32) {q : Pass} {n : BitVec 64} (hq : q = .inner ∨ q = .outer)
    (hn : n.toNat = virtualLength { e with pass := q }) :
    EngineSound { e with k0 := k0, ihd := ihd, pass := q, vlen := n, phase := .passInit } := by
  obtain ⟨hmsgLen, hkeyLen, hhmac, hmsgEnd, hkeyEnd, _⟩ := h.checked
  obtain ⟨_, _, _, ht⟩ := h.registers
  have hnamed : q ≠ .none := by rintro rfl; simp at hq
  exact engineSound_passInit rfl hnamed
    ⟨hmsgLen, hkeyLen, fun _ => hhmac hhash, hmsgEnd, hkeyEnd, fun hk => by cases hk⟩ hn (ht hround)

theorem EngineSound.startInner {e : Engine} (h : EngineSound e) (hhash : e.pass ≠ .hash) (hround : e.phase ≠ .round)
    (k0 : Vector Byte 64) : EngineSound (startInner k0 e) := by
  obtain ⟨_, _, hhmac, _⟩ := h.checked
  exact h.nextPass hhash hround k0 e.ihd (.inl rfl) (innerLength_toNat (hhmac hhash))

/-- Outside `IDLE` and `KEYLOAD` a pass is named (R47). -/
theorem EngineSound.pass_ne_none {e : Engine} (h : EngineSound e) (hidle : e.phase ≠ .idle)
    (hkey : e.phase ≠ .keyLoad) : e.pass ≠ .none :=
  fun hpass => not_or.2 ⟨hidle, hkey⟩ (h.named.1 hpass)

/-- A micro-step that goes on keeps the invariant of the internal state. -/
theorem EngineStep.sound {e f : Engine} (hstep : EngineStep e f) (h : EngineSound e) : EngineSound f := by
  obtain ⟨_, hnblk, _, ht⟩ := h.registers
  cases hstep with
  | keyLoad k0 hphase =>
    have hpass : e.pass = .none := h.named.2 (.inr hphase)
    exact h.startInner (by simp [hpass]) (by simp [hphase]) k0
  | passInit hphase =>
    have hcount : ((e.vlen + 8) / 64 + 1).toNat = nblkOf e.vlen.toNat := blockCount_toNat h.vlen_lt
    exact h.inPass (h.pass_ne_none (by simp [hphase]) (by simp [hphase])) iv e.work e.w (by simp) (by simp)
      (fun _ => hcount ▸ nblkOf_pos _) (fun _ => hcount) (by simp) (fun _ => ht (by simp [hphase]))
  | blockLoad w hphase =>
    have hin : inBlock e.phase := .inl hphase
    obtain ⟨hblk, hpass⟩ := h.block hin
    exact h.inPass hpass e.hs e.hs w (by simp) (by simp) (fun _ => hblk) (fun _ => hnblk (.inl hin)) (by simp)
      (fun _ => rfl)
  | round w v hphase _ =>
    have hin : inBlock e.phase := .inr (.inl hphase)
    obtain ⟨hblk, hpass⟩ := h.block hin
    exact h.inPass hpass e.hs v w (by simp) (by simp) (fun _ => hblk) (fun _ => hnblk (.inl hin)) (by simp)
      (fun hp => absurd rfl hp)
  | lastRound w v hphase _ =>
    have hin : inBlock e.phase := .inr (.inl hphase)
    obtain ⟨hblk, hpass⟩ := h.block hin
    exact h.inPass hpass e.hs v w (by simp) (by simp) (fun _ => hblk) (fun _ => hnblk (.inl hin)) (by simp)
      (fun _ => rfl)
  | nextBlock v hphase hmore =>
    have hin : inBlock e.phase := .inr (.inr hphase)
    obtain ⟨_, hpass⟩ := h.block hin
    have hnext : (e.blk + 1).toNat = e.blk.toNat + 1 := by
      rw [BitVec.toNat_add_of_lt] <;> simp
      omega
    exact h.inPass hpass v e.work e.w (by simp) (by simp) (fun _ => hnext ▸ hmore) (fun _ => hnblk (.inl hin))
      (by simp) (fun _ => ht (by simp [hphase]))
  | lastBlock v hphase hlast =>
    have hin : inBlock e.phase := .inr (.inr hphase)
    obtain ⟨hblk, hpass⟩ := h.block hin
    exact h.inPass hpass v e.work e.w (by simp) (by simp) (by simp [inBlock]) (fun _ => hnblk (.inl hin))
      (fun _ => by omega) (fun _ => ht (by simp [hphase]))
  | keyHashed k0 hphase hpass => exact h.startInner (by simp [hpass]) (by simp [hphase]) k0
  | innerHashed d hphase hpass =>
    exact h.nextPass (by simp [hpass]) (by simp [hphase]) e.k0 d (.inr rfl) rfl

theorem engineSound_hashStarted {s : State} (heng : s.eng = Engine.idle) (h : HashChecked s.reg) :
    EngineSound (hashStarted s) := by
  obtain ⟨hlen, hend⟩ := h
  rw [hashStarted, heng]
  exact engineSound_passInit rfl (by simp)
    ⟨hlen, Nat.two_pow_pos 61, fun hp => absurd rfl hp, hend, Nat.zero_le _, fun hk => by cases hk⟩ rfl rfl

theorem engineSound_hmacStarted {s : State} (heng : s.eng = Engine.idle) (h : HmacChecked s.reg) :
    EngineSound (hmacStarted s) := by
  obtain ⟨hkeyLen, hmsgLen, hkeyEnd, hmsgEnd⟩ := h
  have hmsgLen' : (msgLenOf s.reg).toNat < 2 ^ 61 := by omega
  rw [hmacStarted, heng]
  split
  case isTrue hshort =>
    exact {
      idle := fun hi => by cases hi
      block := fun hb => by simp [inBlock] at hb
      named := iff_of_true rfl (.inr rfl)
      checked := ⟨hmsgLen', hkeyLen, fun _ => hmsgLen, hmsgEnd, hkeyEnd, fun _ => hshort⟩
      registers := ⟨rfl, by simp [inBlock], by simp, fun _ => rfl⟩ }
  case isFalse hlong =>
    exact engineSound_passInit rfl (by simp)
      ⟨hmsgLen', hkeyLen, fun _ => hmsgLen, hmsgEnd, hkeyEnd, fun hk => by cases hk⟩ rfl rfl

end Sys2Proof.Machine
end

section
/-!
SUPPORT. The invariant of the machine: its clauses about the reported outcome are gathered in one predicate on the
registers, and every turn keeps each of its four parts.
-/

namespace Sys2Proof.Machine

/-- Nothing is reported and no result is visible, as while a command runs (R54.1). -/
def NothingReported (r : HostRegs) : Prop :=
  r.done = false ∧ r.err = false ∧ r.errCode = .none ∧ r.errAddr = 0 ∧ r.digest = Words8.zero

/-- The clauses of the invariant that speak of the reported outcome alone (R54.2 to R54.4). -/
def ReportSound (r : HostRegs) : Prop :=
  (r.err = false ↔ r.errCode = .none) ∧ ¬(r.done = true ∧ r.err = true) ∧ (r.errAddr ≠ 0 → r.errCode = .busError)

/-- The invariant in four parts: the reported outcome, the internal state, memory, and `rst`. -/
theorem inv_iff (s : State) :
    s.Inv ↔
      ((s.eng.phase ≠ .idle → NothingReported s.reg) ∧ ReportSound s.reg) ∧ EngineSound s.eng ∧ memorySound s ∧
        resetHeld s := by
  constructor
  · rintro ⟨⟨hrun, hcode, hone, haddr, hidle, hblock⟩, hnamed, hchecked, hregisters, hmem, hheld⟩
    exact ⟨⟨fun hb => hrun ((busy_eq_true_iff s).2 hb), hcode, hone, haddr⟩,
      ⟨hidle, hblock, hnamed, hchecked, hregisters⟩, hmem, hheld⟩
  · rintro ⟨⟨hrun, hcode, hone, haddr⟩, ⟨hidle, hblock, hnamed, hchecked, hregisters⟩, hmem, hheld⟩
    exact ⟨⟨fun hb => hrun ((busy_eq_true_iff s).1 hb), hcode, hone, haddr, hidle, hblock⟩, hnamed, hchecked,
      hregisters, hmem, hheld⟩

theorem NothingReported.sound {r : HostRegs} (h : NothingReported r) : ReportSound r := by
  obtain ⟨hdone, herr, hcode, haddr, _⟩ := h
  simp [ReportSound, hdone, herr, hcode, haddr]

/-- An error with its code, and an address only with a bus error, is a sound report (R244). -/
theorem reportSound_error {r : HostRegs} {c : ErrCode} {a : Addr} (hdone : r.done = false) (hcode : c ≠ .none)
    (haddr : a ≠ 0 → c = .busError) (d : Words8) :
    ReportSound { r with digest := d, err := true, errCode := c, errAddr := a } := by
  simpa [ReportSound, hdone, hcode] using haddr

/-- `DONE` with no error is a sound report (R198). -/
theorem reportSound_done {r : HostRegs} (herr : r.err = false) (hcode : r.errCode = .none) (haddr : r.errAddr = 0)
    (o : Bool) (d : Words8) : ReportSound { r with done := true, ovr := o, digest := d } := by
  simp [ReportSound, herr, hcode, haddr]

theorem resetHeld_of_released {s : State} (hrst : s.rst = false) : resetHeld s :=
  fun hr => absurd (hrst.symm.trans hr) (by decide)

/-- With the engine idle the invariant asks of the internal state only that there is none (R54.5). -/
theorem inv_idle {s : State} (heng : s.eng = Engine.idle) (hreport : ReportSound s.reg) (hmem : memorySound s)
    (hheld : resetHeld s) : s.Inv :=
  (inv_iff s).2 ⟨⟨fun hb => absurd (congrArg Engine.phase heng) hb, hreport⟩, heng ▸ engineSound_idle, hmem, hheld⟩

/-- With nothing reported and `rst` not asserted the engine may run. -/
theorem inv_running {s : State} (hreport : NothingReported s.reg) (heng : EngineSound s.eng) (hmem : memorySound s)
    (hrst : s.rst = false) : s.Inv :=
  (inv_iff s).2 ⟨⟨fun _ => hreport, hreport.sound⟩, heng, hmem, resetHeld_of_released hrst⟩

/-! ### The register port -/

theorem writeStatus_nothingReported {r : HostRegs} (v : Word) (h : NothingReported r) :
    NothingReported (writeStatus v r) := by
  obtain ⟨hdone, herr, hcode, haddr, hdigest⟩ := h
  unfold writeStatus clearReport
  split_ifs <;> simp [NothingReported, hdone, herr, hcode, haddr, hdigest]

theorem writeStatus_sound {r : HostRegs} (v : Word) (h : ReportSound r) : ReportSound (writeStatus v r) := by
  obtain ⟨hcode, hone, haddr⟩ := h
  unfold writeStatus clearReport
  split_ifs <;> simp_all [ReportSound]

theorem writeHostReg_nothingReported {r : HostRegs} (x : Reg) (v : Word) (h : NothingReported r) :
    NothingReported (writeHostReg x v r) := by
  cases x
  case status => exact writeStatus_nothingReported v h
  all_goals exact h

theorem writeHostReg_sound {r : HostRegs} (x : Reg) (v : Word) (h : ReportSound r) :
    ReportSound (writeHostReg x v r) := by
  cases x
  case status => exact writeStatus_sound v h
  all_goals exact h

theorem memorySound_acceptClear {s : State} (h : memorySound s) : memorySound (acceptClear s) := by
  obtain ⟨hwf, hpending⟩ := h
  exact ⟨hwf, by rwa [pendingStores_acceptClear]⟩

/-- A word written to `CMD` of an idle engine keeps the invariant. -/
theorem acceptCommand_inv {v : Word} {s t : State} (h : s.Inv) (hrst : s.rst = false) (hidle : busy s = false)
    (haccept : acceptCommand v s = .next t) : t.Inv := by
  obtain ⟨⟨_, _⟩, hsound, hmem, _⟩ := (inv_iff s).1 h
  have heng : s.eng = Engine.idle := hsound.idle ((busy_eq_false_iff s).1 hidle)
  have hmem' : memorySound (acceptClear s) := memorySound_acceptClear hmem
  obtain ⟨u, hu, hresult⟩ := acceptCommand_result v s
  cases hu.symm.trans haccept
  obtain ⟨i, hresult⟩ | rfl := hresult
  · cases hresult with
    | completes _ o d _ => exact inv_idle rfl (reportSound_done rfl rfl rfl o d) hmem' (resetHeld_of_released hrst)
    | fails _ c _ hcode =>
      exact inv_idle rfl (reportSound_error rfl hcode (fun hz => absurd rfl hz) _) hmem'
        (resetHeld_of_released hrst)
    | hashRuns hchecked =>
      exact inv_running ⟨rfl, rfl, rfl, rfl, rfl⟩ (engineSound_hashStarted heng hchecked) hmem' hrst
    | hmacRuns hchecked =>
      exact inv_running ⟨rfl, rfl, rfl, rfl, rfl⟩ (engineSound_hmacStarted heng hchecked) hmem' hrst
  · exact inv_idle rfl (reportSound_error rfl (by decide) (fun hz => absurd rfl hz) _) hmem'
      (resetHeld_of_released hrst)

/-- With `rst` not asserted, registers that report no more than before keep the invariant. -/
theorem State.Inv.setReg {s : State} (h : s.Inv) (hrst : s.rst = false) {r : HostRegs}
    (hnothing : NothingReported s.reg → NothingReported r) (hsound : ReportSound s.reg → ReportSound r) :
    State.Inv { s with reg := r } := by
  obtain ⟨⟨hrun, hreport⟩, heng, hmem, _⟩ := (inv_iff s).1 h
  exact (inv_iff _).2 ⟨⟨fun hb => hnothing (hrun hb), hsound hreport⟩, heng, hmem,
    resetHeld_of_released hrst⟩

theorem writePort_inv {off : Byte} {v : Word} {s t : State} (h : s.Inv) (hwrite : writePort off v s = .next t) :
    t.Inv := by
  obtain rfl | ⟨hrst, _, _, rfl⟩ | ⟨hrst, _, hidle, haccept⟩ | ⟨x, hrst, _, rfl⟩ := writePort_cases hwrite
  · exact h
  · exact h.setReg hrst (fun hn => hn) (fun hr => hr)
  · exact acceptCommand_inv h hrst hidle haccept
  · exact h.setReg hrst (writeHostReg_nothingReported x v) (writeHostReg_sound x v)

/-! ### The turns -/

theorem memorySound_storeByte {s : State} {a : Nat} (b : Byte) (h : memorySound s) (ha : a < memorySize) :
    memorySound (storeByte a b s) := by
  obtain ⟨hwf, hpending⟩ := h
  refine ⟨by rwa [storeByte_mem], fun c hc => ?_⟩
  rw [pendingStores_storeByte, List.mem_append, List.mem_singleton] at hc
  obtain hc | rfl := hc
  · exact hpending c hc
  · exact ha

theorem hostTurn_inv {k : Nat} {s t : State} (h : s.Inv) (hturn : hostTurn k s = .next t) : t.Inv := by
  cases hostTurn_result hturn with
  | moves ms l => exact h
  | writes ms off v hwrite => exact writePort_inv (s := { s with masters := ms }) h hwrite
  | stores ms m a b bs p _ _ haddr =>
    obtain ⟨hreport, heng, hmem, hheld⟩ := (inv_iff s).1 h
    rw [inv_iff, storeByte_eng, storeByte_reg]
    refine ⟨hreport, heng, memorySound_storeByte b hmem haddr, ?_⟩
    rw [resetHeld, storeByte_rst, storeByte_eng, storeByte_reg]
    exact hheld

theorem publishStore_inv {s : State} (k : Nat) (h : s.Inv) : (publishStore k s).Inv := by
  obtain hkept | ⟨_, a, b, hpending, hwritten⟩ := publishStore_cases k s
  · rwa [hkept]
  · obtain ⟨hreport, heng, ⟨hwf, haddrs⟩, hheld⟩ := (inv_iff s).1 h
    rw [hwritten, inv_iff]
    refine ⟨hreport, heng, ⟨Memory.write_wf s.mem a b hwf (haddrs (a, b) hpending), fun c hc => ?_⟩, hheld⟩
    rw [pendingStores, List.append_nil] at hc
    exact haddrs c (List.mem_of_mem_eraseIdx hc)

theorem nothingReported_reset : NothingReported HostRegs.reset := ⟨rfl, rfl, rfl, rfl, rfl⟩

theorem driveReset_inv {s : State} (level : Bool) (h : s.Inv) : (driveReset level s).Inv := by
  unfold driveReset
  split
  · obtain ⟨_, _, hmem, _⟩ := (inv_iff s).1 h
    exact inv_idle rfl nothingReported_reset.sound hmem fun _ => ⟨rfl, rfl⟩
  · exact h

/-- A micro-step of a running engine with nothing reported keeps the invariant. -/
theorem MicroStepResult.inv {s t : State} (hresult : MicroStepResult s t) (h : s.Inv) (hrst : s.rst = false)
    (hstep : microStep s = .next t) : t.Inv := by
  obtain ⟨⟨hrun, _⟩, heng, hmem, _⟩ := (inv_iff s).1 h
  cases hresult with
  | rests _ => exact h
  | goesOn e d hbusy hgoes =>
    obtain hidle | hengine := microStep_engine ((busy_eq_true_iff s).2 hbusy) hstep
    · exact absurd (congrArg Engine.phase hidle) hgoes
    · exact inv_running (hrun hbusy) (hengine.sound heng) hmem hrst
  | completes hphase _ =>
    obtain ⟨_, herr, hcode, haddr, _⟩ := hrun (by simp [hphase])
    exact inv_idle rfl (reportSound_done herr hcode haddr s.reg.ovr _) hmem (resetHeld_of_released hrst)
  | fails a d hphase =>
    have hbusy : s.eng.phase ≠ .idle := by obtain hp | hp := hphase <;> simp [hp]
    obtain ⟨hdone, _⟩ := hrun hbusy
    exact inv_idle rfl (reportSound_error hdone (by decide) (fun _ => rfl) _) hmem (resetHeld_of_released hrst)

theorem engineTurn_inv {s t : State} (h : s.Inv) (hturn : engineTurn s = .next t) : t.Inv := by
  obtain ⟨_, rfl⟩ | ⟨hrst, hresult⟩ := engineTurn_result hturn
  · exact h
  · have hstep : microStep s = .next t := by rwa [engineTurn, hrst] at hturn
    exact hresult.inv h hrst hstep

theorem takeTurn_inv {turn : Turn} {s t : State} (h : s.Inv) (hturn : takeTurn turn s = .next t) : t.Inv := by
  cases turn with
  | engine => exact engineTurn_inv h hturn
  | host k => exact hostTurn_inv h hturn
  | publish k => cases hturn; exact publishStore_inv k h
  | reset level => cases hturn; exact driveReset_inv level h

end Sys2Proof.Machine
end

section
/-!
SUPPORT. The bytes that the micro-steps load (43_commands.md R205, R210, R212): the padding of a pass, that none of
them is missing in a sound state, and so that no micro-step faults.
-/

namespace Sys2Proof.Machine

/-- The length field of a pass is that of its virtual message (R113). -/
theorem lengthField_eq {e : Engine} {n : Nat} (hn : n = e.vlen.toNat) : BitVec.ofNat 64 (8 * n) = 8 * e.vlen := by
  rw [hn, BitVec.ofNat_mul, BitVec.ofNat_toNat, BitVec.setWidth_eq]
  rfl

/-- Past the virtual message, the padded stream is the padding of any message of its length (R114). -/
theorem paddedByte_padding {e : Engine} {m : List Byte} {p : Nat} (hm : m.length = e.vlen.toNat)
    (hnblk : e.nblk.toNat = nblkOf e.vlen.toNat) (hp : e.vlen.toNat ≤ p) (hend : p < 64 * e.nblk.toNat) :
    paddedByte e p = .const (padByte m p) := by
  rw [hnblk, ← hm] at hend
  rw [← hm] at hp
  rw [paddedByte, hnblk, ← hm, if_neg hp.not_gt]
  obtain rfl | hgt := hp.eq_or_lt
  · rw [if_pos rfl, padByte_marker]
  rw [if_neg hgt.ne']
  obtain hzero | hfield := Nat.lt_or_ge p (64 * nblkOf m.length - 8)
  · rw [if_pos hzero, padByte_zeros hgt hzero]
  · have hindex : p - (64 * nblkOf m.length - 8) < (be64 (8 * e.vlen)).length := by
      rw [be64_length]
      omega
    rw [if_neg hfield.not_gt, padByte_lengthField hfield, lengthField_eq hm, List.getElem?_eq_getElem hindex,
      List.getD_eq_getElem _ _ hindex]

theorem paddedByte_virtual {e : Engine} {p : Nat} (h : p < e.vlen.toNat) : paddedByte e p = virtualByte e p := if_pos h

theorem virtualByte_given {e : Engine} {p : Nat} (h : p < virtualLength e) : virtualByte e p ≠ .absent := by
  unfold virtualLength at h
  unfold virtualByte
  cases hp : e.pass <;> rw [hp] at h
  case none => exact absurd h p.not_lt_zero
  case hash => simp [msgByte]
  case keyHash => simp [keyByte]
  case inner =>
    dsimp only
    split <;> simp [msgByte]
  case outer =>
    have hd : ¬p < 64 → p - 64 < 32 := by
      dsimp only at h
      omega
    dsimp only
    split
    · simp
    · simp [hd ‹_›]

/-- The current block's bytes lie in the padded stream (R112, R212). -/
theorem block_index_lt {e : Engine} (hblk : e.blk.toNat < e.nblk.toNat) {i : Nat} (hi : i < 64) :
    64 * e.blk.toNat + i < 64 * e.nblk.toNat := by omega

theorem paddedByte_given {e : Engine} (hvlen : e.vlen.toNat = virtualLength e)
    (hnblk : e.nblk.toNat = nblkOf e.vlen.toNat) {p : Nat} (hp : p < 64 * e.nblk.toNat) :
    paddedByte e p ≠ .absent := by
  obtain hin | hout := Nat.lt_or_ge p e.vlen.toNat
  · rw [paddedByte_virtual hin]
    exact virtualByte_given (hvlen ▸ hin)
  · rw [paddedByte_padding (m := List.replicate e.vlen.toNat 0) (by simp) hnblk hout hp]
    simp

theorem mem_blockSources {e : Engine} {x : ByteSource} :
    x ∈ blockSources e ↔ ∃ i, i < 64 ∧ paddedByte e (64 * e.blk.toNat + i) = x := by
  simp [blockSources]

theorem blockSources_given {e : Engine} (h : EngineSound e) (hphase : e.phase = .blockLoad) :
    ∀ x ∈ blockSources e, x ≠ .absent := by
  have hin : inBlock e.phase := .inl hphase
  obtain ⟨hblk, _⟩ := h.block hin
  obtain ⟨hvlen, hnblk, _⟩ := h.registers
  intro x hx
  obtain ⟨i, hi, rfl⟩ := mem_blockSources.1 hx
  exact paddedByte_given hvlen (hnblk (.inl hin)) (block_index_lt hblk hi)

theorem keySources_given (e : Engine) : ∀ x ∈ keySources e, x ≠ .absent := by
  intro x hx
  simp only [keySources, List.mem_map] at hx
  obtain ⟨i, _, rfl⟩ := hx
  split <;> simp [keyByte]

theorem stepKeyLoad_next (s : State) : ∃ t, stepKeyLoad s = .next t := by
  unfold stepKeyLoad
  obtain ⟨bs, d, hf⟩ | ⟨a, d, hf⟩ := fetchBytes_given s.draws (keySources_given s.eng)
  all_goals
    rw [hf]
    exact ⟨_, rfl⟩

theorem stepBlockLoad_next {s : State} (h : EngineSound s.eng) (hphase : s.eng.phase = .blockLoad) :
    ∃ t, stepBlockLoad s = .next t := by
  unfold stepBlockLoad
  obtain ⟨bs, d, hf⟩ | ⟨a, d, hf⟩ := fetchBytes_given s.draws (blockSources_given h hphase)
  all_goals
    rw [hf]
    exact ⟨_, rfl⟩

theorem stepPassEnd_next {s : State} (hpass : s.eng.pass ≠ .none) : ∃ t, stepPassEnd s = .next t := by
  unfold stepPassEnd
  cases hp : s.eng.pass
  case none => exact absurd hp hpass
  all_goals exact ⟨_, rfl⟩

/-- No micro-step of a sound engine faults (R50). -/
theorem microStep_next {s : State} (h : EngineSound s.eng) : ∃ t, microStep s = .next t := by
  cases hp : s.eng.phase
  case idle => exact ⟨_, microStep_idle hp⟩
  case keyLoad => exact microStep_keyLoad hp ▸ stepKeyLoad_next s
  case passInit => exact ⟨_, microStep_passInit hp⟩
  case blockLoad => exact microStep_blockLoad hp ▸ stepBlockLoad_next h hp
  case round => exact ⟨_, microStep_round hp⟩
  case update => exact ⟨_, microStep_update hp⟩
  case passEnd => exact microStep_passEnd hp ▸ stepPassEnd_next (h.pass_ne_none (by simp [hp]) (by simp [hp]))

theorem engineTurn_next {s : State} (h : EngineSound s.eng) : ∃ t, engineTurn s = .next t := by
  unfold engineTurn
  split
  · exact ⟨s, rfl⟩
  · exact microStep_next h

/-- Every statement of a host has a next state but a `STORE` to an address that does not exist (R53). -/
theorem runStmt_next_or_outside (k : Nat) (m : Master) (st : Stmt) (p : List Stmt) (s : State) :
    (∃ t, runStmt k m st p s = .next t) ∨
      runStmt k m st p s = .fault .storeOutsideMemory ∧ ∃ a b bs, st = .store a (b :: bs) ∧ memorySize ≤ a := by
  cases st with
  | wr off v => exact .inl (writePort_next off v _)
  | rd off name => exact .inl ⟨_, rfl⟩
  | poll off mask value =>
    left
    simp only [runStmt]
    split <;> exact ⟨_, rfl⟩
  | store a bs =>
    cases bs with
    | nil => exact .inl ⟨_, rfl⟩
    | cons b bs =>
      by_cases ha : a < memorySize
      · exact .inl ⟨_, if_pos ha⟩
      · exact .inr ⟨if_neg ha, a, b, bs, rfl, not_lt.1 ha⟩
  | access a name =>
    left
    simp only [runStmt, writeAccess]
    split
    · split
      · exact writePort_next ..
      · exact ⟨_, rfl⟩
    · exact ⟨_, rfl⟩
  | load a name => exact .inl ⟨_, rfl⟩

/-- Every turn of a host has a next state but that of a `STORE` to an address that does not exist. -/
theorem hostTurn_next_or_outside (k : Nat) (s : State) :
    (∃ t, hostTurn k s = .next t) ∨
      hostTurn k s = .fault .storeOutsideMemory ∧
        ∃ m a b bs p, s.masters[k]? = some m ∧ m.prog = .store a (b :: bs) :: p ∧ memorySize ≤ a := by
  unfold hostTurn
  cases hm : s.masters[k]? with
  | none => exact .inl ⟨s, rfl⟩
  | some m =>
    dsimp only
    cases hprog : m.prog with
    | nil => exact .inl ⟨s, rfl⟩
    | cons st p =>
      obtain hnext | ⟨hfault, a, b, bs, rfl, ha⟩ := runStmt_next_or_outside k m st p s
      · exact .inl hnext
      · exact .inr ⟨hfault, m, a, b, bs, p, rfl, hprog, ha⟩

end Sys2Proof.Machine
end

section
/-!
The statements about the invariant (10_state.md R54): it holds at reset, every step keeps it, and in a state that meets
it the machine goes on.
-/

namespace Sys2Proof.Machine

/-- Settles O3: at reset nothing is reported, the engine is idle, and memory and the pending stores are empty. -/
theorem resetMeetsTheInvariant : Obligations.ResetMeetsTheInvariant := by
  intro p
  have hmem : memorySound (State.resetOn p) := ⟨resetOn_mem_wf p, fun c hc => absurd hc (List.not_mem_nil)⟩
  exact inv_idle rfl nothingReported_reset.sound hmem fun _ => ⟨rfl, rfl⟩

/-- Settles O4: a step is one turn, and the invariant does not speak of the turns to come. -/
theorem everyStepKeepsTheInvariant : Obligations.EveryStepKeepsTheInvariant := by
  intro s t h hstep
  exact takeTurn_inv (s := popTurn s) h hstep

/-- Settles O5: by the agent whose turn it is; a sound engine never faults. -/
theorem onlyStoresOutsideMemoryStop : Obligations.OnlyStoresOutsideMemoryStop := by
  intro s h
  obtain ⟨_, hengine, _, _⟩ := (inv_iff s).1 h
  unfold step
  cases hturn : nextTurn s with
  | engine => exact .inl (engineTurn_next (s := popTurn s) hengine)
  | host k =>
    obtain hnext | ⟨hfault, m, a, b, bs, p, hmaster, hprog, ha⟩ := hostTurn_next_or_outside k (popTurn s)
    · exact .inl hnext
    · exact .inr ⟨hfault, k, m, a, b, bs, p, ⟨hturn, hmaster, hprog⟩, ha⟩
  | publish k => exact .inl ⟨_, rfl⟩
  | reset level => exact .inl ⟨_, rfl⟩

end Sys2Proof.Machine
end

section
/-!
SUPPORT. The register port offset by offset (10_state.md R22 to R33): which register is at an offset, the fields of
`STATUS`, what a write to it and to an operand register comes to, and the offsets that ignore writes.
-/

namespace Sys2Proof.Machine

/-- R22 read backwards: an offset names a register only if it is that register's own. -/
theorem eq_offsetOf_of_regAt {off : Byte} {r : Reg} (h : regAt off = some r) : off = offsetOf r := by
  unfold regAt at h
  split_ifs at h with haligned
  split at h <;> cases h <;> (apply BitVec.eq_of_toNat_eq; simp [offsetOf]; omega)

/-- A field of `STATUS` above its four flags. -/
theorem statusWord_field (s : State) {start len : Nat} (h : 4 ≤ start) :
    (statusWord s).extractLsb' start len =
      ((0 : BitVec 20) ++ s.reg.errCode.bits ++ (0 : BitVec 4)).extractLsb' (start - 1 - 1 - 1 - 1) len := by
  rw [statusWord, BitVec.extractLsb'_append_eq_of_le (by omega), BitVec.extractLsb'_append_eq_of_le (by omega),
    BitVec.extractLsb'_append_eq_of_le (by omega), BitVec.extractLsb'_append_eq_of_le (by omega)]

theorem statusWord_bit3 (s : State) : (statusWord s).getLsbD 3 = s.reg.ovr := by
  rw [statusWord, getLsbD_append_flagBit_succ, getLsbD_append_flagBit_succ, getLsbD_append_flagBit_succ,
    getLsbD_append_flagBit_zero]

theorem statusWord_reservedLow (s : State) : (statusWord s).extractLsb' 4 4 = 0 := by
  rw [statusWord_field s (le_refl 4)]
  exact BitVec.extractLsb'_append_eq_right

theorem statusWord_errCode (s : State) : (statusWord s).extractLsb' 8 4 = s.reg.errCode.bits := by
  rw [statusWord_field s (by decide), BitVec.extractLsb'_append_eq_of_le (by decide)]
  exact BitVec.extractLsb'_append_eq_right

theorem statusWord_reservedHigh (s : State) : (statusWord s).extractLsb' 12 20 = 0 := by
  rw [statusWord_field s (by decide), BitVec.extractLsb'_append_eq_of_le (by decide)]
  exact BitVec.extractLsb'_append_eq_left

/-- The effect of a `STATUS` write on every field it can clear (R25). -/
theorem writeStatus_eq (v : Word) (r : HostRegs) :
    writeStatus v r =
      { r with
        done := r.done && !v.getLsbD 1
        err := r.err && !v.getLsbD 2
        errCode := if v.getLsbD 2 then .none else r.errCode
        errAddr := if v.getLsbD 2 then 0 else r.errAddr
        ovr := r.ovr && !v.getLsbD 3 } := by
  unfold writeStatus clearReport
  cases v.getLsbD 1 <;> cases v.getLsbD 2 <;> cases v.getLsbD 3 <;> simp

theorem writePort_status (v : Word) {s : State} (hs : s.rst = false) :
    writePort 0x08 v s = .next { s with reg := writeStatus v s.reg } :=
  writePort_reg v hs (regAt_offsetOf .status) (by decide)

/-- The eight operand registers (R27 to R30), in the order of their offsets. -/
def operandRegs : List Reg :=
  [.msgAddrLo, .msgAddrHi, .msgLenLo, .msgLenHi, .keyAddrLo, .keyAddrHi, .keyLenLo, .keyLenHi]

theorem operandRegs_offsets : operandRegs.map offsetOf = [0x10, 0x14, 0x18, 0x1C, 0x20, 0x24, 0x28, 0x2C] := rfl

/-- An operand register is no register that a read of another one looks at. -/
theorem readReg_writeOperand {r : Reg} (hr : r ∈ operandRegs) (v : Word) (s : State) (x : Reg) :
    readReg { s with reg := writeHostReg r v s.reg } x = if x = r then v else readReg s x := by
  simp only [operandRegs, List.mem_cons, List.not_mem_nil, or_false] at hr
  obtain rfl | rfl | rfl | rfl | rfl | rfl | rfl | rfl := hr <;> cases x <;> rfl

theorem writePort_operand {r : Reg} (hr : r ∈ operandRegs) (v : Word) {s : State} (hs : s.rst = false) :
    writePort (offsetOf r) v s = .next { s with reg := writeHostReg r v s.reg } :=
  writePort_reg v hs (regAt_offsetOf r) (by rintro rfl; simp [operandRegs] at hr)

/-- After a write to an operand register every offset but its own reads as before. -/
theorem readPort_writeOperand {r : Reg} (hr : r ∈ operandRegs) (v : Word) (s : State) {off : Byte}
    (hoff : off ≠ offsetOf r) : readPort off { s with reg := writeHostReg r v s.reg } = readPort off s := by
  simp only [readPort]
  cases hx : regAt off with
  | none => rfl
  | some x =>
    have hne : x ≠ r := by
      rintro rfl
      exact hoff (eq_offsetOf_of_regAt hx)
    simp only [readReg_writeOperand hr, if_neg hne]

theorem append_toNat {m n : Nat} (x : BitVec m) (y : BitVec n) : (x ++ y).toNat = x.toNat * 2 ^ n + y.toNat := by
  rw [BitVec.toNat_append, Nat.shiftLeft_eq, Nat.mul_comm, Nat.two_pow_add_eq_or_of_lt y.isLt]

/-- A register pair as a number (R92). -/
theorem concatPair_toNat (hi lo : Word) : (concatPair hi lo).toNat = hi.toNat * 2 ^ 32 + lo.toNat := append_toNat hi lo

/-- The registers at `0x30` and above ignore writes (R31, R32). -/
theorem writeHostReg_readOnly {r : Reg} (h : 0x30 ≤ (offsetOf r).toNat) (v : Word) (x : HostRegs) :
    r ≠ .cmd ∧ writeHostReg r v x = x := by
  cases r
  case errAddrLo | errAddrHi | digest => exact ⟨by simp, rfl⟩
  all_goals exact absurd h (by decide)

theorem writePort_readOnly {off : Byte} (h : 0x30 ≤ off.toNat) (v : Word) (s : State) :
    writePort off v s = .next s := by
  by_cases hrst : s.rst = true
  · exact writePort_held off v s hrst
  rw [Bool.not_eq_true] at hrst
  cases hr : regAt off with
  | none => exact writePort_none v s hr
  | some r =>
    obtain ⟨hcmd, hkept⟩ := writeHostReg_readOnly (eq_offsetOf_of_regAt hr ▸ h) v s.reg
    rw [writePort_reg v hrst hr hcmd, hkept]

/-- The reserved offsets above the operand registers (R22, R33). -/
theorem regAt_reserved {off : Byte} (h : 0x38 ≤ off.toNat ∧ off.toNat < 0x40 ∨ 0x60 ≤ off.toNat) :
    regAt off = none := by
  cases hr : regAt off with
  | none => rfl
  | some r =>
    rw [eq_offsetOf_of_regAt hr] at h
    cases r
    case digest i => clear hr; revert i; decide
    all_goals exact absurd h (by decide)

end Sys2Proof.Machine
end

section
/-!
The statements about the register port (10_state.md R22 to R33): `STATUS`, the operand registers, and the offsets that
ignore writes.
-/

namespace Sys2Proof.Machine

/-- Settles O18: `STATUS` is its fields side by side. -/
theorem statusReadsItsFields : Obligations.StatusReadsItsFields := by
  intro s hs
  rw [readPort_status hs]
  refine ⟨?_, statusWord_bit1 s, statusWord_bit2 s, statusWord_bit3 s, statusWord_reservedLow s,
    statusWord_reservedHigh s, ?_⟩
  · rw [statusWord_bit0]
    exact busy_eq_true_iff s
  · rw [statusWord_errCode]
    cases s.reg.errCode <;> rfl

/-- Settles O19: the write is `writeStatus`, whose three bits are independent. -/
theorem statusWriteClearsWhatItNames : Obligations.StatusWriteClearsWhatItNames := by
  intro s v hs
  exact ⟨_, writePort_status v hs, rfl, aroundKept_setReg s _, writeStatus_eq v s.reg⟩

/-- Settles O20: the offsets are those of the operand registers, and a read looks at one register. -/
theorem operandRegistersHoldTheLastWrite : Obligations.OperandRegistersHoldTheLastWrite := by
  refine ⟨fun s off v hs hoff => ?_, fun s hs => ?_, operandRegs_offsets⟩
  · rw [← operandRegs_offsets, List.mem_map] at hoff
    obtain ⟨r, hr, rfl⟩ := hoff
    have hread : readPort (offsetOf r) { s with reg := writeHostReg r v s.reg } = v :=
      calc readPort (offsetOf r) { s with reg := writeHostReg r v s.reg }
        _ = readReg { s with reg := writeHostReg r v s.reg } r := readPort_offsetOf r hs
        _ = v := by rw [readReg_writeOperand hr, if_pos rfl]
    exact ⟨_, writePort_operand hr v hs, hread, fun _ hne => readPort_writeOperand hr v s hne, rfl,
      aroundKept_setReg s _⟩
  · have hread : ∀ r, readPort (offsetOf r) s = readReg s r := fun r => readPort_offsetOf r hs
    exact ⟨hread .msgAddrHi ▸ hread .msgAddrLo ▸ concatPair_toNat _ _,
      hread .msgLenHi ▸ hread .msgLenLo ▸ concatPair_toNat _ _,
      hread .keyAddrHi ▸ hread .keyAddrLo ▸ concatPair_toNat _ _,
      hread .keyLenHi ▸ hread .keyLenLo ▸ concatPair_toNat _ _⟩

/-- Settles O21: the offsets from `0x30` on are of read-only registers or of none. -/
theorem readOnlyAndReservedIgnoreWrites : Obligations.ReadOnlyAndReservedIgnoreWrites := by
  intro s off v
  refine ⟨fun h _ => writePort_readOnly h v s, fun h => readPort_none s (regAt_reserved h), fun hs => ?_⟩
  exact ⟨readPort_offsetOf .cmd hs, readPort_offsetOf .errAddrLo hs, readPort_offsetOf .errAddrHi hs,
    fun i hi => readPort_offsetOf (.digest ⟨i, hi⟩) hs⟩

/-- Settles O52: a read depends on the registers, `BUSY` and `rst` alone. -/
theorem hostReadsShowNoInternalState : Obligations.HostReadsShowNoInternalState := by
  intro s t off hreg hbusy hrst
  exact readPort_congr hreg hbusy hrst off

end Sys2Proof.Machine
end

section
/-!
The statements about commands as hosts give them (30_encoding.md R91 to R95, 43_commands.md R190, R195, R196): the
command words, the acceptance of `HASH` and `HMAC`, and the step that runs a decoded command.
-/

namespace Sys2Proof.Machine

/-- Settles O6: the four words are encodings, and the four others are rejected for the field named. -/
theorem commandWordsDecodeAsTabled : Obligations.CommandWordsDecodeAsTabled :=
  ⟨decode_encode .nop, decode_encode .hash, decode_encode .hmac, decode_encode .clr,
    decode_illegalOpcode (by decide) (by decide), decode_illegalOpcode (by decide) (by decide),
    decode_reserved (by decide), decode_reserved (by decide)⟩

/-- Settles O13: with its checks passing, `HASH` starts its pass. -/
theorem hashStartsItsPass : Obligations.HashStartsItsPass := by
  intro s hlen hend
  exact ⟨_, exec_hash_started ⟨hlen, hend⟩, rfl, rfl, aroundKept_setRegEng s _ _⟩

/-- Settles O14: with its checks passing, `HMAC` starts with `KEYLOAD` or the pass `KEYHASH`. -/
theorem hmacStartsWithItsKey : Obligations.HmacStartsWithItsKey := by
  intro s hkeyLen hmsgLen hkeyEnd hmsgEnd
  exact ⟨_, exec_hmac_started ⟨hkeyLen, hmsgLen, hkeyEnd, hmsgEnd⟩, rfl, aroundKept_setRegEng s _ _, rfl⟩

/-- Settles O8: the `CMD` write of an idle engine is the command's meaning after `acceptClear`; a `WR` is the port
write. -/
theorem stepRunsTheDecodedCommand : Obligations.StepRunsTheDecodedCommand := by
  refine ⟨fun s k m p v i h hrst hidle hdecode _ => ?_, fun s k m p off v h => step_of_stmtNext h⟩
  have hstep : step s = exec i (acceptClear (setProg k m p (popTurn s))) := by
    rw [step_of_commandNext h hrst, writeCmd_idle v (setProg k m p (popTurn s)) hidle, acceptCommand, hdecode]
  exact ⟨_, hstep, rfl, rfl, (hostMoved_setProg s k m p).acceptClear, rfl⟩

end Sys2Proof.Machine
end

section
/-!
SUPPORT. Host statements one by one (30_encoding.md R95, R96, 10_state.md R33): a `POLL` that stays, an access of any
kind, and whose turn it is after a host's next statement has been replaced.
-/

namespace Sys2Proof.Machine

/-- A host whose statement stays has not moved, but the turn is used up. -/
theorem hostMoved_stays {s : State} {k : Nat} {m : Master} (h : s.masters[k]? = some m) :
    HostMoved s (popTurn s) k m.prog m.results := by
  obtain ⟨hk, rfl⟩ := List.getElem?_eq_some_iff.1 h
  exact ⟨(List.set_getElem_self hk).symm, rfl, fun _ => rfl, rfl, rfl, rfl, rfl, rfl⟩

theorem isWordAccess_eq_true_iff (a : Access) :
    isWordAccess a = true ↔ a.bytes = 4 ∧ a.lanes = 0b1111 ∧ a.off.toNat % 4 = 0 := by
  simp [isWordAccess, and_assoc]

theorem isWordAccess_odd {a : Access} (h : a.bytes ≠ 4 ∨ a.lanes ≠ 0b1111 ∨ a.off.toNat % 4 ≠ 0) :
    isWordAccess a = false := by
  rw [← Bool.not_eq_true, isWordAccess_eq_true_iff]
  tauto

/-- An access that is not of one aligned word does no more than move its host on (R33). -/
theorem runStmt_oddAccess {k : Nat} {m : Master} {a : Access} {name : Nat} {p : List Stmt} (s : State)
    (h : isWordAccess a = false) :
    runStmt k m (.access a name) p s =
      .next (if a.write then setProg k m p s else addResult k m p name 0 s) := by
  cases hw : a.write <;> simp [runStmt, writeAccess, readAccess, hw, h]

/-- The statement that does what an access of one aligned word does. -/
def wordStmt (a : Access) (name : Nat) : Stmt := if a.write then .wr a.off a.data else .rd a.off name

/-- An access of one aligned word is a `WR` or an `RD` (R33), also in a state that differs in its own host's record. -/
theorem runStmt_wordAccess {k : Nat} {m m' : Master} {a : Access} {name : Nat} {p : List Stmt} (s : State)
    (h : isWordAccess a = true) (hm : m'.results = m.results) :
    runStmt k m (.access a name) p s =
      runStmt k m' (wordStmt a name) p { s with masters := s.masters.set k m' } := by
  unfold wordStmt
  have hset : ∀ x : Master, (s.masters.set k m').set k x = s.masters.set k x := fun x => List.set_set ..
  have hread : readPort a.off { s with masters := s.masters.set k m' } = readPort a.off s :=
    readPort_congr rfl rfl rfl _
  cases hw : a.write
  · simp [runStmt, readAccess, hw, h, addResult, setMaster, hset, hm, hread]
  · simp [runStmt, writeAccess, hw, h, setProg, setMaster, hset, hm]

/-- Which host is ready first does not depend on what its statements are. -/
theorem firstReady_set {ms : List Master} {k : Nat} {m m' : Master} (n : Nat) (hk : ms[k]? = some m)
    (h : m'.prog.isEmpty = m.prog.isEmpty) : firstReady n (ms.set k m') = firstReady n ms := by
  induction ms generalizing n k with
  | nil => rfl
  | cons x r ih =>
    cases k with
    | zero =>
      cases hk
      simp only [List.set_cons_zero, firstReady, h]
    | succ k => simp only [List.set_cons_succ, firstReady, ih (n + 1) hk]

theorem nextTurn_setMaster {s : State} {k : Nat} {m m' : Master} (hk : s.masters[k]? = some m)
    (h : m'.prog.isEmpty = m.prog.isEmpty) :
    nextTurn { s with masters := s.masters.set k m' } = nextTurn s := by
  have hready : firstReady 0 (s.masters.set k m') = firstReady 0 s.masters := firstReady_set 0 hk h
  simp only [nextTurn, defaultTurn, hready]
  rfl

end Sys2Proof.Machine
end

section
/-!
The statements about host transactions that change nothing in the engine (10_state.md R33, 30_encoding.md R96), and
about `rst` (70_reset_and_hazards.md R270, R271).
-/

namespace Sys2Proof.Machine

/-- Settles O22: an odd access only moves its host on, and one of an aligned word is a `WR` or an `RD`. -/
theorem oddAccessesHaveNoEffect : Obligations.OddAccessesHaveNoEffect := by
  intro s k m p a name h
  refine ⟨fun hodd => ?_, fun hbytes hlanes haligned => ?_⟩
  · have hstep := (step_of_stmtNext h).trans (runStmt_oddAccess (popTurn s) (isWordAccess_odd hodd))
    cases hw : a.write <;> simp only [hw] at hstep
    · exact ⟨_, hstep, rfl, rfl, rfl, hostMoved_addResult s k m p name 0⟩
    · exact ⟨_, hstep, rfl, rfl, rfl, hostMoved_setProg s k m p⟩
  · have hword : isWordAccess a = true := (isWordAccess_eq_true_iff a).2 ⟨hbytes, hlanes, haligned⟩
    have hstep := step_of_stmtNext h
    obtain ⟨hturn, hmaster, hprog⟩ := h
    let m' : Master := { m with prog := wordStmt a name :: p }
    have hturn' : nextTurn { s with masters := s.masters.set k m' } = .host k :=
      (nextTurn_setMaster hmaster (by rw [hprog]; rfl)).trans hturn
    have hmaster' : (s.masters.set k m')[k]? = some m' := by
      rw [List.getElem?_set_self']
      simp [hmaster]
    calc step s
      _ = runStmt k m (.access a name) p (popTurn s) := hstep
      _ = runStmt k m' (wordStmt a name) p { popTurn s with masters := s.masters.set k m' } :=
        runStmt_wordAccess (popTurn s) hword rfl
      _ = step { s with masters := s.masters.set k m' } := (step_of_stmtNext ⟨hturn', hmaster', rfl⟩).symm

/-- Settles O24: a `POLL` whose condition does not hold leaves its host where it was. -/
theorem pollRepeatsUntilItsCondition : Obligations.PollRepeatsUntilItsCondition := by
  intro s k m p off mask value h
  have hstep := step_of_stmtNext h
  simp only [runStmt, readPort_popTurn] at hstep
  obtain ⟨_, hmaster, _⟩ := h
  split at hstep
  case isTrue hc =>
    rw [if_pos hc]
    exact ⟨_, hstep, rfl, rfl, rfl, hostMoved_setProg s k m p⟩
  case isFalse hc =>
    rw [if_neg hc]
    exact ⟨_, hstep, rfl, rfl, rfl, hostMoved_stays hmaster⟩

/-- Settles O2: the step is `driveReset`, which touches the registers, the internal state and `rst` alone. -/
theorem assertedResetWinsAtAnyMoment : Obligations.AssertedResetWinsAtAnyMoment := by
  intro s level hturn
  have hstep : step s = .next (driveReset level (popTurn s)) := by simp only [step, hturn, takeTurn]
  refine ⟨_, hstep, driveReset_rst level _, fun h => ?_, fun hl hr => ?_, fun _ => ?_, ?_, driveReset_platform level _,
    driveReset_draws level _, driveReset_loads level _, driveReset_masters level _, driveReset_sched level _,
    fun hl => ⟨fun off => ?_, fun off v => ?_, ?_⟩⟩
  · have hreset : (level || s.rst) = true := Bool.or_eq_true_iff.2 h
    simp [hreset]
  · simp [hl, hr]
  · rw [driveReset_mem, popTurn_mem]
  · rw [pendingStores, driveReset_unseen, driveReset_raced]
    rfl
  · exact readPort_held off _ (hl ▸ driveReset_rst level _)
  · exact writePort_held off v _ (hl ▸ driveReset_rst level _)
  · rw [engineTurn, driveReset_rst, if_pos hl]

end Sys2Proof.Machine
end

section
/-!
SUPPORT. Source memory and the stores on their way to it (20_memory.md R73, R80, R81): the values a read can return,
what one turn does to them, and that the last value written to a byte survives every publication.
-/

namespace Sys2Proof.Machine

/-- A held value of a byte is what memory holds there or the value of a pending store to it (R80 case 2). -/
theorem mem_heldValues {s : State} {a : Nat} {b : Byte} :
    b ∈ heldValues s a ↔ b = s.mem.read a ∨ ∃ c ∈ pendingStores s, c.1 = a ∧ c.2 = b := by
  simp [heldValues, and_assoc]

/-- The value that a free value picks among the held ones is one of them. -/
theorem heldValues_pick (s : State) (a n : Nat) :
    (heldValues s a).getD (n % (heldValues s a).length) 0 ∈ heldValues s a := by
  have hindex : n % (heldValues s a).length < (heldValues s a).length := Nat.mod_lt n (Nat.succ_pos _)
  rw [List.getD_eq_getElem _ _ hindex]
  exact List.getElem_mem hindex

theorem sourceRead_raced {s : State} {a : Addr} (d : Nat) (hfails : busErr s.platform a = false)
    (hopen : openByte s.platform a = false) (hraced : isRaced s a.toNat = true) :
    sourceRead s d a =
      .byte ((heldValues s a.toNat).getD (Config.raceDraw d % (heldValues s a.toNat).length) 0) (d + 1) := by
  simp [sourceRead, hfails, hopen, hraced]

/-- A host's own read of plain memory returns a held value (R20). -/
theorem hostRead_mem_heldValues {s : State} {a : Addr} (hfails : busErr s.platform a = false)
    (hopen : openByte s.platform a = false) : hostRead s a ∈ heldValues s a.toNat := by
  cases hr : hostReadOpen s a with
  | false => exact hostRead_quiet hr ▸ List.mem_cons_self
  | true =>
    simp only [hostRead, hfails, hopen, hr, Bool.or_self, Bool.false_eq_true, if_false, if_true]
    exact heldValues_pick s a.toNat _

/-- What the acceptance of a command can change: the registers, `DIGEST0..7` only to zero, and the internal state. -/
theorem acceptCommand_frame {v : Word} {s t : State} (h : acceptCommand v s = .next t) :
    ∃ r e, t = { acceptClear s with reg := r, eng := e } ∧ (r.digest = s.reg.digest ∨ r.digest = Words8.zero) := by
  obtain ⟨u, hu, hresult⟩ := acceptCommand_result v s
  cases hu.symm.trans h
  obtain ⟨i, hresult⟩ | rfl := hresult
  · cases hresult with
    | completes _ o d hi =>
      obtain ⟨_, _, hd⟩ | ⟨_, _, hd⟩ := hi
      · exact ⟨_, _, rfl, .inl hd⟩
      · exact ⟨_, _, rfl, .inr hd⟩
    | fails _ c _ _ => exact ⟨_, _, rfl, .inr rfl⟩
    | hashRuns _ => exact ⟨_, _, rfl, .inr rfl⟩
    | hmacRuns _ => exact ⟨_, _, rfl, .inr rfl⟩
  · exact ⟨_, _, rfl, .inl rfl⟩

theorem writePort_digest {off : Byte} {v : Word} {s t : State} (h : writePort off v s = .next t) :
    t.reg.digest = s.reg.digest ∨ t.reg.digest = Words8.zero := by
  obtain rfl | ⟨_, _, _, rfl⟩ | ⟨_, _, _, haccept⟩ | ⟨x, _, _, rfl⟩ := writePort_cases h
  · exact .inl rfl
  · exact .inl rfl
  · obtain ⟨r, e, rfl, hd⟩ := acceptCommand_frame haccept
    exact hd
  · exact .inl (writeHostReg_digest x v s.reg)

/-- The register port reaches neither memory nor the pending stores. -/
theorem writePort_memory {off : Byte} {v : Word} {s t : State} (h : writePort off v s = .next t) :
    t.mem = s.mem ∧ pendingStores t = pendingStores s := by
  obtain rfl | ⟨_, _, _, rfl⟩ | ⟨_, _, _, haccept⟩ | ⟨_, _, _, rfl⟩ := writePort_cases h
  · exact ⟨rfl, rfl⟩
  · exact ⟨rfl, rfl⟩
  · obtain ⟨r, e, rfl, _⟩ := acceptCommand_frame haccept
    exact ⟨rfl, pendingStores_acceptClear s⟩
  · exact ⟨rfl, rfl⟩

/-- While a command runs a write to the port reaches the registers other than `DIGEST0..7` alone (R191). -/
theorem writePort_of_busy {off : Byte} {v : Word} {s t : State} (hb : busy s = true)
    (h : writePort off v s = .next t) : ∃ r, t = { s with reg := r } ∧ r.digest = s.reg.digest := by
  obtain rfl | ⟨_, _, _, rfl⟩ | ⟨_, _, hidle, _⟩ | ⟨x, _, _, rfl⟩ := writePort_cases h
  · exact ⟨t.reg, rfl, rfl⟩
  · exact ⟨_, rfl, rfl⟩
  · exact absurd (hb.symm.trans hidle) (by decide)
  · exact ⟨_, rfl, writeHostReg_digest x v s.reg⟩

/-- The next state of a host's `STORE` with a byte left (R95). -/
theorem step_store {s t : State} {k : Nat} {m : Master} {a : Nat} {b : Byte} {bs : List Byte} {p : List Stmt}
    (h : StmtNext s k m (.store a (b :: bs)) p) (hstep : step s = .next t) :
    t = storeByte a b (setProg k m (.store (a + 1) bs :: p) (popTurn s)) := by
  rw [step_of_stmtNext h] at hstep
  simp only [runStmt] at hstep
  split at hstep <;> cases hstep
  rfl

/-- What a publication can do, its guards included: nothing, or move the `k`-th pending store, to whose byte no older
one is pending, to memory (R81). -/
theorem publishStore_result (k : Nat) (s : State) :
    publishStore k s = s ∨
      ∃ a b, (pendingStores s)[k]? = some (a, b) ∧ (∀ c ∈ (pendingStores s).take k, c.1 ≠ a) ∧
        publishStore k s = { s with mem := s.mem.write a b, unseen := (pendingStores s).eraseIdx k, raced := [] } := by
  unfold publishStore
  split
  · exact .inl rfl
  split
  · exact .inl rfl
  · rename_i a b hk
    split
    · exact .inl rfl
    · rename_i hnone
      have holder : ∀ c ∈ (pendingStores s).take k, c.1 ≠ a := fun c hc hca =>
        hnone (List.any_eq_true.2 ⟨c, hc, decide_eq_true hca⟩)
      exact .inr ⟨a, b, hk, holder, rfl⟩

/-- The publication of the newest pending store, with no older one to its byte. -/
theorem publishStore_newest {s : State} {rest : List Host.Cell} {a : Nat} {b : Byte} (hidle : busy s = false)
    (hpending : pendingStores s = rest ++ [(a, b)]) (hnone : ∀ c ∈ rest, c.1 ≠ a) :
    publishStore rest.length s = { s with mem := s.mem.write a b, unseen := rest, raced := [] } := by
  have hnewest : (rest ++ [(a, b)])[rest.length]? = some (a, b) := List.getElem?_concat_length
  have holder : (rest.any fun c => decide (c.1 = a)) = false := by simpa using hnone
  have herase : (rest ++ [(a, b)]).eraseIdx rest.length = rest := by
    rw [List.eraseIdx_append_of_length_le le_rfl, Nat.sub_self, List.eraseIdx_cons_zero, List.append_nil]
  simp only [publishStore, hidle, hpending, hnewest, List.take_left, holder, herase, Bool.false_eq_true, if_false]

/-- The last value written depends on memory and the pending stores alone. -/
theorem lastWritten_congr {s t : State} (hmem : t.mem = s.mem) (hpending : pendingStores t = pendingStores s)
    (x : Nat) : lastWritten t x = lastWritten s x := by
  rw [lastWritten, lastWritten, hmem, hpending]

/-- With no store to a byte pending, memory holds its last value written. -/
theorem lastWritten_settled {s : State} {x : Nat} (h : ∀ c ∈ pendingStores s, c.1 ≠ x) :
    s.mem.read x = lastWritten s x := by
  have hnone : (pendingStores s).filter (fun c => decide (c.1 = x)) = [] := by
    simpa [List.filter_eq_nil_iff] using h
  rw [lastWritten, hnone]
  rfl

/-- The pending stores, parted at the `k`-th. -/
theorem pending_parts {l : List Host.Cell} {k : Nat} {c : Host.Cell} (h : l[k]? = some c) :
    l = l.take k ++ c :: l.drop (k + 1) ∧ l.eraseIdx k = l.take k ++ l.drop (k + 1) := by
  obtain ⟨hk, rfl⟩ := List.getElem?_eq_some_iff.1 h
  exact ⟨by rw [← List.drop_eq_getElem_cons hk, List.take_append_drop], List.eraseIdx_eq_take_drop_succ l k⟩

/-- A publication changes the last value written to no byte: it takes the oldest store to its byte, whose value then is
what memory holds (R80, R81). -/
theorem lastWritten_publishStore {s : State} (k : Nat) (hwf : s.mem.wf = true) (x : Nat) :
    lastWritten (publishStore k s) x = lastWritten s x := by
  obtain hkept | ⟨a, b, hk, holder, hmoved⟩ := publishStore_result k s
  · rw [hkept]
  obtain ⟨hparts, herase⟩ := pending_parts hk
  have hpending : pendingStores { s with mem := s.mem.write a b, unseen := (pendingStores s).eraseIdx k, raced := [] } =
      (pendingStores s).take k ++ (pendingStores s).drop (k + 1) := (List.append_nil _).trans herase
  rw [hmoved, lastWritten, hpending, lastWritten]
  conv_rhs => rw [hparts]
  by_cases hx : x = a
  · subst hx
    have hnone : ((pendingStores s).take k).filter (fun c => decide (c.1 = x)) = [] := by
      simpa [List.filter_eq_nil_iff] using holder
    simp only [List.filter_append, hnone, List.nil_append, List.filter_cons_of_pos, decide_true, List.map_cons,
      List.getLastD_cons, Memory.read_write_same s.mem x b hwf]
  · have hother : decide (a = x) = false := decide_eq_false (Ne.symm hx)
    simp only [List.filter_append, List.filter_cons, hother, Bool.false_eq_true, if_false,
      Memory.read_write_other s.mem a x b hwf hx]

/-- A host's turn that is no `STORE` of a byte reaches neither memory nor the pending stores. -/
theorem hostTurn_memory {k : Nat} {s t : State} (h : hostTurn k s = .next t)
    (hstore : ∀ m a b bs p, s.masters[k]? = some m → m.prog ≠ .store a (b :: bs) :: p) :
    t.mem = s.mem ∧ pendingStores t = pendingStores s := by
  cases hostTurn_result h with
  | moves ms l => exact ⟨rfl, rfl⟩
  | writes ms off v hwrite => exact writePort_memory (s := { s with masters := ms }) hwrite
  | stores ms m a b bs p hmaster hprog _ => exact absurd hprog (hstore m a b bs p hmaster)

/-- No turn but a `STORE` of a byte changes the last value written to any byte. -/
theorem lastWritten_takeTurn {turn : Turn} {s t : State} (hwf : s.mem.wf = true) (h : takeTurn turn s = .next t)
    (hstore : ∀ k m a b bs p, turn = .host k → s.masters[k]? = some m → m.prog ≠ .store a (b :: bs) :: p) (x : Nat) :
    lastWritten t x = lastWritten s x := by
  cases turn with
  | engine =>
    obtain ⟨_, rfl⟩ | ⟨_, hresult⟩ := engineTurn_result h
    · rfl
    · cases hresult <;> rfl
  | host k =>
    obtain ⟨hmem, hpending⟩ := hostTurn_memory h fun m a b bs p => hstore k m a b bs p rfl
    exact lastWritten_congr hmem hpending x
  | publish k => cases h; exact lastWritten_publishStore k hwf x
  | reset level =>
    cases h
    exact lastWritten_congr (driveReset_mem level s) (by rw [pendingStores, driveReset_unseen, driveReset_raced]; rfl) x

/-- With the engine idle, publishing the oldest pending store takes it off the list (R81). -/
theorem pendingStores_publishOldest {s : State} (hidle : busy s = false) :
    pendingStores (publishStore 0 s) = (pendingStores s).tail := by
  unfold publishStore
  rw [hidle]
  cases hp : pendingStores s with
  | nil => simp [hp]
  | cons c r => simp [pendingStores]

end Sys2Proof.Machine
end

section
/-!
The statements about source memory (20_memory.md): what a source read and a host's read return, host stores and their
publication, and that memory ends with the last value written.
-/

namespace Sys2Proof.Machine

/-- Settles O28: a quiet byte is read as it is, and a raced one as a held value. -/
theorem sourceReadReturnsAHeldValue : Obligations.SourceReadReturnsAHeldValue := by
  intro s d a
  refine ⟨sourceRead_eq_busError s d a, fun hfails => ?_, sourceRead_quiet d, fun hfails hopen hraced => ?_⟩
  · obtain ⟨b, n, hread⟩ := sourceRead_byte d hfails
    exact ⟨b, n, hread, sourceRead_draws_le hread⟩
  · exact ⟨_, sourceRead_raced d hfails hopen hraced, mem_heldValues.1 (heldValues_pick s a.toNat _)⟩

/-- Settles O54: the turn records the byte read and counts the free value taken, if one was. -/
theorem hostReadsOfMemoryChangeNothing : Obligations.HostReadsOfMemoryChangeNothing := by
  intro s k m p a name h
  have hwide : (hostRead s a).setWidth 32 = (0 : BitVec 24) ++ hostRead s a := by
    rw [BitVec.setWidth_eq_append (by decide)]
    rfl
  refine ⟨_, hostRead s a, step_of_stmtNext h, rfl, rfl, fun _ => rfl, rfl, rfl, rfl, rfl, rfl, rfl, ?_,
    fun hfails hopen => mem_heldValues.1 (hostRead_mem_heldValues hfails hopen)⟩
  rw [← hwide]
  rfl

/-- Settles O27: the store becomes the newest pending one, and its publication writes it to memory. -/
theorem publishedStoreIsRead : Obligations.PublishedStoreIsRead := by
  intro s k m p a b bs h hidle hnone hwf ha
  let moved : State := setProg k m (.store (a + 1) bs :: p) (popTurn s)
  let t : State := storeByte a b moved
  have hstep : step s = .next t := (step_of_stmtNext h).trans (if_pos ha)
  have hpending : pendingStores t = pendingStores s ++ [(a, b)] := pendingStores_storeByte a b moved
  have hmem : t.mem = s.mem := storeByte_mem a b moved
  have heng : t.eng = s.eng := storeByte_eng a b moved
  have hreg : t.reg = s.reg := storeByte_reg a b moved
  refine ⟨t, hstep, hreg, heng, fun _ => by rw [hmem], storeByte_masters a b moved, hpending, fun ts hturn => ?_⟩
  have htidle : busy t = false := (busy_congr t s (congrArg Engine.phase heng)).trans hidle
  have hstep' : step t = .next (publishStore (pendingStores s).length (popTurn t)) := by
    simp only [step, nextTurn, hturn, takeTurn]
  rw [publishStore_newest (s := popTurn t) htidle hpending hnone] at hstep'
  refine ⟨_, hstep', hreg, heng, rfl, List.append_nil _, ?_, fun c hc => ?_⟩
  · exact hmem ▸ Memory.read_write_same s.mem a b hwf
  · exact hmem ▸ Memory.read_write_other s.mem a c b hwf hc

/-- Settles O53: a `STORE` appends the newest pending store, and no other turn changes a last value written. -/
theorem memoryEndsWithTheLastValueWritten : Obligations.MemoryEndsWithTheLastValueWritten := by
  intro s t hwf hstep
  refine ⟨fun x => ⟨fun k m a b bs p h => ?_, fun hstore => ?_, lastWritten_settled⟩, fun hidle hturn => ?_⟩
  · rw [step_store h hstep, lastWritten_storeByte]
    rfl
  · exact lastWritten_takeTurn (s := popTurn s) hwf hstep
      (fun k m a b bs p hturn hmaster hprog => hstore k m a b bs p ⟨hturn, hmaster, hprog⟩) x
  · simp only [step, hturn, takeTurn] at hstep
    cases hstep
    exact pendingStores_publishOldest (s := popTurn s) hidle

/-- Settles O26: a host reaches the registers and its own record; its `STORE` is a new raced byte. -/
theorem hostsCannotDisturbARunningCommand : Obligations.HostsCannotDisturbARunningCommand := by
  intro s t k hturn hb hstep
  have hhost : hostTurn k (popTurn s) = .next t := by simpa only [step, hturn, takeTurn] using hstep
  have heng : t.eng = s.eng := hostTurn_eng_of_busy (s := popTurn s) hb hhost
  have hbusy : busy t = true := (busy_congr t s (congrArg Engine.phase heng)).trans hb
  have hstores : ∀ m a b bs p, StmtNext s k m (.store a (b :: bs)) p →
      pendingStores t = pendingStores s ++ [(a, b)] ∧ ∀ x, isRaced t x = true ↔ isRaced s x = true ∨ x = a := by
    intro m a b bs p h
    let moved : State := setProg k m (.store (a + 1) bs :: p) (popTurn s)
    have ht : t = storeByte a b moved := step_store h hstep
    rw [ht]
    exact ⟨pendingStores_storeByte a b moved, fun x => isRaced_storeByte (s := moved) hb a x b⟩
  cases hostTurn_result hhost with
  | moves ms l => exact ⟨heng, hbusy, rfl, fun _ => rfl, rfl, rfl, rfl, rfl, hstores, fun _ => rfl⟩
  | writes ms off v hwrite =>
    obtain ⟨r, rfl, hdigest⟩ := writePort_of_busy (s := { popTurn s with masters := ms }) hb hwrite
    exact ⟨heng, hbusy, hdigest, fun _ => rfl, rfl, rfl, rfl, rfl, hstores, fun _ => rfl⟩
  | stores ms m a b bs p hmaster hprog _ =>
    have hraced : storeByte a b { popTurn s with masters := ms } =
        { popTurn s with masters := ms, raced := s.raced ++ [(a, b)] } := if_pos hb
    rw [hraced] at heng hbusy hstores ⊢
    exact ⟨heng, hbusy, rfl, fun _ => rfl, rfl, rfl, rfl, rfl, hstores,
      fun hnone => absurd ⟨hturn, hmaster, hprog⟩ (hnone m a b bs p)⟩

end Sys2Proof.Machine
end

section
/-!
SUPPORT. How a turn can change `DIGEST0..7` (10_state.md R32, R36).
-/

namespace Sys2Proof.Machine

theorem hostTurn_digest {k : Nat} {s t : State} (h : hostTurn k s = .next t) :
    t.reg.digest = s.reg.digest ∨ t.reg.digest = Words8.zero := by
  cases hostTurn_result h with
  | moves ms l => exact .inl rfl
  | writes ms off v hwrite => exact writePort_digest (s := { s with masters := ms }) hwrite
  | stores ms m a b bs p _ _ _ => exact .inl (by rw [storeByte_reg])

theorem publishStore_reg (k : Nat) (s : State) : (publishStore k s).reg = s.reg := by
  obtain h | ⟨_, a, b, _, h⟩ := publishStore_cases k s <;> rw [h]

theorem driveReset_digest (level : Bool) (s : State) :
    (driveReset level s).reg.digest = s.reg.digest ∨ (driveReset level s).reg.digest = Words8.zero := by
  rw [driveReset_reg]
  split
  · exact .inr rfl
  · exact .inl rfl

end Sys2Proof.Machine
end

section
/-!
The statements about a command's outcome (60_exceptions.md R246, 10_state.md R32): how it ends, and what reaches
`DIGEST0..7`.
-/

namespace Sys2Proof.Machine

/-- Settles O38: of the results of a micro-step only `Complete()` and the bus error end a command, and nothing was
reported before (R54.1). -/
theorem commandEndsWithOneOutcome : Obligations.CommandEndsWithOneOutcome := by
  intro s t h hturn hb hstep hend
  obtain ⟨⟨hrun, _⟩, _, _, hheld⟩ := (inv_iff s).1 h
  obtain ⟨hdone, herr, hcode, _, hdigest⟩ := hrun ((busy_eq_true_iff s).1 hb)
  have hrst : s.rst = false := rst_eq_false_of_busy hheld hb
  rw [step_engine hturn hrst] at hstep
  have hrests : ∀ u : State, u.eng = Engine.idle → u.rst = false → engineTurn u = .next u := fun u hu hr => by
    rw [engineTurn, hr]
    exact microStep_idle (congrArg Engine.phase hu)
  cases microStep_result hstep with
  | rests hphase => exact absurd hphase ((busy_eq_true_iff s).1 hb)
  | goesOn e d _ hgoes => exact absurd ((busy_eq_false_iff _).1 hend) hgoes
  | completes _ _ => exact ⟨rfl, hrests _ rfl hrst, .inl ⟨rfl, herr, hcode⟩⟩
  | fails a d _ => exact ⟨rfl, hrests _ rfl hrst, .inr ⟨hdone, rfl, rfl, hdigest⟩⟩

/-- Settles O40: by whose turn it is. -/
theorem onlyTheResultReachesTheDigest : Obligations.OnlyTheResultReachesTheDigest := by
  intro s t hstep
  refine ⟨?_, fun hheld hb hreset hengine =>
    takeTurn_eng_of_busy (s := popTurn s) hb (rst_eq_false_of_busy hheld hb) hengine hreset hstep⟩
  unfold step at hstep
  cases hturn : nextTurn s <;> rw [hturn] at hstep
  case engine =>
    obtain ⟨_, rfl⟩ | ⟨_, hresult⟩ := engineTurn_result hstep
    · exact .inl rfl
    · cases hresult with
      | rests _ => exact .inl rfl
      | goesOn e d _ _ => exact .inl rfl
      | completes hphase hpass => exact .inr (.inr ⟨rfl, hphase, hpass, rfl, rfl, rfl⟩)
      | fails a d _ => exact .inl rfl
  case host k => exact (hostTurn_digest hstep).imp_right .inl
  case publish k => cases hstep; exact .inl (by rw [publishStore_reg]; rfl)
  case reset level => cases hstep; exact (driveReset_digest level (popTurn s)).imp_right .inl

end Sys2Proof.Machine
end

section
/-!
SUPPORT. Byte order and the round (20_memory.md R70, 40_padding.md R117, 41_compression.md R141): the bytes of a packed
word, the words of a block, and the inverse of a round.
-/

namespace Sys2Proof.Machine

theorem be32_toNat (b0 b1 b2 b3 : Byte) :
    (be32 b0 b1 b2 b3).toNat = b0.toNat * 2 ^ 24 + b1.toNat * 2 ^ 16 + b2.toNat * 2 ^ 8 + b3.toNat := by
  rw [be32, append_toNat, append_toNat, append_toNat]
  omega

/-- Byte `j` of a packed word, the first most significant (R9). -/
theorem be32_byte (f : Nat → Byte) {j : Nat} (hj : j < 4) :
    (be32 (f 0) (f 1) (f 2) (f 3)).extractLsb' (24 - 8 * j) 8 = f j := by
  unfold be32
  obtain rfl | rfl | rfl | rfl : j = 0 ∨ j = 1 ∨ j = 2 ∨ j = 3 := by omega
  · rw [BitVec.extractLsb'_append_eq_of_le (by decide), BitVec.extractLsb'_append_eq_of_le (by decide)]
    exact BitVec.extractLsb'_append_eq_left
  · rw [BitVec.extractLsb'_append_eq_of_le (by decide), BitVec.extractLsb'_append_eq_of_le (by decide)]
    exact BitVec.extractLsb'_append_eq_right
  · rw [BitVec.extractLsb'_append_eq_of_le (by decide)]
    exact BitVec.extractLsb'_append_eq_right
  · exact BitVec.extractLsb'_append_eq_right

theorem bytesBe32_be32 (f : Nat → Byte) : bytesBe32 (be32 (f 0) (f 1) (f 2) (f 3)) = [f 0, f 1, f 2, f 3] := by
  apply List.ext_getElem?
  intro j
  obtain hj | hj := Nat.lt_or_ge j 4
  · rw [bytesBe32_getElem? _ hj, be32_byte f hj]
    obtain rfl | rfl | rfl | rfl : j = 0 ∨ j = 1 ∨ j = 2 ∨ j = 3 := by omega
    all_goals rfl
  · rw [List.getElem?_eq_none hj, List.getElem?_eq_none hj]

theorem packWords_getD (f : Nat → Byte) {k : Nat} (hk : k < 16) :
    (packWords f).getD k 0 = be32 (f (4 * k)) (f (4 * k + 1)) (f (4 * k + 2)) (f (4 * k + 3)) := by
  simp [packWords, List.getD_eq_getElem?_getD, hk]

/-- Byte `j` of word `k` of a block (R117). -/
theorem packWords_byte (f : Nat → Byte) {k j : Nat} (hk : k < 16) (hj : j < 4) :
    ((packWords f).getD k 0).extractLsb' (24 - 8 * j) 8 = f (4 * k + j) := by
  rw [packWords_getD f hk]
  exact be32_byte (fun i => f (4 * k + i)) hj

theorem extractLsb'_extractLsb'_add {w : Nat} (x : BitVec w) {a n b m : Nat} (h : b + m ≤ n) :
    (x.extractLsb' a n).extractLsb' b m = x.extractLsb' (a + b) m := by
  apply BitVec.eq_of_getLsbD_eq
  intro i hi
  have hin : b + i < n := by omega
  simp [hi, hin, Nat.add_assoc]

/-- Byte `i` of a 64-bit value, the most significant first (R9). -/
theorem be64_getElem? (v : BitVec 64) {i : Nat} (hi : i < 8) :
    (be64 v)[i]? = some (v.extractLsb' (56 - 8 * i) 8) := by
  have hlen : ∀ x : Word, (bytesBe32 x).length = 4 := fun _ => rfl
  obtain hhi | hlo := Nat.lt_or_ge i 4
  · rw [be64, List.getElem?_append_left hhi, bytesBe32_getElem? _ hhi, extractLsb'_extractLsb'_add _ (by omega),
      show 32 + (24 - 8 * i) = 56 - 8 * i by omega]
  · have hj : i - 4 < 4 := by omega
    rw [be64, List.getElem?_append_right hlo, hlen, bytesBe32_getElem? _ hj, extractLsb'_extractLsb'_add _ (by omega),
      show 0 + (24 - 8 * (i - 4)) = 56 - 8 * i by omega]

/-- `T1` of the round whose result is `v` (R141): `a` is `T1 + T2`, and `T2`'s operands have moved to `b`, `c`, `d`. -/
def unroundT1 (v : Words8) : Word := v.a - (bsig0 v.b + maj v.b v.c v.d)

/-- The working registers before the round whose result is `v`. -/
def unround (k wt : Word) (v : Words8) : Words8 where
  a := v.b
  b := v.c
  c := v.d
  d := v.e - unroundT1 v
  e := v.f
  f := v.g
  g := v.h
  h := unroundT1 v - (bsig1 v.f + ch v.f v.g v.h + k + wt)

theorem unroundT1_roundWith (k wt : Word) (v : Words8) : unroundT1 (roundWith k wt v) = roundT1 k wt v :=
  add_sub_cancel_right (roundT1 k wt v) (roundT2 v)

theorem unround_roundWith (k wt : Word) (v : Words8) : unround k wt (roundWith k wt v) = v := by
  have hd : v.d + roundT1 k wt v - roundT1 k wt v = v.d := add_sub_cancel_right ..
  have hh : roundT1 k wt v - (bsig1 v.e + ch v.e v.f v.g + k + wt) = v.h := by
    rw [roundT1]
    abel
  rw [unround, unroundT1_roundWith]
  simp only [roundWith, hd, hh]

theorem roundT1_unround (k wt : Word) (v : Words8) : roundT1 k wt (unround k wt v) = unroundT1 v := by
  simp only [roundT1, unround]
  abel

theorem roundWith_unround (k wt : Word) (v : Words8) : roundWith k wt (unround k wt v) = v := by
  have ha : unroundT1 v + roundT2 (unround k wt v) = v.a := sub_add_cancel ..
  have he : v.e - unroundT1 v + unroundT1 v = v.e := sub_add_cancel ..
  rw [roundWith, roundT1_unround, ha]
  simp only [unround, he]

end Sys2Proof.Machine
end

section
/-!
The statements about byte order (20_memory.md R70) and the round (41_compression.md R141).
-/

namespace Sys2Proof.Machine

/-- Settles O43: `unround` is the round's inverse. -/
theorem roundIsABijection : Obligations.RoundIsABijection := by
  intro k wt
  exact Function.bijective_iff_has_inverse.2 ⟨unround k wt, unround_roundWith k wt, roundWith_unround k wt⟩

/-- Settles O55: each packing byte by byte. -/
theorem bytesArePackedBigEndian : Obligations.BytesArePackedBigEndian :=
  ⟨fun b0 b1 b2 b3 => ⟨be32_toNat b0 b1 b2 b3, bytesBe32_be32 fun j => [b0, b1, b2, b3].getD j 0⟩,
    fun f _ _ hk hj => packWords_byte f hk hj,
    fun x _ _ hi hj => ⟨words8_bytes_length x, words8_bytes_getElem? x hi hj⟩,
    fun v _ hi => ⟨be64_length v, be64_getElem? v hi⟩⟩

end Sys2Proof.Machine
end

section
/-!
SUPPORT. What the micro-steps load (43_commands.md R205, R210, R212): the bytes of a block and of a key when every
source read is quiet, and which source addresses are read, in what order.
-/

namespace Sys2Proof.Machine

theorem quietValue_msgByte {s : State} (hend : s.eng.msgAddr.toNat + s.eng.msgLen.toNat ≤ 2 ^ 64) {i : Nat}
    (hi : i < s.eng.msgLen.toNat) : quietValue s (msgByte s.eng i) = (messageBytes s).getD i 0 := by
  rw [messageBytes, memBytes_getD _ _ hi, ← addr_exact hend hi]
  rfl

theorem quietValue_keyByte {s : State} (hend : s.eng.keyAddr.toNat + s.eng.keyLen.toNat ≤ 2 ^ 64) {i : Nat}
    (hi : i < s.eng.keyLen.toNat) : quietValue s (keyByte s.eng i) = (keyBytes s).getD i 0 := by
  rw [keyBytes, memBytes_getD _ _ hi, ← addr_exact hend hi]
  rfl

theorem xorByte_getD (b : Byte) {l : List Byte} {i : Nat} (hi : i < l.length) :
    (xorByte b l).getD i 0 = l[i] ^^^ b := by
  simp [xorByte, List.getD_eq_getElem?_getD, hi]

theorem xorByte_length (b : Byte) (l : List Byte) : (xorByte b l).length = l.length := List.length_map _

/-- A byte of the virtual message, read quietly, is that of `virtualMessage` (R205). -/
theorem quietValue_virtualByte {s : State} (hmsg : s.eng.msgAddr.toNat + s.eng.msgLen.toNat ≤ 2 ^ 64)
    (hkey : s.eng.keyAddr.toNat + s.eng.keyLen.toNat ≤ 2 ^ 64) {i : Nat} (hi : i < virtualLength s.eng) :
    quietValue s (virtualByte s.eng i) = (virtualMessage s).getD i 0 := by
  unfold virtualLength at hi
  unfold virtualByte virtualMessage
  have hk0 : ∀ b, (xorByte b s.eng.k0.toList).length = 64 := fun b => by rw [xorByte_length, Vector.length_toList]
  cases hp : s.eng.pass <;> rw [hp] at hi <;> dsimp only at hi ⊢
  case none => exact absurd hi i.not_lt_zero
  case hash => exact quietValue_msgByte hmsg hi
  case keyHash => exact quietValue_keyByte hkey hi
  case inner =>
    split
    case isTrue h =>
      rw [List.getD_append _ _ _ _ (by rwa [hk0]), xorByte_getD _ (by rwa [Vector.length_toList])]
      rfl
    case isFalse h =>
      rw [List.getD_append_right _ _ _ _ (by rw [hk0]; omega), hk0]
      exact quietValue_msgByte hmsg (by omega)
  case outer =>
    split
    case isTrue h =>
      rw [List.getD_append _ _ _ _ (by rwa [hk0]), xorByte_getD _ (by rwa [Vector.length_toList])]
      rfl
    case isFalse h =>
      have hd : i - 64 < 32 := by omega
      rw [dif_pos hd, List.getD_append_right _ _ _ _ (by rw [hk0]; omega), hk0,
        List.getD_eq_getElem _ _ (by rwa [Vector.length_toList])]
      rfl

/-- What the pass registers and the latched operands must satisfy for a block to be that of the virtual message: the
invariant's clauses R46 and R242. -/
structure BlocksExact (e : Engine) : Prop where
  vlen : e.vlen.toNat = virtualLength e
  nblk : e.nblk.toNat = nblkOf e.vlen.toNat
  msg : e.msgAddr.toNat + e.msgLen.toNat ≤ 2 ^ 64
  key : e.keyAddr.toNat + e.keyLen.toNat ≤ 2 ^ 64

/-- A byte of the padded stream, read quietly, is that of the padded virtual message (R114, R212). -/
theorem quietValue_paddedByte {s : State} (h : BlocksExact s.eng) {p : Nat} (hp : p < 64 * s.eng.nblk.toNat) :
    quietValue s (paddedByte s.eng p) = padByte (virtualMessage s) p := by
  have hlen : (virtualMessage s).length = s.eng.vlen.toNat := virtualMessage_length h.vlen
  obtain hin | hout := Nat.lt_or_ge p s.eng.vlen.toNat
  · rw [paddedByte_virtual hin, padByte_message (hlen ▸ hin)]
    exact quietValue_virtualByte h.msg h.key (h.vlen ▸ hin)
  · rw [paddedByte_padding hlen h.nblk hout hp]
    rfl

/-- The bytes of the current block, when they are read quietly. -/
theorem quietValue_blockSources {s : State} (h : BlocksExact s.eng) (hblk : s.eng.blk.toNat < s.eng.nblk.toNat) :
    (blockSources s.eng).map (quietValue s) =
      (List.range 64).map fun i => padByte (virtualMessage s) (64 * s.eng.blk.toNat + i) := by
  rw [blockSources, List.map_map]
  refine List.map_congr_left fun i hi => ?_
  exact quietValue_paddedByte h (block_index_lt hblk (List.mem_range.1 hi))

/-- The window that a quiet `BLOCK_LOAD` fills holds the words of the current block (R117, R212). -/
theorem loadWindow_blockSources {s : State} (h : BlocksExact s.eng) (hblk : s.eng.blk.toNat < s.eng.nblk.toNat) :
    (loadWindow ((blockSources s.eng).map (quietValue s))).toList =
      blockWords (virtualMessage s) s.eng.blk.toNat := by
  rw [quietValue_blockSources h hblk, loadWindow_toList]
  rfl

/-- The bytes that a quiet `KEYLOAD` loads are the normalised key (R171, R210). -/
theorem quietValue_keySources {s : State} (hshort : s.eng.keyLen.toNat ≤ 64)
    (hend : s.eng.keyAddr.toNat + s.eng.keyLen.toNat ≤ 2 ^ 64) :
    (keySources s.eng).map (quietValue s) = normKey (keyBytes s) := by
  have hlen : (keyBytes s).length = s.eng.keyLen.toNat := memBytes_length ..
  rw [normKey_short (hlen.trans_le hshort)]
  apply List.ext_getElem
  · rw [List.length_map, List.length_append, List.length_replicate, hlen, keySources, List.length_map,
      List.length_range]
    omega
  · intro i hi _
    simp only [keySources, List.getElem_map, List.getElem_range]
    split
    case isTrue h =>
      rw [List.getElem_append_left (hlen.symm ▸ h), quietValue_keyByte hend h,
        List.getD_eq_getElem _ _ (hlen.symm ▸ h)]
    case isFalse h =>
      rw [List.getElem_append_right (by omega), List.getElem_replicate]
      rfl

theorem keySources_length (e : Engine) : (keySources e).length = 64 := by simp [keySources]

theorem blockSources_length (e : Engine) : (blockSources e).length = 64 := by simp [blockSources]

/-- Sources none of which is absent are quiet when their reads are. -/
theorem quietSource_of_reads {s : State} {l : List ByteSource} (hgiven : ∀ x ∈ l, x ≠ .absent)
    (hquiet : ∀ a ∈ readAddrs l, QuietByte s a) : ∀ x ∈ l, QuietSource s x := by
  intro x hx
  cases x with
  | const b => exact trivial
  | source a => exact hquiet a (mem_readAddrs.2 hx)
  | absent => exact absurd rfl (hgiven _ hx)

theorem keySources_quiet {s : State} (h : QuietRange s s.eng.keyAddr s.eng.keyLen) :
    ∀ x ∈ keySources s.eng, QuietSource s x := by
  intro x hx
  simp only [keySources, List.mem_map] at hx
  obtain ⟨i, _, rfl⟩ := hx
  split
  case isTrue hi => exact h i hi
  case isFalse => exact trivial

/-- The micro-step of a `KEYLOAD` whose key bytes are quiet (R210). -/
theorem stepKeyLoad_quiet {s : State} (h : QuietRange s s.eng.keyAddr s.eng.keyLen) :
    stepKeyLoad s =
      .next { s with eng := startInner (bytesOfList 64 ((keySources s.eng).map (quietValue s))) s.eng } := by
  rw [stepKeyLoad, fetchBytes_quiet s.draws (keySources_quiet h)]

/-- `K0` after a quiet `KEYLOAD` is the normalised key (R171). -/
theorem keyLoad_k0 {s : State} (hshort : s.eng.keyLen.toNat ≤ 64)
    (hend : s.eng.keyAddr.toNat + s.eng.keyLen.toNat ≤ 2 ^ 64) :
    (bytesOfList 64 ((keySources s.eng).map (quietValue s))).toList = normKey (keyBytes s) := by
  rw [bytesOfList_toList (by rw [List.length_map, keySources_length]), quietValue_keySources hshort hend]

/-- The micro-step of a `BLOCK_LOAD` whose source bytes are quiet (R212). -/
theorem stepBlockLoad_quiet {s : State} (h : ∀ x ∈ blockSources s.eng, QuietSource s x) :
    stepBlockLoad s =
      .next
        { s with
          eng := { s.eng with
            w := loadWindow ((blockSources s.eng).map (quietValue s)), work := s.eng.hs, t := 0
            phase := .round } } := by
  rw [stepBlockLoad, fetchBytes_quiet s.draws h]

/-- Each word of the window holds four of the bytes loaded, the first most significant (R117). -/
theorem loadWindow_byte {bs : List Byte} (hlen : bs.length = 64) {k j : Nat} (hk : k < 16) (hj : j < 4) :
    bs[4 * k + j]? = some ((loadWindow bs)[k].extractLsb' (24 - 8 * j) 8) := by
  have hindex : 4 * k + j < bs.length := by omega
  have hword : (loadWindow bs)[k] = (packWords fun i => bs.getD i 0).getD k 0 := Vector.getElem_ofFn hk
  rw [hword, packWords_byte _ hk hj, List.getD_eq_getElem _ _ hindex, List.getElem?_eq_getElem hindex]

/-! ### The addresses read -/

theorem map_range_add {α : Type} (f : Nat → α) (a b : Nat) :
    (List.range (a + b)).map f = (List.range a).map f ++ (List.range b).map fun i => f (a + i) := by
  rw [List.range_add, List.map_append, List.map_map]
  rfl

theorem readAddrs_append (l r : List ByteSource) : readAddrs (l ++ r) = readAddrs l ++ readAddrs r :=
  List.filterMap_append

/-- Constants read nothing. -/
theorem readAddrs_consts {n : Nat} {f : Nat → ByteSource} (h : ∀ i, i < n → ∃ c, f i = .const c) :
    readAddrs ((List.range n).map f) = [] := by
  rw [List.eq_nil_iff_forall_not_mem]
  intro a ha
  obtain ⟨i, hi, hfi⟩ := List.mem_map.1 (mem_readAddrs.1 ha)
  obtain ⟨c, hc⟩ := h i (List.mem_range.1 hi)
  cases hc.symm.trans hfi

/-- Reads in a row are read in that row's order. -/
theorem readAddrs_reads (n : Nat) (g : Nat → Addr) :
    readAddrs ((List.range n).map fun i => .source (g i)) = (List.range n).map g := by
  rw [readAddrs, List.filterMap_map, ← List.filterMap_eq_map]
  rfl

theorem readAddrs_msgBytes (e : Engine) (n : Nat) :
    readAddrs ((List.range n).map (msgByte e)) = (List.range n).map fun i => e.msgAddr + BitVec.ofNat 64 i :=
  readAddrs_reads n _

theorem readAddrs_keyBytes (e : Engine) (n : Nat) :
    readAddrs ((List.range n).map (keyByte e)) = (List.range n).map fun i => e.keyAddr + BitVec.ofNat 64 i :=
  readAddrs_reads n _

/-- `KEYLOAD` reads each key byte once, in order (R74). -/
theorem readAddrs_keySources {e : Engine} (h : e.keyLen.toNat ≤ 64) :
    readAddrs (keySources e) = addrsFrom e.keyAddr e.keyLen := by
  have hparts := map_range_add (fun i => if i < e.keyLen.toNat then keyByte e i else .const 0x00) e.keyLen.toNat
    (64 - e.keyLen.toNat)
  have hkey : (List.range e.keyLen.toNat).map (fun i => if i < e.keyLen.toNat then keyByte e i else .const 0x00) =
      (List.range e.keyLen.toNat).map (keyByte e) :=
    List.map_congr_left fun i hi => if_pos (List.mem_range.1 hi)
  rw [Nat.add_sub_cancel' h, hkey] at hparts
  rw [keySources, hparts, readAddrs_append, readAddrs_keyBytes, readAddrs_consts fun i _ => ⟨0x00, if_neg (by omega)⟩,
    List.append_nil]
  rfl

/-- Blocks read one after another are the whole stream read once. -/
theorem readAddrs_blocks (f : Nat → ByteSource) (n : Nat) :
    (List.range n).flatMap (fun j => readAddrs ((List.range 64).map fun i => f (64 * j + i))) =
      readAddrs ((List.range (64 * n)).map f) := by
  induction n with
  | zero => rfl
  | succ n ih =>
    rw [List.range_succ (n := n), List.flatMap_append, ih, Nat.mul_succ, map_range_add, readAddrs_append,
      List.flatMap_singleton]

/-- The padded stream does not depend on the number of the current block. -/
theorem passReads_eq (e : Engine) :
    passReads e = readAddrs ((List.range (64 * e.nblk.toNat)).map (paddedByte e)) := by
  rw [← readAddrs_blocks, passReads, List.flatMap_def, List.flatMap_def]
  refine congrArg _ (List.map_congr_left fun j hj => ?_)
  have hblk : (BitVec.ofNat 64 j).toNat = j := by
    have := e.nblk.isLt
    have := List.mem_range.1 hj
    rw [BitVec.toNat_ofNat, Nat.mod_eq_of_lt (by omega)]
  simp only [blockSources, hblk]
  rfl

/-- The padding reads nothing: a pass reads what its virtual message does. -/
theorem passReads_virtual {e : Engine} (hnblk : e.nblk.toNat = nblkOf e.vlen.toNat) :
    passReads e = readAddrs ((List.range e.vlen.toNat).map (virtualByte e)) := by
  have hfill : 64 * e.nblk.toNat = e.vlen.toNat + (64 * e.nblk.toNat - e.vlen.toNat) := by
    have := marker_lt_lengthField e.vlen.toNat
    omega
  have hvirtual : (List.range e.vlen.toNat).map (paddedByte e) = (List.range e.vlen.toNat).map (virtualByte e) :=
    List.map_congr_left fun p hp => paddedByte_virtual (List.mem_range.1 hp)
  have hpadding : ∀ i, i < 64 * e.nblk.toNat - e.vlen.toNat → ∃ c, paddedByte e (e.vlen.toNat + i) = .const c :=
    fun i hi =>
      ⟨_, paddedByte_padding (m := List.replicate e.vlen.toNat 0) (by simp) hnblk (by omega) (by omega)⟩
  rw [passReads_eq, hfill, map_range_add, readAddrs_append, hvirtual, readAddrs_consts hpadding, List.append_nil]

theorem virtualByte_inner {e : Engine} (hp : e.pass = .inner) :
    (∀ i, i < 64 → ∃ c, virtualByte e i = .const c) ∧ ∀ i, virtualByte e (64 + i) = msgByte e i := by
  unfold virtualByte
  simp only [hp]
  refine ⟨fun i hi => ⟨_, dif_pos hi⟩, fun i => ?_⟩
  rw [dif_neg (by omega), Nat.add_sub_cancel_left]

theorem virtualByte_outer {e : Engine} (hp : e.pass = .outer) : ∀ i, i < 96 → ∃ c, virtualByte e i = .const c := by
  unfold virtualByte
  simp only [hp]
  intro i hi
  by_cases h : i < 64
  · exact ⟨_, dif_pos h⟩
  · rw [dif_neg h]
    exact ⟨_, dif_pos (by omega)⟩

end Sys2Proof.Machine
end

section
/-!
The statements about what `KEYLOAD` and `BLOCK_LOAD` read and load (43_commands.md R210, R212, 20_memory.md R74).
-/

namespace Sys2Proof.Machine

/-- Settles O29: the padding reads nothing, and the virtual message of each pass is read byte by byte. -/
theorem eachByteIsReadOnceInOrder : Obligations.EachByteIsReadOnceInOrder := by
  intro e
  refine ⟨readAddrs_keySources, fun hvlen _ hnblk => ?_⟩
  rw [passReads_virtual hnblk, hvlen, virtualLength]
  cases hp : e.pass <;> dsimp only
  case none => rfl
  case hash =>
    have hbytes : virtualByte e = msgByte e := funext fun i => by simp only [virtualByte, hp]
    rw [hbytes, readAddrs_msgBytes]
    rfl
  case keyHash =>
    have hbytes : virtualByte e = keyByte e := funext fun i => by simp only [virtualByte, hp]
    rw [hbytes, readAddrs_keyBytes]
    rfl
  case inner =>
    obtain ⟨hkey, hmsg⟩ := virtualByte_inner hp
    simp only [map_range_add, readAddrs_append, readAddrs_consts hkey, List.nil_append, hmsg]
    exact readAddrs_msgBytes e _
  case outer => exact readAddrs_consts (virtualByte_outer hp)

/-- Settles O30: the quiet bytes are the normalised key, and the micro-step sets up `INNER`. -/
theorem keyLoadPadsTheKey : Obligations.KeyLoadPadsTheKey := by
  intro s hturn hrst hphase hshort hend hquiet
  have hstep := (step_engine hturn hrst).trans
    ((microStep_keyLoad (s := popTurn s) hphase).trans (stepKeyLoad_quiet (s := popTurn s) hquiet))
  exact ⟨_, hstep, keyLoad_k0 hshort hend, rfl, rfl, aroundKept_setRegEng (popTurn s) _ _⟩

/-- Settles O32: under the invariant no byte of the block is missing, and the quiet ones are those of the padded virtual
message. -/
theorem blockLoadTakesTheCurrentBlock : Obligations.BlockLoadTakesTheCurrentBlock := by
  intro s hinv hturn hrst hphase hquiet
  obtain ⟨_, hsound, _, _⟩ := (inv_iff s).1 hinv
  have hin : inBlock s.eng.phase := .inl hphase
  obtain ⟨hblk, _⟩ := hsound.block hin
  obtain ⟨hvlen, hnblk, _⟩ := hsound.registers
  obtain ⟨_, _, _, hmsg, hkey, _⟩ := hsound.checked
  have hexact : BlocksExact s.eng := ⟨hvlen, hnblk (.inl hin), hmsg, hkey⟩
  have hsources := quietSource_of_reads (blockSources_given hsound hphase) hquiet
  have hstep := (step_engine hturn hrst).trans
    ((microStep_blockLoad (s := popTurn s) hphase).trans (stepBlockLoad_quiet (s := popTurn s) hsources))
  exact ⟨_, hstep, loadWindow_blockSources hexact hblk, rfl, rfl, aroundKept_setRegEng (popTurn s) _ _⟩

/-- Settles O56: the load takes one answer per byte, and the micro-step keeps the bytes as they are. -/
theorem loadsTakeOneAnswerPerByteRead : Obligations.LoadsTakeOneAnswerPerByteRead := by
  intro s srcs hturn hrst hload hgiven hanswers
  obtain ⟨bs, draws, hfetch, hzero, hbytes⟩ := fetchBytes_answers (s := popTurn s) s.draws hgiven hanswers
  have hsrcs : srcs.length = 64 := by
    obtain ⟨_, rfl⟩ | ⟨_, rfl⟩ := hload
    · exact keySources_length s.eng
    · exact blockSources_length s.eng
  have hlen : bs.length = 64 := (fetchBytes_length hfetch).trans hsrcs
  rw [hsrcs] at hfetch hbytes
  obtain ⟨hphase, rfl⟩ | ⟨hphase, rfl⟩ := hload
  · have hstep : step s =
        .next { popTurn s with draws := draws 64, eng := startInner (bytesOfList 64 bs) s.eng } := by
      rw [step_engine hturn hrst, microStep_keyLoad (s := popTurn s) hphase, stepKeyLoad, popTurn_eng, popTurn_draws,
        hfetch]
    exact ⟨_, bs, draws, hstep, hlen, hzero, rfl, hbytes, fun _ => ⟨bytesOfList_toList hlen, rfl⟩,
      fun h => absurd (hphase.symm.trans h) (by decide), rfl, aroundKept_setRegEng _ _ _⟩
  · have hstep : step s =
        .next
          { popTurn s with
            draws := draws 64
            eng := { s.eng with w := loadWindow bs, work := s.eng.hs, t := 0, phase := .round } } := by
      rw [step_engine hturn hrst, microStep_blockLoad (s := popTurn s) hphase, stepBlockLoad, popTurn_eng,
        popTurn_draws, hfetch]
    exact ⟨_, bs, draws, hstep, hlen, hzero, rfl, hbytes, fun h => absurd (hphase.symm.trans h) (by decide),
      fun _ => ⟨fun _ _ hk hj => loadWindow_byte hlen hk hj, rfl⟩, rfl, aroundKept_setRegEng _ _ _⟩

end Sys2Proof.Machine
end

section
/-!
SUPPORT. How long a command runs (43_commands.md R217, R220): the micro-steps that are left, of which each micro-step
takes one.
-/

namespace Sys2Proof.Machine

/-- The micro-steps of a pass over `n` bytes, from `PASS_INIT` to `PASS_END`: 66 a block (R217). -/
def passSteps (n : Nat) : Nat := 2 + 66 * nblkOf n

/-- The micro-steps of a command that follow the current pass. -/
def stepsAfterPass (e : Engine) : Nat :=
  match e.pass with
  | .none => 0
  | .hash => 0
  | .keyHash => passSteps (64 + e.msgLen.toNat) + passSteps 96
  | .inner => passSteps 96
  | .outer => 0

/-- The micro-steps that a running command takes at most before the engine is idle. -/
def stepsLeft (e : Engine) : Nat :=
  match e.phase with
  | .idle => 0
  | .keyLoad => 1 + passSteps (64 + e.msgLen.toNat) + passSteps 96
  | .passInit => passSteps (virtualLength e) + stepsAfterPass e
  | .blockLoad => 66 * (e.nblk.toNat - e.blk.toNat) + 1 + stepsAfterPass e
  | .round => (64 - e.t.toNat) + 1 + 66 * (e.nblk.toNat - (e.blk.toNat + 1)) + 1 + stepsAfterPass e
  | .update => 1 + 66 * (e.nblk.toNat - (e.blk.toNat + 1)) + 1 + stepsAfterPass e
  | .passEnd => 1 + stepsAfterPass e

theorem stepsLeft_pos {e : Engine} (h : e.phase ≠ .idle) : 0 < stepsLeft e := by
  unfold stepsLeft passSteps
  cases hp : e.phase <;> simp only
  case idle => exact absurd hp h
  all_goals omega

theorem stepsLeft_startInner (k0 : Vector Byte 64) (e : Engine) :
    stepsLeft (startInner k0 e) = passSteps (64 + e.msgLen.toNat) + passSteps 96 := rfl

/-- A micro-step that goes on takes one of the micro-steps that are left. -/
theorem EngineStep.stepsLeft {e f : Engine} (hstep : EngineStep e f) (h : EngineSound e) :
    stepsLeft f + 1 = stepsLeft e := by
  obtain ⟨hvlen, _⟩ := h.registers
  cases hstep with
  | keyLoad k0 hphase =>
    rw [stepsLeft_startInner]
    simp only [Machine.stepsLeft, hphase]
    omega
  | passInit hphase =>
    have hcount : ((e.vlen + 8) / 64 + 1).toNat = nblkOf (virtualLength e) := hvlen ▸ blockCount_toNat h.vlen_lt
    have hfirst : (0 : BitVec 64).toNat = 0 := rfl
    simp only [Machine.stepsLeft, hphase, hcount, hfirst, passSteps, stepsAfterPass]
    omega
  | blockLoad w hphase =>
    obtain ⟨hblk, _⟩ := h.block (.inl hphase)
    have hfirst : (0 : BitVec 6).toNat = 0 := rfl
    simp only [Machine.stepsLeft, hphase, hfirst, stepsAfterPass]
    omega
  | round w v hphase ht =>
    have hnext : (e.t + 1).toNat = e.t.toNat + 1 := by
      rw [BitVec.toNat_add_of_lt] <;> simp
      omega
    simp only [Machine.stepsLeft, hphase, hnext, stepsAfterPass]
    omega
  | lastRound w v hphase ht =>
    have hlast : e.t.toNat < 64 := e.t.isLt
    simp only [Machine.stepsLeft, hphase, stepsAfterPass]
    omega
  | nextBlock v hphase hblk =>
    have hnext : (e.blk + 1).toNat = e.blk.toNat + 1 := by
      rw [BitVec.toNat_add_of_lt] <;> simp
      omega
    simp only [Machine.stepsLeft, hphase, hnext, stepsAfterPass]
    omega
  | lastBlock v hphase hblk =>
    simp only [Machine.stepsLeft, hphase, stepsAfterPass]
    omega
  | keyHashed k0 hphase hpass =>
    rw [stepsLeft_startInner]
    simp only [Machine.stepsLeft, hphase, stepsAfterPass, hpass]
    omega
  | innerHashed d hphase hpass =>
    simp only [Machine.stepsLeft, hphase, stepsAfterPass, hpass, virtualLength]
    omega

/-- With no turn decided, a sound engine is idle after the micro-steps that are left, or earlier (R220). -/
theorem runSteps_to_idle {n : Nat} {s : State} (hn : stepsLeft s.eng ≤ n) (hsound : EngineSound s.eng)
    (hsched : s.sched = []) (hrst : s.rst = false) :
    ∃ k u, k ≤ n ∧ runSteps k s = .next u ∧ busy u = false := by
  induction n generalizing s with
  | zero =>
    have hidle : ¬s.eng.phase ≠ .idle := fun h => absurd (stepsLeft_pos h) (by omega)
    exact ⟨0, s, le_rfl, rfl, (busy_eq_false_iff s).2 (not_not.1 hidle)⟩
  | succ n ih =>
    cases hb : busy s with
    | false => exact ⟨0, s, Nat.zero_le _, rfl, hb⟩
    | true =>
      obtain ⟨t, hmicro⟩ := microStep_next hsound
      have hstep : step s = .next t := (step_default hsched hb hrst).trans hmicro
      obtain ⟨_, _, _, _, _, hrst', hsched', _⟩ := (microStep_result hmicro).onlyOutputsMoved
      obtain hidle | hengine := microStep_engine hb hmicro
      · exact ⟨1, t, Nat.succ_pos n, runSteps_next hstep, (busy_eq_false_iff t).2 (congrArg Engine.phase hidle)⟩
      · have hleft := hengine.stepsLeft hsound
        obtain ⟨k, u, hk, hrun, hend⟩ :=
          ih (by omega) (hengine.sound hsound) (hsched'.trans hsched) (hrst'.trans hrst)
        exact ⟨k + 1, u, Nat.succ_le_succ hk, (runSteps_next hstep).trans hrun, hend⟩

theorem stepsLeft_hashStarted (s : State) : stepsLeft (hashStarted s) = commandSteps .hash s.reg := rfl

theorem commandSteps_hmac_short {r : HostRegs} (h : (keyLenOf r).toNat ≤ 64) :
    commandSteps .hmac r = 1 + passSteps (64 + (msgLenOf r).toNat) + passSteps 96 := by
  have houter : nblkOf 96 = 2 := rfl
  simp only [commandSteps, if_pos h, passSteps, houter]
  omega

theorem commandSteps_hmac_long {r : HostRegs} (h : ¬(keyLenOf r).toNat ≤ 64) :
    commandSteps .hmac r =
      passSteps (keyLenOf r).toNat + (passSteps (64 + (msgLenOf r).toNat) + passSteps 96) := by
  have houter : nblkOf 96 = 2 := rfl
  simp only [commandSteps, if_neg h, passSteps, houter]
  omega

theorem stepsLeft_hmacStarted (s : State) : stepsLeft (hmacStarted s) = commandSteps .hmac s.reg := by
  unfold hmacStarted
  split
  case isTrue hshort =>
    rw [commandSteps_hmac_short hshort]
    rfl
  case isFalse hlong =>
    rw [commandSteps_hmac_long hlong]
    rfl

end Sys2Proof.Machine
end

section
/-!
SUPPORT. One pass of the engine (43_commands.md R211 to R215) with quiet source bytes: its micro-steps compute the hash
of the virtual message.
-/

namespace Sys2Proof.Machine

/-- The engine of a block whose `n` first rounds are done (R213, R214), from the engine that `BLOCK_LOAD` left. -/
def roundsDone (e : Engine) (n : Nat) : Engine :=
  { e with
    w := windowBefore e.w n
    work := rounds (schedule e.w.toList) n e.work
    t := BitVec.ofNat 6 n
    phase := if n < 64 then .round else .update }

/-- A `ROUND` after `n` rounds is round `n` of R144: the window holds `W_n` when it is used (R140). -/
theorem roundsDone_succ (e : Engine) {n : Nat} (hn : n < 64) :
    roundSequence (roundDatapath (roundsDone e n)) = roundsDone e (n + 1) := by
  have ht : (roundsDone e n).t.toNat = n := (BitVec.toNat_ofNat n 6).trans (Nat.mod_eq_of_lt hn)
  have hword : windowAt (windowBefore e.w (n + 1)) n = (schedule e.w.toList).getD n 0 :=
    windowHolds_windowBefore e.w (by omega) n (by omega) (by omega)
  have hwindow : windowUpdate (roundsDone e n).w n = windowBefore e.w (n + 1) := (windowBefore_succ e.w n).symm
  have hwork : roundWith (roundConstant n) ((schedule e.w.toList).getD n 0) (roundsDone e n).work =
      rounds (schedule e.w.toList) (n + 1) e.work := (rounds_succ _ n e.work).symm
  rw [roundSequence_eq, ht, hwindow, hword, hwork]
  obtain hmore | hlast := Nat.lt_or_ge n 63
  · have hnext : (roundsDone e n).t + 1 = BitVec.ofNat 6 (n + 1) := (BitVec.ofNat_add n 1).symm
    have hmore' : n + 1 < 64 := by omega
    rw [if_pos hmore, if_pos hmore, hnext, roundsDone, roundsDone, if_pos hmore']
  · have hwraps : BitVec.ofNat 6 (n + 1) = 0 := by
      rw [show n + 1 = 64 by omega]
      rfl
    have hlast' : ¬n + 1 < 64 := by omega
    rw [if_neg hlast.not_gt, if_neg hlast.not_gt, roundsDone, roundsDone, if_neg hlast', hwraps]

/-- What a pass of a command needs to run undisturbed: no turn decided, the pass registers and ranges of the invariant,
and quiet operands. -/
structure PassRuns (s : State) : Prop where
  sched : s.sched = []
  rst : s.rst = false
  vlen : s.eng.vlen.toNat = virtualLength s.eng
  short : s.eng.vlen.toNat < 2 ^ 61
  msgEnd : s.eng.msgAddr.toNat + s.eng.msgLen.toNat ≤ 2 ^ 64
  keyEnd : s.eng.keyAddr.toNat + s.eng.keyLen.toNat ≤ 2 ^ 64
  msgQuiet : QuietRange s s.eng.msgAddr s.eng.msgLen
  keyQuiet : QuietRange s s.eng.keyAddr s.eng.keyLen

/-- The state inside the pass that `s` is at the start of: all that a pass moves, with the phase it has come to. -/
def inPass (s : State) (hs work : Words8) (w : Vector Word 16) (nblk blk : BitVec 64) (t : BitVec 6) (p : Phase) :
    State :=
  { s with eng := { s.eng with hs := hs, work := work, w := w, nblk := nblk, blk := blk, t := t, phase := p } }

theorem step_running {s : State} (hsched : s.sched = []) (hrst : s.rst = false) (hphase : s.eng.phase ≠ .idle) :
    step s = microStep s :=
  step_default hsched ((busy_eq_true_iff s).2 hphase) hrst

/-- The 64 rounds of a block, counted by a variable (R213, R214). -/
theorem runSteps_rounds {s : State} (hsched : s.sched = []) (hrst : s.rst = false) (hphase : s.eng.phase = .round)
    (ht : s.eng.t = 0) {n : Nat} (hn : n ≤ 64) : runSteps n s = .next { s with eng := roundsDone s.eng n } := by
  induction n with
  | zero =>
    have hstart : roundsDone s.eng 0 = s.eng := by
      rw [roundsDone, if_pos (by decide), ← hphase, show BitVec.ofNat 6 0 = s.eng.t from ht.symm]
      rfl
    rw [hstart]
    rfl
  | succ n ih =>
    have hround : (roundsDone s.eng n).phase = .round := if_pos (by omega)
    have hstep : step { s with eng := roundsDone s.eng n } = .next { s with eng := roundsDone s.eng (n + 1) } := by
      rw [step_running (s := { s with eng := roundsDone s.eng n }) hsched hrst (by simp [hround]),
        microStep_round hround, stepRound, roundsDone_succ s.eng (by omega)]
    rw [runSteps_add (ih (by omega)), runSteps_next hstep]
    rfl

theorem virtualByte_quiet {s : State} (h : PassRuns s) {i : Nat} (hi : i < virtualLength s.eng) :
    QuietSource s (virtualByte s.eng i) := by
  unfold virtualLength at hi
  unfold virtualByte
  cases hp : s.eng.pass <;> rw [hp] at hi <;> dsimp only at hi ⊢
  case none => exact absurd hi i.not_lt_zero
  case hash => exact h.msgQuiet i hi
  case keyHash => exact h.keyQuiet i hi
  case inner =>
    split
    · exact trivial
    · exact h.msgQuiet _ (by omega)
  case outer =>
    split
    · exact trivial
    · rw [dif_pos (by omega)]
      exact trivial

theorem blockSources_quiet {s : State} (h : PassRuns s) (hnblk : s.eng.nblk.toNat = nblkOf s.eng.vlen.toNat)
    (hblk : s.eng.blk.toNat < s.eng.nblk.toNat) : ∀ x ∈ blockSources s.eng, QuietSource s x := by
  intro x hx
  obtain ⟨i, hi, rfl⟩ := mem_blockSources.1 hx
  obtain hin | hout := Nat.lt_or_ge (64 * s.eng.blk.toNat + i) s.eng.vlen.toNat
  · rw [paddedByte_virtual hin]
    exact virtualByte_quiet h (h.vlen ▸ hin)
  · rw [paddedByte_padding (m := List.replicate s.eng.vlen.toNat 0) (by simp) hnblk hout (block_index_lt hblk hi)]
    exact trivial

theorem PassRuns.inPass {s : State} (h : PassRuns s) (hs work : Words8) (w : Vector Word 16) (nblk blk : BitVec 64)
    (t : BitVec 6) (p : Phase) : PassRuns (inPass s hs work w nblk blk t p) :=
  ⟨h.sched, h.rst, h.vlen, h.short, h.msgEnd, h.keyEnd, h.msgQuiet, h.keyQuiet⟩

/-- The 66 micro-steps of one block, counted by a variable: `BLOCK_LOAD`, 64 rounds and `UPDATE` compress it into the
hash state (R144). -/
theorem runSteps_block {s : State} (h : PassRuns s) (hphase : s.eng.phase = .blockLoad)
    (hnblk : s.eng.nblk.toNat = nblkOf s.eng.vlen.toNat) (hblk : s.eng.blk.toNat < s.eng.nblk.toNat) {k : Nat}
    (hk : k = 66) :
    ∃ work w t,
      runSteps k s =
        .next
          (inPass s (compress s.eng.hs (blockWords (virtualMessage s) s.eng.blk.toNat)) work w s.eng.nblk
            (if s.eng.blk.toNat + 1 < s.eng.nblk.toNat then s.eng.blk + 1 else s.eng.blk) t
            (if s.eng.blk.toNat + 1 < s.eng.nblk.toNat then .blockLoad else .passEnd)) := by
  obtain ⟨n, hn⟩ : ∃ n, n = 64 := ⟨64, rfl⟩
  let w : Vector Word 16 := loadWindow ((blockSources s.eng).map (quietValue s))
  let loaded : State := Machine.inPass s s.eng.hs s.eng.hs w s.eng.nblk s.eng.blk 0 .round
  let rounded : State := { loaded with eng := roundsDone loaded.eng n }
  have hload : step s = .next loaded := by
    rw [step_running h.sched h.rst (by simp [hphase]), microStep_blockLoad hphase,
      stepBlockLoad_quiet (blockSources_quiet h hnblk hblk)]
    rfl
  have hrounds : runSteps n loaded = .next rounded := runSteps_rounds (s := loaded) h.sched h.rst rfl rfl hn.le
  have hupdate : step rounded = .next (stepUpdate rounded) := by
    have hn' : ¬n < 64 := by omega
    have hphase' : rounded.eng.phase = .update := if_neg hn'
    rw [step_running (s := rounded) h.sched h.rst (by simp [hphase']), microStep_update hphase']
  have hrun : runSteps k s = .next (stepUpdate rounded) := by
    rw [show k = n + 1 + 1 by omega, runSteps_next hload, runSteps_add hrounds, runSteps_next hupdate]
    rfl
  have hwords : w.toList = blockWords (virtualMessage s) s.eng.blk.toNat :=
    loadWindow_blockSources ⟨h.vlen, hnblk, h.msgEnd, h.keyEnd⟩ hblk
  have hupdated : stepUpdate rounded = { rounded with eng := (stepUpdate rounded).eng } := rfl
  rw [hrun, hupdated, stepUpdate_eng, compress_rounds hn, ← hwords]
  exact ⟨_, _, _, rfl⟩

/-- The first `n` blocks of a pass, 66 micro-steps each (R146). -/
theorem runSteps_blocks {s : State} (h : PassRuns s) (hphase : s.eng.phase = .blockLoad) (hhs : s.eng.hs = iv)
    (hfirst : s.eng.blk = 0) (hnblk : s.eng.nblk.toNat = nblkOf s.eng.vlen.toNat) {n : Nat}
    (hn : n ≤ s.eng.nblk.toNat) :
    ∃ work w blk t,
      runSteps (66 * n) s =
          .next
            (inPass s (hashBlocks (virtualMessage s) n) work w s.eng.nblk blk t
              (if n < s.eng.nblk.toNat then .blockLoad else .passEnd)) ∧
        (n < s.eng.nblk.toNat → blk.toNat = n) := by
  induction n with
  | zero =>
    have hpos : 0 < s.eng.nblk.toNat := hnblk ▸ nblkOf_pos _
    have hstart : hashBlocks (virtualMessage s) 0 = s.eng.hs := hhs.symm
    rw [hstart, if_pos hpos, ← hphase]
    exact ⟨_, _, s.eng.blk, _, rfl, fun _ => by rw [hfirst]; rfl⟩
  | succ n ih =>
    obtain ⟨work, w, blk, t, hrun, hblk⟩ := ih (by omega)
    have hcount : blk.toNat = n := hblk (by omega)
    rw [if_pos (show n < s.eng.nblk.toNat by omega)] at hrun
    obtain ⟨k, hk⟩ : ∃ k, k = 66 := ⟨66, rfl⟩
    let u : State := Machine.inPass s (hashBlocks (virtualMessage s) n) work w s.eng.nblk blk t .blockLoad
    have hin : u.eng.blk.toNat < u.eng.nblk.toNat := hcount.trans_lt (Nat.lt_of_succ_le hn)
    obtain ⟨work', w', t', hblock⟩ := runSteps_block (s := u) (h.inPass _ _ _ _ _ _ _) rfl hnblk hin hk
    have hcompress : compress u.eng.hs (blockWords (virtualMessage u) u.eng.blk.toNat) =
        hashBlocks (virtualMessage s) (n + 1) := by
      rw [hashBlocks_succ, show u.eng.blk.toNat = n from hcount]
      rfl
    have hmore : u.eng.blk.toNat + 1 = n + 1 := congrArg (· + 1) hcount
    rw [hcompress, hmore] at hblock
    rw [show 66 * (n + 1) = 66 * n + k by omega, runSteps_add hrun, hblock]
    refine ⟨_, _, _, _, rfl, fun hlt => ?_⟩
    have hlt' : n + 1 < u.eng.nblk.toNat := hlt
    have hnext : (blk + 1).toNat = blk.toNat + 1 := by
      have := s.eng.nblk.isLt
      rw [BitVec.toNat_add_of_lt] <;> simp
      omega
    rw [if_pos hlt']
    exact hnext.trans (congrArg (· + 1) hcount)

/-- A pass, up to its `PASS_END`: the hash state is then the hash of the virtual message (R146, R205). -/
theorem runSteps_pass {s : State} (h : PassRuns s) (hphase : s.eng.phase = .passInit) :
    ∃ work w nblk blk t,
      runSteps (1 + 66 * nblkOf s.eng.vlen.toNat) s =
        .next (inPass s (sha256Words (virtualMessage s)) work w nblk blk t .passEnd) := by
  let u : State := stepPassInit s
  have hinit : step s = .next u := by
    rw [step_running h.sched h.rst (by simp [hphase]), microStep_passInit hphase]
  have hnblk : u.eng.nblk.toNat = nblkOf s.eng.vlen.toNat := blockCount_toNat h.short
  have hruns : PassRuns u := h.inPass iv s.eng.work s.eng.w _ 0 s.eng.t .blockLoad
  obtain ⟨work, w, blk, t, hrun, _⟩ := runSteps_blocks hruns rfl rfl rfl hnblk hnblk.ge
  have hhash : hashBlocks (virtualMessage u) (nblkOf s.eng.vlen.toNat) = sha256Words (virtualMessage s) := by
    rw [sha256Words, virtualMessage_length h.vlen]
    rfl
  rw [if_neg hnblk.le.not_gt, hhash] at hrun
  rw [Nat.add_comm, runSteps_next hinit, hrun]
  exact ⟨_, _, _, _, _, rfl⟩

/-- The `PASS_END` is one more micro-step after the blocks of its pass. -/
theorem runSteps_passEnd {s u t : State} (hrun : runSteps (1 + 66 * nblkOf s.eng.vlen.toNat) s = .next u)
    (hsched : u.sched = []) (hrst : u.rst = false) (hphase : u.eng.phase = .passEnd) (hend : stepPassEnd u = .next t) :
    runSteps (passSteps s.eng.vlen.toNat) s = .next t := by
  have hstep : step u = .next t := by
    rw [step_running hsched hrst (by simp [hphase]), microStep_passEnd hphase, hend]
  rw [passSteps, show 2 + 66 * nblkOf s.eng.vlen.toNat = 1 + 66 * nblkOf s.eng.vlen.toNat + 1 by omega,
    runSteps_add hrun, runSteps_next hstep]
  rfl

/-- A pass that yields a command's result, its `PASS_END` among its micro-steps: the hash of the virtual message reaches
`DIGEST0..7` and the command completes (R216, R198). -/
theorem runSteps_resultPass {s : State} (h : PassRuns s) (hphase : s.eng.phase = .passInit)
    (hpass : s.eng.pass = .hash ∨ s.eng.pass = .outer) :
    runSteps (passSteps s.eng.vlen.toNat) s =
      .next (complete (setDigest (sha256Words (virtualMessage s)) s)) := by
  obtain ⟨work, w, nblk, blk, t, hrun⟩ := runSteps_pass h hphase
  exact runSteps_passEnd hrun h.sched h.rst rfl
    (stepPassEnd_hash_or_outer (s := inPass s _ work w nblk blk t .passEnd) hpass)

end Sys2Proof.Machine
end

section
/-!
SUPPORT. The passes of `HMAC` one after another (42_hmac.md R171 to R176, 43_commands.md R216).
-/

namespace Sys2Proof.Machine

/-- A state in which the pass `INNER` is about to start, its registers and ranges those of the invariant. -/
structure InnerReady (s : State) : Prop where
  runs : PassRuns s
  phase : s.eng.phase = .passInit
  pass : s.eng.pass = .inner

/-- The pass `OUTER` over 96 bytes follows (R216). -/
theorem InnerReady.outer {s : State} (h : InnerReady s) (hs work : Words8) (w : Vector Word 16) (nblk blk : BitVec 64)
    (t : BitVec 6) (ihd : Vector Byte 32) :
    PassRuns
      { s with
        eng := { (inPass s hs work w nblk blk t .passEnd).eng with
          ihd := ihd, pass := .outer, vlen := 96, phase := .passInit } } :=
  ⟨h.runs.sched, h.runs.rst, rfl, (by decide : (96 : BitVec 64).toNat < 2 ^ 61), h.runs.msgEnd, h.runs.keyEnd,
    h.runs.msgQuiet, h.runs.keyQuiet⟩

/-- The passes `INNER` and `OUTER` compute the MAC of the key in `K0` (R174, R175). -/
theorem runSteps_inner {s : State} (h : InnerReady s) :
    runSteps (passSteps s.eng.vlen.toNat + passSteps 96) s =
      .next
        (complete
          (setDigest
            (sha256Words
              (xorByte opadByte s.eng.k0.toList ++ sha256 (xorByte ipadByte s.eng.k0.toList ++ messageBytes s)))
            s)) := by
  obtain ⟨work, w, nblk, blk, t, hrun⟩ := runSteps_pass h.runs h.phase
  let hash : Words8 := sha256Words (virtualMessage s)
  let u : State := { s with
    eng := { (inPass s hash work w nblk blk t .passEnd).eng with
      ihd := bytesOfList 32 hash.bytes, pass := .outer, vlen := 96, phase := .passInit } }
  have hinner : runSteps (passSteps s.eng.vlen.toNat) s = .next u :=
    runSteps_passEnd hrun h.runs.sched h.runs.rst rfl (stepPassEnd_inner h.pass)
  have houter := runSteps_resultPass (s := u) (h.outer hash work w nblk blk t _) rfl (.inr rfl)
  have hmessage : virtualMessage u =
      xorByte opadByte s.eng.k0.toList ++ sha256 (xorByte ipadByte s.eng.k0.toList ++ messageBytes s) := by
    have hvirtual : virtualMessage s = xorByte ipadByte s.eng.k0.toList ++ messageBytes s := by
      rw [virtualMessage, h.pass]
    have hihd : u.eng.ihd.toList = sha256 (virtualMessage s) := bytesOfList_words8 hash
    rw [← hvirtual, ← hihd]
    rfl
  rw [hmessage] at houter
  rw [runSteps_add hinner]
  exact houter

end Sys2Proof.Machine
end

section
/-!
SUPPORT. A whole `HMAC` from the state that its acceptance left (43_commands.md R217, R219, 42_hmac.md R171, R176), with
a short key and with a long one.
-/

namespace Sys2Proof.Machine

/-- What a running `HMAC` needs to go on undisturbed: no turn decided, checked operands, and quiet operand bytes. -/
structure HmacRuns (s : State) : Prop where
  sched : s.sched = []
  rst : s.rst = false
  msgLen : s.eng.msgLen.toNat < 2 ^ 61 - 64
  keyLen : s.eng.keyLen.toNat < 2 ^ 61
  msgEnd : s.eng.msgAddr.toNat + s.eng.msgLen.toNat ≤ 2 ^ 64
  keyEnd : s.eng.keyAddr.toNat + s.eng.keyLen.toNat ≤ 2 ^ 64
  msgQuiet : QuietRange s s.eng.msgAddr s.eng.msgLen
  keyQuiet : QuietRange s s.eng.keyAddr s.eng.keyLen

theorem HmacRuns.innerReady {s : State} (h : HmacRuns s) (k0 : Vector Byte 64) :
    InnerReady { s with eng := startInner k0 s.eng } where
  runs :=
    ⟨h.sched, h.rst, innerLength_toNat h.msgLen,
      (innerLength_toNat h.msgLen).trans_lt (by have := h.msgLen; omega), h.msgEnd, h.keyEnd, h.msgQuiet, h.keyQuiet⟩
  phase := rfl
  pass := rfl

/-- With the normalised key in `K0`, the two passes that remain compute the MAC (R174 to R176). -/
theorem HmacRuns.inner {s : State} (h : HmacRuns s) {k0 : Vector Byte 64} {key : List Byte}
    (hk0 : k0.toList = normKey key) :
    runSteps (passSteps (64 + s.eng.msgLen.toNat) + passSteps 96) { s with eng := startInner k0 s.eng } =
      .next (complete (setDigest (hmacWords key (messageBytes s)) s)) := by
  have hrun := runSteps_inner (h.innerReady k0)
  have hlen : (startInner k0 s.eng).vlen.toNat = 64 + s.eng.msgLen.toNat := innerLength_toNat h.msgLen
  have hkey : (startInner k0 s.eng).k0.toList = normKey key := hk0
  simp only [hlen, hkey] at hrun
  exact hrun

/-- `HMAC` with a key of 64 bytes or fewer, from its `KEYLOAD` on (R210). -/
theorem HmacRuns.shortKey {s : State} (h : HmacRuns s) (hphase : s.eng.phase = .keyLoad)
    (hshort : s.eng.keyLen.toNat ≤ 64) :
    runSteps (1 + passSteps (64 + s.eng.msgLen.toNat) + passSteps 96) s =
      .next (complete (setDigest (hmacWords (keyBytes s) (messageBytes s)) s)) := by
  have hload : step s = _ := (step_running h.sched h.rst (by simp [hphase])).trans
    ((microStep_keyLoad hphase).trans (stepKeyLoad_quiet h.keyQuiet))
  rw [Nat.add_assoc, Nat.add_comm 1, runSteps_next hload]
  exact h.inner (keyLoad_k0 hshort h.keyEnd)

/-- `HMAC` with a longer key, from the pass `KEYHASH` on (R171). -/
theorem HmacRuns.longKey {s : State} (h : HmacRuns s) (hphase : s.eng.phase = .passInit)
    (hpass : s.eng.pass = .keyHash) (hvlen : s.eng.vlen = s.eng.keyLen) (hlong : 64 < s.eng.keyLen.toNat) :
    runSteps (passSteps s.eng.keyLen.toNat + (passSteps (64 + s.eng.msgLen.toNat) + passSteps 96)) s =
      .next (complete (setDigest (hmacWords (keyBytes s) (messageBytes s)) s)) := by
  have hlen : s.eng.vlen.toNat = virtualLength s.eng := by rw [hvlen, virtualLength, hpass]
  have hkey : virtualMessage s = keyBytes s := by rw [virtualMessage, hpass]
  have hruns : PassRuns s :=
    ⟨h.sched, h.rst, hlen, hvlen ▸ h.keyLen, h.msgEnd, h.keyEnd, h.msgQuiet, h.keyQuiet⟩
  obtain ⟨work, w, nblk, blk, t, hrun⟩ := runSteps_pass hruns hphase
  let hash : Words8 := sha256Words (virtualMessage s)
  let u : State := inPass s hash work w nblk blk t .passEnd
  have hhashed : runSteps (passSteps s.eng.vlen.toNat) s =
      .next { u with eng := startInner (bytesOfList 64 hash.bytes) u.eng } :=
    runSteps_passEnd hrun h.sched h.rst rfl (stepPassEnd_keyHash hpass)
  have hu : HmacRuns u :=
    ⟨h.sched, h.rst, h.msgLen, h.keyLen, h.msgEnd, h.keyEnd, h.msgQuiet, h.keyQuiet⟩
  have hk0 : (bytesOfList 64 hash.bytes).toList = normKey (keyBytes s) := by
    rw [bytesOfList_words8_pad, normKey_long ((memBytes_length ..).symm ▸ hlong), ← hkey]
    rfl
  rw [← hvlen, runSteps_add hhashed]
  exact hu.inner hk0

/-- The state in which `HASH` has been accepted (R195), when the operands are checked and quiet. -/
theorem passRuns_hashStarted {s : State} (heng : s.eng = Engine.idle) (hrst : s.rst = false) (hsched : s.sched = [])
    (hchecked : HashChecked s.reg) (hquiet : QuietRange s (msgAddrOf s.reg) (msgLenOf s.reg)) (r : HostRegs) :
    PassRuns { s with reg := r, eng := hashStarted s } := by
  obtain ⟨hlen, hend⟩ := hchecked
  have hkeyLen : s.eng.keyLen.toNat = 0 := by rw [heng]; rfl
  have hkeyEnd : s.eng.keyAddr.toNat + s.eng.keyLen.toNat ≤ 2 ^ 64 := by rw [hkeyLen]; exact s.eng.keyAddr.isLt.le
  exact ⟨hsched, hrst, rfl, hlen, hend, hkeyEnd, hquiet, fun i hi => absurd (hkeyLen ▸ hi) i.not_lt_zero⟩

@[simp] theorem hmacStarted_msgAddr (s : State) : (hmacStarted s).msgAddr = msgAddrOf s.reg := by
  unfold hmacStarted; split <;> rfl
@[simp] theorem hmacStarted_msgLen (s : State) : (hmacStarted s).msgLen = msgLenOf s.reg := by
  unfold hmacStarted; split <;> rfl
@[simp] theorem hmacStarted_keyAddr (s : State) : (hmacStarted s).keyAddr = keyAddrOf s.reg := by
  unfold hmacStarted; split <;> rfl
@[simp] theorem hmacStarted_keyLen (s : State) : (hmacStarted s).keyLen = keyLenOf s.reg := by
  unfold hmacStarted; split <;> rfl

/-- The state in which `HMAC` has been accepted (R196), when the operands are checked and quiet. -/
theorem hmacRuns_hmacStarted {s t : State} (heng : t.eng = hmacStarted s) (hrst : t.rst = false)
    (hsched : t.sched = []) (hchecked : HmacChecked s.reg)
    (hkey : QuietRange t (keyAddrOf s.reg) (keyLenOf s.reg)) (hmsg : QuietRange t (msgAddrOf s.reg) (msgLenOf s.reg)) :
    HmacRuns t := by
  obtain ⟨hkeyLen, hmsgLen, hkeyEnd, hmsgEnd⟩ := hchecked
  exact {
    sched := hsched
    rst := hrst
    msgLen := by rw [heng, hmacStarted_msgLen]; exact hmsgLen
    keyLen := by rw [heng, hmacStarted_keyLen]; exact hkeyLen
    msgEnd := by rw [heng, hmacStarted_msgAddr, hmacStarted_msgLen]; exact hmsgEnd
    keyEnd := by rw [heng, hmacStarted_keyAddr, hmacStarted_keyLen]; exact hkeyEnd
    msgQuiet := by rw [heng, hmacStarted_msgAddr, hmacStarted_msgLen]; exact hmsg
    keyQuiet := by rw [heng, hmacStarted_keyAddr, hmacStarted_keyLen]; exact hkey }

/-- `HMAC` with checked and quiet operands, from the state that its acceptance left, in R217's count. -/
theorem runSteps_hmacStarted {s t : State} (heng : t.eng = hmacStarted s) (hrst : t.rst = false)
    (hsched : t.sched = []) (hchecked : HmacChecked s.reg)
    (hkey : QuietRange t (keyAddrOf s.reg) (keyLenOf s.reg)) (hmsg : QuietRange t (msgAddrOf s.reg) (msgLenOf s.reg)) :
    runSteps (commandSteps .hmac s.reg) t =
      .next
        (complete
          (setDigest
            (hmacWords (memBytes t.mem (keyAddrOf s.reg).toNat (keyLenOf s.reg).toNat)
              (memBytes t.mem (msgAddrOf s.reg).toNat (msgLenOf s.reg).toNat))
            t)) := by
  have hruns : HmacRuns t := hmacRuns_hmacStarted heng hrst hsched hchecked hkey hmsg
  have hmsgLen : t.eng.msgLen = msgLenOf s.reg := by rw [heng, hmacStarted_msgLen]
  have hkeyLen : t.eng.keyLen = keyLenOf s.reg := by rw [heng, hmacStarted_keyLen]
  have hkeyBytes : keyBytes t = memBytes t.mem (keyAddrOf s.reg).toNat (keyLenOf s.reg).toNat := by
    rw [keyBytes, heng, hmacStarted_keyAddr, hmacStarted_keyLen]
  have hmessage : messageBytes t = memBytes t.mem (msgAddrOf s.reg).toNat (msgLenOf s.reg).toNat := by
    rw [messageBytes, heng, hmacStarted_msgAddr, hmacStarted_msgLen]
  rw [← hkeyBytes, ← hmessage]
  by_cases hshort : (keyLenOf s.reg).toNat ≤ 64
  · have hphase : t.eng.phase = .keyLoad := by rw [heng, hmacStarted, if_pos hshort]
    rw [commandSteps_hmac_short hshort, ← hmsgLen]
    exact hruns.shortKey hphase (hkeyLen ▸ hshort)
  · have hstarted : t.eng.phase = .passInit ∧ t.eng.pass = .keyHash ∧ t.eng.vlen = keyLenOf s.reg := by
      rw [heng, hmacStarted, if_neg hshort]
      exact ⟨rfl, rfl, rfl⟩
    obtain ⟨hphase, hpass, hvlen⟩ := hstarted
    rw [commandSteps_hmac_long hshort, ← hmsgLen, ← hkeyLen]
    exact hruns.longKey hphase hpass (hvlen.trans hkeyLen.symm) (hkeyLen ▸ not_le.1 hshort)

end Sys2Proof.Machine
end

section
/-!
The statements about whole commands (43_commands.md R217 to R220): that each ends, and that `HASH` and `HMAC` compute
SHA-256 and HMAC-SHA256.
-/

namespace Sys2Proof.Machine

/-- Settles O48: `HASH` is one pass over the message. -/
theorem hashComputesSha256 : Obligations.HashComputesSha256 := by
  intro s heng hrst hsched hlen hend hquiet message
  have hchecked : HashChecked s.reg := ⟨hlen, hend⟩
  have hcount : 2 + 66 * nblkOf message.length = passSteps (msgLenOf s.reg).toNat := by
    rw [show message.length = (msgLenOf s.reg).toNat from memBytes_length .., passSteps]
  rw [hcount]
  exact ⟨_, _, exec_hash_started hchecked,
    runSteps_resultPass (passRuns_hashStarted heng hrst hsched hchecked hquiet _) rfl (.inl rfl), rfl, rfl, rfl,
    aroundKept_setRegEng s _ _⟩

/-- Settles O49: `HMAC` makes `K0`, then hashes twice. -/
theorem hmacComputesHmac : Obligations.HmacComputesHmac := by
  intro s heng hrst hsched hkeyLen hmsgLen hkeyEnd hmsgEnd hkey hmsg key message
  have hchecked : HmacChecked s.reg := ⟨hkeyLen, hmsgLen, hkeyEnd, hmsgEnd⟩
  let t : State := { s with reg := { s.reg with digest := Words8.zero }, eng := hmacStarted s }
  have hrun := runSteps_hmacStarted (s := s) (t := t) rfl hrst hsched hchecked hkey hmsg
  exact ⟨t, _, exec_hmac_started hchecked, hrun, rfl, rfl, rfl, aroundKept_setRegEng s _ _⟩

/-- Settles O50: a command that is accepted has R217's count of micro-steps left, and each takes one. -/
theorem everyCommandEnds : Obligations.EveryCommandEnds := by
  intro s t i heng hrst hsched hexec
  obtain ⟨u, hu, hresult⟩ := exec_result i s
  cases hu.symm.trans hexec
  cases hresult with
  | completes _ o d _ => exact ⟨0, _, Nat.zero_le _, rfl, rfl⟩
  | fails _ c _ _ => exact ⟨0, _, Nat.zero_le _, rfl, rfl⟩
  | hashRuns hchecked =>
    exact runSteps_to_idle (stepsLeft_hashStarted s).le (engineSound_hashStarted heng hchecked) hsched hrst
  | hmacRuns hchecked =>
    exact runSteps_to_idle (stepsLeft_hmacStarted s).le (engineSound_hmacStarted heng hchecked) hsched hrst

end Sys2Proof.Machine
end

section
/-!
SUPPORT. What the sequencer depends on (43_commands.md R218): two engines with the same sequencing registers and
operands read the same addresses, and their micro-steps lead to the same sequencing.
-/

namespace Sys2Proof.Machine

/-- The two engines agree on what decides the next phase (R218). -/
structure SameSequencing (e f : Engine) : Prop where
  phase : e.phase = f.phase
  pass : e.pass = f.pass
  t : e.t = f.t
  blk : e.blk = f.blk
  nblk : e.nblk = f.nblk
  vlen : e.vlen = f.vlen
  msgAddr : e.msgAddr = f.msgAddr
  msgLen : e.msgLen = f.msgLen
  keyAddr : e.keyAddr = f.keyAddr
  keyLen : e.keyLen = f.keyLen

theorem sameControl_iff (s t : State) :
    SameControl s t ↔ s.platform = t.platform ∧ s.rst = t.rst ∧ SameSequencing s.eng t.eng := by
  constructor
  · rintro ⟨hplatform, hrst, hphase, hpass, ht, hblk, hnblk, hvlen, hmsgAddr, hmsgLen, hkeyAddr, hkeyLen⟩
    exact ⟨hplatform, hrst, hphase, hpass, ht, hblk, hnblk, hvlen, hmsgAddr, hmsgLen, hkeyAddr, hkeyLen⟩
  · rintro ⟨hplatform, hrst, hphase, hpass, ht, hblk, hnblk, hvlen, hmsgAddr, hmsgLen, hkeyAddr, hkeyLen⟩
    exact ⟨hplatform, hrst, hphase, hpass, ht, hblk, hnblk, hvlen, hmsgAddr, hmsgLen, hkeyAddr, hkeyLen⟩

theorem sameSequencing_refl (e : Engine) : SameSequencing e e := ⟨rfl, rfl, rfl, rfl, rfl, rfl, rfl, rfl, rfl, rfl⟩

/-- Two sources of the same kind, a read's address included; the values of constants may differ. -/
inductive SameSource : ByteSource → ByteSource → Prop
  | const (b c : Byte) : SameSource (.const b) (.const c)
  | source (a : Addr) : SameSource (.source a) (.source a)
  | absent : SameSource .absent .absent

theorem sameSource_refl (x : ByteSource) : SameSource x x := by
  cases x with
  | const b => exact .const b b
  | source a => exact .source a
  | absent => exact .absent

theorem virtualByte_same {e f : Engine} (h : SameSequencing e f) (i : Nat) :
    SameSource (virtualByte e i) (virtualByte f i) := by
  have hmsg : ∀ j, msgByte e j = msgByte f j := fun j => by rw [msgByte, msgByte, h.msgAddr]
  have hkey : ∀ j, keyByte e j = keyByte f j := fun j => by rw [keyByte, keyByte, h.keyAddr]
  unfold virtualByte
  rw [← h.pass]
  cases e.pass with
  | none => exact .absent
  | hash => exact hmsg i ▸ sameSource_refl _
  | keyHash => exact hkey i ▸ sameSource_refl _
  | inner =>
    dsimp only
    split
    · exact .const ..
    · exact hmsg (i - 64) ▸ sameSource_refl _
  | outer =>
    dsimp only
    split
    · exact .const ..
    · split
      · exact .const ..
      · exact .absent

theorem paddedByte_same {e f : Engine} (h : SameSequencing e f) (p : Nat) :
    SameSource (paddedByte e p) (paddedByte f p) := by
  unfold paddedByte
  rw [← h.vlen, ← h.nblk]
  split
  · exact virtualByte_same h p
  · exact sameSource_refl _

theorem blockSources_same {e f : Engine} (h : SameSequencing e f) :
    List.Forall₂ SameSource (blockSources e) (blockSources f) := by
  rw [blockSources, blockSources, ← h.blk, List.forall₂_map_left_iff, List.forall₂_map_right_iff, List.forall₂_same]
  exact fun i _ => paddedByte_same h _

theorem keySources_same {e f : Engine} (h : SameSequencing e f) : keySources e = keySources f := by
  simp only [keySources, keyByte, h.keyLen, h.keyAddr]

/-- Two loads that come to the same: bytes, which may differ, or a failing read at the same address. -/
inductive SameFetched : Fetched → Fetched → Prop
  | bytes (bs bs' : List Byte) (d d' : Nat) : SameFetched (.bytes bs d) (.bytes bs' d')
  | busError (a : Addr) (d d' : Nat) : SameFetched (.busError a d) (.busError a d')
  | absent : SameFetched .absent .absent

theorem SameFetched.consByte {x y : Fetched} (h : SameFetched x y) (b c : Byte) :
    SameFetched (consByte b x) (consByte c y) := by
  cases h with
  | bytes bs bs' d d' => exact .bytes ..
  | busError a d d' => exact .busError ..
  | absent => exact .absent

/-- On one platform, loads of the same sources come to the same: only `BusErr` decides whether a read fails (R73). -/
theorem fetchBytes_same {s s' : State} (hplatform : s.platform = s'.platform) {l l' : List ByteSource}
    (h : List.Forall₂ SameSource l l') (d d' : Nat) : SameFetched (fetchBytes s l d) (fetchBytes s' l' d') := by
  induction h generalizing d d' with
  | nil => exact .bytes ..
  | cons hx _ ih =>
    cases hx with
    | const b c => exact (ih d d').consByte b c
    | absent => exact .absent
    | source a =>
      cases hfails : busErr s.platform a with
      | true =>
        have hread := (sourceRead_eq_busError s d a).2 hfails
        have hread' := (sourceRead_eq_busError s' d' a).2 (hplatform ▸ hfails)
        simp only [fetchBytes, hread, hread']
        exact .busError ..
      | false =>
        obtain ⟨b, n, hread⟩ := sourceRead_byte d hfails
        obtain ⟨b', n', hread'⟩ := sourceRead_byte (s := s') d' (hplatform ▸ hfails)
        simp only [fetchBytes, hread, hread']
        exact (ih n n').consByte b b'

/-- What two micro-steps from states of the same control come to (R218): the same control, and the same registers but
for the digest of a command that completes. -/
def SameOutcome (s t t' : State) : Prop :=
  SameControl t t' ∧ t'.reg = { t.reg with digest := t'.reg.digest } ∧
    (t.reg.digest ≠ t'.reg.digest → s.eng.phase = .passEnd ∧ t.reg.done = true)

/-- With the same registers there is nothing to tell apart. -/
theorem sameOutcome_of_reg (s : State) {t t' : State} (h : SameControl t t') (hreg : t.reg = t'.reg) :
    SameOutcome s t t' :=
  ⟨h, by rw [hreg], fun hne => absurd (congrArg HostRegs.digest hreg) hne⟩

theorem sameOutcome_raiseError (s : State) {t t' : State} (h : SameControl t t') (hreg : t.reg = t'.reg) (c : ErrCode)
    (a : Addr) : SameOutcome s (raiseError c a t) (raiseError c a t') := by
  obtain ⟨hplatform, hrst, _⟩ := (sameControl_iff t t').1 h
  refine sameOutcome_of_reg s ((sameControl_iff _ _).2 ⟨hplatform, hrst, sameSequencing_refl _⟩) ?_
  rw [raiseError_reg, raiseError_reg, hreg]

theorem startInner_same {e f : Engine} (h : SameSequencing e f) (k0 k0' : Vector Byte 64) :
    SameSequencing (startInner k0 e) (startInner k0' f) :=
  { h with phase := rfl, pass := rfl, vlen := congrArg (64 + ·) h.msgLen }

section
variable {s s' t t' : State} (h : SameControl s s') (hreg : s.reg = s'.reg)
include h hreg

theorem stepKeyLoad_same (ht : stepKeyLoad s = .next t) (ht' : stepKeyLoad s' = .next t') : SameOutcome s t t' := by
  obtain ⟨hplatform, hrst, hseq⟩ := (sameControl_iff s s').1 h
  have hsources : List.Forall₂ SameSource (keySources s.eng) (keySources s'.eng) :=
    keySources_same hseq ▸ List.forall₂_same.2 fun x _ => sameSource_refl x
  have hfetched := fetchBytes_same hplatform hsources s.draws s'.draws
  unfold stepKeyLoad at ht ht'
  generalize fetchBytes s (keySources s.eng) s.draws = x at hfetched ht
  generalize fetchBytes s' (keySources s'.eng) s'.draws = x' at hfetched ht'
  cases hfetched <;> cases ht <;> cases ht'
  case bytes =>
    exact sameOutcome_of_reg s ((sameControl_iff _ _).2 ⟨hplatform, hrst, startInner_same hseq _ _⟩) hreg
  case busError => exact sameOutcome_raiseError s ((sameControl_iff _ _).2 ⟨hplatform, hrst, hseq⟩) hreg _ _

theorem stepBlockLoad_same (ht : stepBlockLoad s = .next t) (ht' : stepBlockLoad s' = .next t') :
    SameOutcome s t t' := by
  obtain ⟨hplatform, hrst, hseq⟩ := (sameControl_iff s s').1 h
  have hfetched := fetchBytes_same hplatform (blockSources_same hseq) s.draws s'.draws
  unfold stepBlockLoad at ht ht'
  generalize fetchBytes s (blockSources s.eng) s.draws = x at hfetched ht
  generalize fetchBytes s' (blockSources s'.eng) s'.draws = x' at hfetched ht'
  cases hfetched <;> cases ht <;> cases ht'
  case bytes =>
    exact sameOutcome_of_reg s ((sameControl_iff _ _).2 ⟨hplatform, hrst, { hseq with phase := rfl, t := rfl }⟩) hreg
  case busError => exact sameOutcome_raiseError s ((sameControl_iff _ _).2 ⟨hplatform, hrst, hseq⟩) hreg _ _

theorem stepPassInit_same : SameOutcome s (stepPassInit s) (stepPassInit s') := by
  obtain ⟨hplatform, hrst, hseq⟩ := (sameControl_iff s s').1 h
  have hnblk : (s.eng.vlen + 8) / 64 + 1 = (s'.eng.vlen + 8) / 64 + 1 := by rw [hseq.vlen]
  exact sameOutcome_of_reg s
    ((sameControl_iff _ _).2 ⟨hplatform, hrst, { hseq with phase := rfl, blk := rfl, nblk := hnblk }⟩) hreg

theorem stepRound_same : SameOutcome s (stepRound s) (stepRound s') := by
  obtain ⟨hplatform, hrst, hseq⟩ := (sameControl_iff s s').1 h
  have hround : SameSequencing (stepRound s).eng (stepRound s').eng := by
    rw [stepRound_eng, stepRound_eng, roundSequence_eq, roundSequence_eq, hseq.t]
    exact { hseq with phase := rfl, t := rfl }
  exact sameOutcome_of_reg s ((sameControl_iff _ _).2 ⟨hplatform, hrst, hround⟩) hreg

theorem stepUpdate_same : SameOutcome s (stepUpdate s) (stepUpdate s') := by
  obtain ⟨hplatform, hrst, hseq⟩ := (sameControl_iff s s').1 h
  have hupdate : SameSequencing (stepUpdate s).eng (stepUpdate s').eng := by
    rw [stepUpdate_eng, stepUpdate_eng, hseq.blk, hseq.nblk]
    exact { hseq with phase := rfl, blk := rfl }
  exact sameOutcome_of_reg s ((sameControl_iff _ _).2 ⟨hplatform, hrst, hupdate⟩) hreg

/-- Only here can a digest differ: the hash states of the two may. -/
theorem sameOutcome_complete (hphase : s.eng.phase = .passEnd) :
    SameOutcome s (complete (setDigest s.eng.hs s)) (complete (setDigest s'.eng.hs s')) := by
  obtain ⟨hplatform, hrst, _⟩ := (sameControl_iff s s').1 h
  refine ⟨(sameControl_iff _ _).2 ⟨hplatform, hrst, sameSequencing_refl _⟩, ?_, fun _ => ⟨hphase, rfl⟩⟩
  simp only [complete_reg, setDigest_reg, hreg]

theorem stepPassEnd_same (hphase : s.eng.phase = .passEnd) (ht : stepPassEnd s = .next t)
    (ht' : stepPassEnd s' = .next t') : SameOutcome s t t' := by
  obtain ⟨hplatform, hrst, hseq⟩ := (sameControl_iff s s').1 h
  unfold stepPassEnd at ht ht'
  rw [← hseq.pass] at ht'
  cases hp : s.eng.pass <;> rw [hp] at ht ht' <;> cases ht <;> cases ht'
  case hash => exact sameOutcome_complete h hreg hphase
  case outer => exact sameOutcome_complete h hreg hphase
  case keyHash =>
    exact sameOutcome_of_reg s ((sameControl_iff _ _).2 ⟨hplatform, hrst, startInner_same hseq _ _⟩) hreg
  case inner =>
    exact sameOutcome_of_reg s
      ((sameControl_iff _ _).2 ⟨hplatform, hrst, { hseq with phase := rfl, pass := rfl, vlen := rfl }⟩) hreg

theorem microStep_same (ht : microStep s = .next t) (ht' : microStep s' = .next t') : SameOutcome s t t' := by
  obtain ⟨_, _, hseq⟩ := (sameControl_iff s s').1 h
  cases hp : s.eng.phase
  case idle =>
    rw [microStep_idle hp] at ht
    rw [microStep_idle (hseq.phase ▸ hp)] at ht'
    cases ht
    cases ht'
    exact sameOutcome_of_reg s h hreg
  case keyLoad =>
    rw [microStep_keyLoad hp] at ht
    rw [microStep_keyLoad (hseq.phase ▸ hp)] at ht'
    exact stepKeyLoad_same h hreg ht ht'
  case passInit =>
    rw [microStep_passInit hp] at ht
    rw [microStep_passInit (hseq.phase ▸ hp)] at ht'
    cases ht
    cases ht'
    exact stepPassInit_same h hreg
  case blockLoad =>
    rw [microStep_blockLoad hp] at ht
    rw [microStep_blockLoad (hseq.phase ▸ hp)] at ht'
    exact stepBlockLoad_same h hreg ht ht'
  case round =>
    rw [microStep_round hp] at ht
    rw [microStep_round (hseq.phase ▸ hp)] at ht'
    cases ht
    cases ht'
    exact stepRound_same h hreg
  case update =>
    rw [microStep_update hp] at ht
    rw [microStep_update (hseq.phase ▸ hp)] at ht'
    cases ht
    cases ht'
    exact stepUpdate_same h hreg
  case passEnd =>
    rw [microStep_passEnd hp] at ht
    rw [microStep_passEnd (hseq.phase ▸ hp)] at ht'
    exact stepPassEnd_same h hreg hp ht ht'

end

end Sys2Proof.Machine
end

section
/-!
The statement that no secret steers the engine (43_commands.md R218, 60_exceptions.md R253).
-/

namespace Sys2Proof.Machine

/-- Settles O51: both engines rest while `rst` is asserted, and otherwise take the same micro-step. -/
theorem secretsDoNotSteerTheEngine : Obligations.SecretsDoNotSteerTheEngine := by
  intro s s' t t' h hreg hturn hturn' hstep hstep'
  have hpopped : SameControl (popTurn s) (popTurn s') := h
  rw [step_of_engine hturn, engineTurn, popTurn_rst] at hstep
  rw [step_of_engine hturn', engineTurn, popTurn_rst] at hstep'
  obtain ⟨_, hrst, _⟩ := h
  rw [← hrst] at hstep'
  split at hstep
  case isTrue hr =>
    rw [if_pos hr] at hstep'
    cases hstep
    cases hstep'
    exact sameOutcome_of_reg s hpopped hreg
  case isFalse hr =>
    rw [if_neg hr] at hstep'
    exact microStep_same (s := popTurn s) (s' := popTurn s') hpopped hreg hstep hstep'

end Sys2Proof.Machine
end
